-- ==== Sys2Proof/Word.lean ====
section
/-! DEFINITION. The word types of BFC-1: bytes of the stream, XLEN-bit values, control words. -/

namespace Sys2Proof

/-- One byte of the stream buffer (10_state R22). -/
abbrev Byte := BitVec 8

/-- An XLEN-bit value: every value operand, value result, F register and RVAL (00_scope R6, XLEN = 128). -/
abbrev Word := BitVec 128

/-- The control word C of a command (30_encoding R70). -/
abbrev ControlWord := BitVec 32

end Sys2Proof
end

