-- ==== Sys2Proof/Syntax.lean ====
section
/-! DEFINITION. The 24 commands of BFC-1 (30_encoding R75), one constructor per row of spec/opcode_table.json, with the operands of R73. -/

namespace Sys2Proof

/-- A command with its operands already cut out of C and V (30_encoding R71, R73). -/
inductive Instr where
  | nop
  | rdbits (n : BitVec 24)
  | wrbits (n : BitVec 24) (v : Word)
  | rdbytes (n : BitVec 24)
  | wrbytes (n : BitVec 24) (v : Word)
  | phdec
  | phenc
  | tcdecNone
  | tcdecCuc
  | tcdecCds
  | tcdecCcs
  | tcdecAsca (dec : BitVec 16) (term : Bool)
  | tcdecAscb (dec : BitVec 16) (term : Bool)
  | ovhd (var : BitVec 3)
  | paylen (dl ovh : BitVec 16) (cons : BitVec 32)
  | payext (dl ovh : BitVec 16) (cons : BitVec 32)
  | bufwr (idx : BitVec 24) (v : Word)
  | bufrd (idx : BitVec 24)
  | setlen (n : BitVec 24)
  | seek (pos : BitVec 24)
  | getf (i : BitVec 4)
  | setf (i : BitVec 4) (v : Word)
  | gets (sel : BitVec 4)
  | clre
deriving DecidableEq, Repr

end Sys2Proof
end

