-- ==== Sys2Proof/WellFormed.lean ====
section
/-! DEFINITION. Which instruction terms are commands: the reserved variant and selector codes are not (30_encoding R76, R77). -/

namespace Sys2Proof

/-- The commands of R75: an OVHD variant is below 6 and a GETS selector below 9 (30_encoding R77 d, e);
every value of every other operand is legal (R78). -/
def Instr.wellFormed : Instr → Bool
  | .nop => true
  | .rdbits _ => true
  | .wrbits _ _ => true
  | .rdbytes _ => true
  | .wrbytes _ _ => true
  | .phdec => true
  | .phenc => true
  | .tcdecNone => true
  | .tcdecCuc => true
  | .tcdecCds => true
  | .tcdecCcs => true
  | .tcdecAsca _ _ => true
  | .tcdecAscb _ _ => true
  | .ovhd var => decide (var.toNat < 6)
  | .paylen _ _ _ => true
  | .payext _ _ _ => true
  | .bufwr _ _ => true
  | .bufrd _ => true
  | .setlen _ => true
  | .seek _ => true
  | .getf _ => true
  | .setf _ _ => true
  | .gets sel => decide (sel.toNat < 9)
  | .clre => true

end Sys2Proof
end

