-- ==== Sys2Proof/Decode.lean ====
section
/-! DEFINITION. Decoding a command (C, V), its encoder, and the opcode map as rows of match and mask (30_encoding R70 to R77). -/

namespace Sys2Proof

/-- Why a pair (C, V) is no command (30_encoding R77); the block answers every one with OperandError. -/
inductive DecodeError where
  /-- R77 a: `op` is not one of the nineteen assigned values. -/
  | unassignedOpcode
  /-- R77 b: a "must be 0" field of C is not 0 (R72). -/
  | reservedBits
  /-- R77 b: `V[XLEN-1:64]` of format P is not 0 (R72). -/
  | reservedOperand
  /-- R77 c, d: variant code 6 or 7. -/
  | reservedVariant
  /-- R77 e: GETS selector 9 to 15. -/
  | reservedSelector
deriving DecidableEq, Repr

/-- `op = C[31:24]` (30_encoding R71). -/
def opField (c : ControlWord) : BitVec 8 := c.extractLsb' 24 8

/-- `a = C[23:0]` (30_encoding R71). -/
def aField (c : ControlWord) : BitVec 24 := c.extractLsb' 0 24

/-- Format Z: `a` must be 0 (30_encoding R71). -/
def formatZ (a : BitVec 24) (i : Instr) : Except DecodeError Instr :=
  if a = 0 then .ok i else .error .reservedBits

/-- Format S with a four-bit selector: `a[23:4]` must be 0 (30_encoding R71). -/
def formatS (a : BitVec 24) (f : BitVec 4 → Instr) : Except DecodeError Instr :=
  if a.extractLsb' 4 20 = 0 then .ok (f (a.extractLsb' 0 4)) else .error .reservedBits

/-- Format P: `a` and `V[XLEN-1:64]` must be 0; `dl`, `ovh` and `cons` lie in V (30_encoding R71). -/
def formatP (a : BitVec 24) (v : Word) (f : BitVec 16 → BitVec 16 → BitVec 32 → Instr) :
    Except DecodeError Instr :=
  if a = 0 then
    if v.extractLsb' 64 64 = 0 then
      .ok (f (v.extractLsb' 0 16) (v.extractLsb' 16 16) (v.extractLsb' 32 32))
    else .error .reservedOperand
  else .error .reservedBits

/-- Format T for a variant without parameters: `term` and `dec` must be 0 too (30_encoding R72). -/
def formatTPlain (a : BitVec 24) (i : Instr) : Except DecodeError Instr :=
  if a.getLsbD 3 = false ∧ a.extractLsb' 8 16 = 0 then .ok i else .error .reservedBits

/-- Format T: `var = a[2:0]`, `term = a[3]`, `a[7:4]` must be 0, `dec = a[23:8]` (30_encoding R71, R76). -/
def formatT (a : BitVec 24) : Except DecodeError Instr :=
  if a.extractLsb' 4 4 = 0 then
    match a.extractLsb' 0 3 with
    | 0#3 => formatTPlain a .tcdecNone
    | 1#3 => formatTPlain a .tcdecCuc
    | 2#3 => formatTPlain a .tcdecCds
    | 3#3 => formatTPlain a .tcdecCcs
    | 4#3 => .ok (.tcdecAsca (a.extractLsb' 8 16) (a.getLsbD 3))
    | 5#3 => .ok (.tcdecAscb (a.extractLsb' 8 16) (a.getLsbD 3))
    | _ => .error .reservedVariant
  else .error .reservedBits

/-- OVHD: `C[23:3]` must be 0 and the variant is below 6 (43_payload R160, 30_encoding R77 d). -/
def formatOvhd (a : BitVec 24) : Except DecodeError Instr :=
  if a.extractLsb' 3 21 = 0 then
    if (a.extractLsb' 0 3).toNat < 6 then .ok (.ovhd (a.extractLsb' 0 3))
    else .error .reservedVariant
  else .error .reservedBits

/-- GETS: format S with a selector below 9 (44_host_access R178, 30_encoding R77 e). -/
def formatGets (a : BitVec 24) : Except DecodeError Instr :=
  if a.extractLsb' 4 20 = 0 then
    if (a.extractLsb' 0 4).toNat < 9 then .ok (.gets (a.extractLsb' 0 4))
    else .error .reservedSelector
  else .error .reservedBits

/-- The opcode map (30_encoding R74, R75) over the fields of C. -/
def decodeFields (op : BitVec 8) (a : BitVec 24) (v : Word) : Except DecodeError Instr :=
  match op with
  | 0x00#8 => formatZ a .nop
  | 0x01#8 => .ok (.rdbits a)
  | 0x02#8 => .ok (.wrbits a v)
  | 0x03#8 => .ok (.rdbytes a)
  | 0x04#8 => .ok (.wrbytes a v)
  | 0x10#8 => formatZ a .phdec
  | 0x11#8 => formatZ a .phenc
  | 0x20#8 => formatT a
  | 0x30#8 => formatOvhd a
  | 0x31#8 => formatP a v .paylen
  | 0x32#8 => formatP a v .payext
  | 0x40#8 => .ok (.bufwr a v)
  | 0x41#8 => .ok (.bufrd a)
  | 0x42#8 => .ok (.setlen a)
  | 0x43#8 => .ok (.seek a)
  | 0x44#8 => formatS a .getf
  | 0x45#8 => formatS a (fun i => .setf i v)
  | 0x46#8 => formatGets a
  | 0x47#8 => formatZ a .clre
  | _ => .error .unassignedOpcode

/-- The total decoder: every pair (C, V) is one command or rejected by name (30_encoding R77). -/
def decode (c : ControlWord) (v : Word) : Except DecodeError Instr :=
  decodeFields (opField c) (aField c) v

/-- The `op` of each command (30_encoding R75). -/
def Instr.opcode : Instr → BitVec 8
  | .nop => 0x00#8
  | .rdbits _ => 0x01#8
  | .wrbits _ _ => 0x02#8
  | .rdbytes _ => 0x03#8
  | .wrbytes _ _ => 0x04#8
  | .phdec => 0x10#8
  | .phenc => 0x11#8
  | .tcdecNone => 0x20#8
  | .tcdecCuc => 0x20#8
  | .tcdecCds => 0x20#8
  | .tcdecCcs => 0x20#8
  | .tcdecAsca _ _ => 0x20#8
  | .tcdecAscb _ _ => 0x20#8
  | .ovhd _ => 0x30#8
  | .paylen _ _ _ => 0x31#8
  | .payext _ _ _ => 0x32#8
  | .bufwr _ _ => 0x40#8
  | .bufrd _ => 0x41#8
  | .setlen _ => 0x42#8
  | .seek _ => 0x43#8
  | .getf _ => 0x44#8
  | .setf _ _ => 0x45#8
  | .gets _ => 0x46#8
  | .clre => 0x47#8

/-- `a` of format T: `{dec, 0000, term, var}` (30_encoding R71). -/
def encodeT (var : BitVec 3) (dec : BitVec 16) (term : Bool) : BitVec 24 :=
  dec ++ 0#4 ++ BitVec.ofBool term ++ var

/-- The short operand `a` of each command (30_encoding R71, R79). -/
def Instr.shortOperand : Instr → BitVec 24
  | .nop => 0
  | .rdbits n => n
  | .wrbits n _ => n
  | .rdbytes n => n
  | .wrbytes n _ => n
  | .phdec => 0
  | .phenc => 0
  | .tcdecNone => encodeT 0#3 0 false
  | .tcdecCuc => encodeT 1#3 0 false
  | .tcdecCds => encodeT 2#3 0 false
  | .tcdecCcs => encodeT 3#3 0 false
  | .tcdecAsca dec term => encodeT 4#3 dec term
  | .tcdecAscb dec term => encodeT 5#3 dec term
  | .ovhd var => 0#21 ++ var
  | .paylen _ _ _ => 0
  | .payext _ _ _ => 0
  | .bufwr idx _ => idx
  | .bufrd idx => idx
  | .setlen n => n
  | .seek pos => pos
  | .getf i => 0#20 ++ i
  | .setf i _ => 0#20 ++ i
  | .gets sel => 0#20 ++ sel
  | .clre => 0

/-- `V` of format P: `(cons << 32) | (ovh << 16) | dl` (43_payload R162). -/
def encodeP (dl ovh : BitVec 16) (cons : BitVec 32) : Word := 0#64 ++ cons ++ ovh ++ dl

/-- The data operand of each command; 0 where the format ignores V (30_encoding R70, R71). -/
def Instr.dataOperand : Instr → Word
  | .nop => 0
  | .rdbits _ => 0
  | .wrbits _ v => v
  | .rdbytes _ => 0
  | .wrbytes _ v => v
  | .phdec => 0
  | .phenc => 0
  | .tcdecNone => 0
  | .tcdecCuc => 0
  | .tcdecCds => 0
  | .tcdecCcs => 0
  | .tcdecAsca _ _ => 0
  | .tcdecAscb _ _ => 0
  | .ovhd _ => 0
  | .paylen dl ovh cons => encodeP dl ovh cons
  | .payext dl ovh cons => encodeP dl ovh cons
  | .bufwr _ v => v
  | .bufrd _ => 0
  | .setlen _ => 0
  | .seek _ => 0
  | .getf _ => 0
  | .setf _ v => v
  | .gets _ => 0
  | .clre => 0

/-- `C = (op << 24) | a` (30_encoding R79). -/
def encodeControl (i : Instr) : ControlWord := i.opcode ++ i.shortOperand

/-- The words (C, V) of an instruction. -/
def encode (i : Instr) : ControlWord × Word := (encodeControl i, i.dataOperand)

/-- `match` and `mask` of the instruction's row of the opcode map (30_encoding R75). -/
def Instr.row : Instr → ControlWord × ControlWord
  | .nop => (0x00000000#32, 0xFFFFFFFF#32)
  | .rdbits _ => (0x01000000#32, 0xFF000000#32)
  | .wrbits _ _ => (0x02000000#32, 0xFF000000#32)
  | .rdbytes _ => (0x03000000#32, 0xFF000000#32)
  | .wrbytes _ _ => (0x04000000#32, 0xFF000000#32)
  | .phdec => (0x10000000#32, 0xFFFFFFFF#32)
  | .phenc => (0x11000000#32, 0xFFFFFFFF#32)
  | .tcdecNone => (0x20000000#32, 0xFFFFFFFF#32)
  | .tcdecCuc => (0x20000001#32, 0xFFFFFFFF#32)
  | .tcdecCds => (0x20000002#32, 0xFFFFFFFF#32)
  | .tcdecCcs => (0x20000003#32, 0xFFFFFFFF#32)
  | .tcdecAsca _ _ => (0x20000004#32, 0xFF0000F7#32)
  | .tcdecAscb _ _ => (0x20000005#32, 0xFF0000F7#32)
  | .ovhd _ => (0x30000000#32, 0xFFFFFFF8#32)
  | .paylen _ _ _ => (0x31000000#32, 0xFFFFFFFF#32)
  | .payext _ _ _ => (0x32000000#32, 0xFFFFFFFF#32)
  | .bufwr _ _ => (0x40000000#32, 0xFF000000#32)
  | .bufrd _ => (0x41000000#32, 0xFF000000#32)
  | .setlen _ => (0x42000000#32, 0xFF000000#32)
  | .seek _ => (0x43000000#32, 0xFF000000#32)
  | .getf _ => (0x44000000#32, 0xFFFFFFF0#32)
  | .setf _ _ => (0x45000000#32, 0xFFFFFFF0#32)
  | .gets _ => (0x46000000#32, 0xFFFFFFF0#32)
  | .clre => (0x47000000#32, 0xFFFFFFFF#32)

/-- The rows of the opcode map in the order of 30_encoding R75. -/
def opcodeRows : List (ControlWord × ControlWord) :=
  [.nop, .rdbits 0, .wrbits 0 0, .rdbytes 0, .wrbytes 0 0, .phdec, .phenc,
   .tcdecNone, .tcdecCuc, .tcdecCds, .tcdecCcs, .tcdecAsca 0 false, .tcdecAscb 0 false,
   .ovhd 0, .paylen 0 0 0, .payext 0 0 0, .bufwr 0 0, .bufrd 0, .setlen 0, .seek 0,
   .getf 0, .setf 0 0, .gets 0, .clre].map Instr.row

/-- A control word selects a row when `C AND mask = match` (30_encoding R75). -/
def selectsRow (c : ControlWord) (r : ControlWord × ControlWord) : Bool := c &&& r.2 == r.1

/-- The control word in the low 32 bits of a command read as one number, bit 0 of C first. -/
def controlOfNat (nbits w : Nat) : ControlWord := BitVec.ofNat 32 (w % 2 ^ nbits)

/-- The data operand above the control word in a command read as one number; bits from `nbits` up are 0. -/
def dataOfNat (nbits w : Nat) : Word := BitVec.ofNat 128 ((w % 2 ^ nbits) / 2 ^ 32)

/-- The instruction the decoder reads from a command whose bits are `w`, C in bits 31..0 and V above. -/
def decodeTableWord (nbits w : Nat) : Option Instr :=
  match decode (controlOfNat nbits w) (dataOfNat nbits w) with
  | .ok i => some i
  | .error _ => none

end Sys2Proof
end

