-- ==== Sys2Proof/Config.lean ====
section
/-! DEFINITION. What BFC-1 fixes of the block's parameters (00_scope R6). The spec leaves no value of a command open, so there is no free value here. -/

namespace Sys2Proof

/-- Width in bits of a value (00_scope R6; log entry 7). -/
def Config.xlen : Nat := 128

/-- Capacity of the stream buffer in bytes (00_scope R6; log entry 7). -/
def Config.bufBytes : Nat := 65542

/-- The constant the special register ID holds (10_state R29): "BFC", version 1. -/
def Config.idValue : BitVec 32 := 0x42464301#32

/-- The four field widths of the CUC p-field extension byte, most significant field first (00_scope R6, CUCX_LAYOUT). -/
structure CucxLayout where
  ext      : Nat
  basic    : Nat
  frac     : Nat
  reserved : Nat
deriving DecidableEq, Repr

/-- The constraint R6 puts on CUCX_LAYOUT: four widths summing to 8, reserved = 2. It admits layouts whose time units are
wider than XLEN, for which the spec states no value (log entry 18). -/
def CucxLayout.valid (l : CucxLayout) : Bool :=
  l.ext + l.basic + l.frac + l.reserved == 8 && l.reserved == 2

/-- BFC-1's CUCX_LAYOUT (00_scope R6, 42_timecode R135; PRESUMED, unsafe, log entry 8). -/
def Config.cucxLayout : CucxLayout := { ext := 1, basic := 2, frac := 3, reserved := 2 }

end Sys2Proof
end

