-- ==== Sys2Proof/Machine/State.lean ====
section
/-! DEFINITION. The architectural state of BFC-1 (10_state), the command port's inputs and response (70_reset R225), and reset (70_reset R220). -/

namespace Sys2Proof.Machine

/-- The five error kinds of the block (60_exceptions R191); codes 6 and 7 do not exist. -/
inductive ErrorKind where
  | truncatedInput
  | range
  | corruptPacket
  | encoding
  | operand
deriving DecidableEq, Repr

/-- One response on the port (60_exceptions R195): `err` is none for `rsp_err = 0`. -/
structure Response where
  err : Option ErrorKind
  val : Word
deriving DecidableEq, Repr

/-- What the host presents to the block between two steps (70_reset R220, R225, R226). -/
inductive HostInput where
  /-- `cmd_valid` with `cmd_c` and `cmd_v`. -/
  | command (c : ControlWord) (v : Word)
  /-- a pulse of `rst`. -/
  | reset
deriving DecidableEq, Repr

/-- No step of this machine stops with a fault: every error is a response after which the block takes the next
command (60_exceptions R195, R201), and no command has an undefined outcome (93_implementation_defined). Raised by
nothing; safe (log entry 16). -/
inductive Fault
deriving DecidableEq, Repr

/-- Why a step has no meaning. -/
inductive Refusal where
  /-- Raised only by an arm of exec that gives its instruction no meaning; safe. Every arm has a meaning. -/
  | notModelled (mnemonic : String)
deriving DecidableEq, Repr

/-- Everything the spec gives the machine (10_state R22 to R29), the response presented (70_reset R225), and the host's
inputs still to come, which are the model's own field (log entry 3). -/
structure State where
  /-- BUF (10_state R22): the bytes that are not 0, addresses strictly rising. -/
  buf    : List Host.Cell
  /-- LEN (10_state R23). -/
  len    : BitVec 21
  /-- CUR (10_state R25). -/
  cur    : BitVec 24
  /-- F0..F15 (10_state R26). -/
  f      : Vector Word 16
  /-- FV (10_state R27). -/
  fv     : BitVec 16
  /-- ERRACC (60_exceptions R197). -/
  erracc : BitVec 5
  /-- BCNT (10_state R29). -/
  bcnt   : BitVec 32
  /-- PLEN (10_state R29). -/
  plen   : BitVec 16
  /-- POFF (10_state R29). -/
  poff   : BitVec 24
  /-- RVAL (10_state R29). -/
  rval   : Word
  /-- The response of the last step, none when it gave none (`rsp_valid = 0`). -/
  rsp    : Option Response
  /-- The host's inputs still to come, oldest first. -/
  inputs : List HostInput
deriving DecidableEq, Repr

namespace State

def setBuf (s : State) (x : List Host.Cell) : State := { s with buf := x }
def setLen (s : State) (x : BitVec 21) : State := { s with len := x }
def setCur (s : State) (x : BitVec 24) : State := { s with cur := x }
def setF (s : State) (x : Vector Word 16) : State := { s with f := x }
def setFv (s : State) (x : BitVec 16) : State := { s with fv := x }
def setErracc (s : State) (x : BitVec 5) : State := { s with erracc := x }
def setBcnt (s : State) (x : BitVec 32) : State := { s with bcnt := x }
def setPlen (s : State) (x : BitVec 16) : State := { s with plen := x }
def setPoff (s : State) (x : BitVec 24) : State := { s with poff := x }
def setRval (s : State) (x : Word) : State := { s with rval := x }
def setRsp (s : State) (x : Option Response) : State := { s with rsp := x }
def setInputs (s : State) (x : List HostInput) : State := { s with inputs := x }

/-- The state after reset (70_reset R220). BUF and F, which the spec leaves unspecified and unobservable, hold zeros
(DESIGN CHOICE, unsafe, log entries 1 and 2); no command is pending (log entry 3). -/
def reset : State :=
  { buf := [], len := 0, cur := 0, f := Vector.replicate 16 0, fv := 0, erracc := 0, bcnt := 0, plen := 0, poff := 0,
    rval := 0, rsp := none, inputs := [] }

end State

/-- What one step answers. -/
abbrev Result := Host.Outcome State Fault Refusal

end Sys2Proof.Machine
end

