-- ==== Sys2Proof/Machine/Flags.lean ====
section
/-! DEFINITION. The flag-like state: error codes and the sticky mask ERRACC (60_exceptions R191, R197, R198), the valid mask FV (10_state R27, R28). -/

namespace Sys2Proof.Machine

/-- The code of an error kind, the value of `rsp_err` (60_exceptions R191). -/
def ErrorKind.code : ErrorKind → BitVec 3
  | .truncatedInput => 1
  | .range => 2
  | .corruptPacket => 3
  | .encoding => 4
  | .operand => 5

/-- `rsp_err` of a response: the code, 0 for success (60_exceptions R195). -/
def Response.errCode (r : Response) : BitVec 3 :=
  match r.err with
  | none => 0
  | some e => e.code

/-- The bit of ERRACC that records a kind: bit `code - 1` (60_exceptions R191). -/
def ErrorKind.mask (e : ErrorKind) : BitVec 5 := 1#5 <<< (e.code.toNat - 1)

/-- ERRACC after a command raised `e` (60_exceptions R197). -/
def erraccAfter (acc : BitVec 5) (e : ErrorKind) : BitVec 5 := acc ||| e.mask

/-- The output `err_any`: the level `ERRACC != 0` (60_exceptions R198). -/
def State.errAny (s : State) : Bool := s.erracc != 0

/-- `FV[i]` (10_state R27). -/
def fvValid (fv : BitVec 16) (i : BitVec 4) : Bool := fv.getLsbD i.toNat

/-- FV with `FV[i] <- 1` and the other bits kept (44_host_access R177). -/
def fvSet (fv : BitVec 16) (i : BitVec 4) : BitVec 16 := fv ||| 1#16 <<< i.toNat

/-- FV after PHDEC (41_primary_header R121). -/
def fvHeader : BitVec 16 := 0x007F#16

/-- FV after TCDEC.CUC (42_timecode R133, 10_state R28). With an extension FV[6] is set, against the words of 43_payload R164
and 70_reset R230 (DEDUCED, unsafe, log entry 10). -/
def fvCuc (ext : Bool) : BitVec 16 := if ext then 0x03FF#16 else 0x030F#16

/-- FV after TCDEC.CDS, by whether the sub-millisecond width is not 0 (42_timecode R139). -/
def fvCds (subms : Bool) : BitVec 16 := if subms then 0x071F#16 else 0x031F#16

/-- FV after TCDEC.CCS, by branch and by whether `resolution > 0` (42_timecode R143). -/
def fvCcs (dayOfYear subsec : Bool) : BitVec 16 :=
  0x710F#16 ||| (if dayOfYear then 0x0800#16 else 0x0600#16) ||| (if subsec then 0x8000#16 else 0#16)

/-- FV after TCDEC.ASCA and TCDEC.ASCB (42_timecode R148). -/
def fvAscii (term : Bool) : BitVec 16 := if term then 0x1F00#16 else 0x0F00#16

end Sys2Proof.Machine
end

