-- ==== Sys2Proof/Machine/Memory.lean ====
section
/-! DEFINITION. The stream buffer as a list of cells in one canonical form, and its access as bytes and as stream bits (00_scope R10, 20_memory R50 to R54). -/

namespace Sys2Proof.Machine

/-- What a byte that is not listed reads as: BUF's contents before any write (10_state R22 leaves them unspecified and
unobservable; DESIGN CHOICE, unsafe, log entry 1). -/
def Memory.unlisted : Byte := 0

/-- `BUF[a]` (20_memory R50). -/
def Memory.read : List Host.Cell → Nat → Byte
  | [], _ => Memory.unlisted
  | c :: m, a => if c.1 = a then c.2 else Memory.read m a

/-- Put a cell before the first cell of a higher address. -/
def Memory.insert (a : Nat) (v : Byte) : List Host.Cell → List Host.Cell
  | [] => [(a, v)]
  | c :: m => if a < c.1 then (a, v) :: c :: m else c :: Memory.insert a v m

/-- `BUF[k] <- 0x00` for every `k` with `lo <= k < hi` (20_memory R54). -/
def Memory.zeroRange (m : List Host.Cell) (lo hi : Nat) : List Host.Cell :=
  m.filter fun c => decide (c.1 < lo ∨ hi ≤ c.1)

/-- `BUF[a] <- v`; writing the value of an unlisted byte removes the cell. -/
def Memory.write (m : List Host.Cell) (a : Nat) (v : Byte) : List Host.Cell :=
  let cleared := Memory.zeroRange m a (a + 1)
  if v = Memory.unlisted then cleared else Memory.insert a v cleared

/-- The canonical form: addresses strictly rising, no cell that holds what an unlisted byte reads as. -/
abbrev Memory.wf (m : List Host.Cell) : Prop :=
  (m.map Prod.fst).Pairwise (· < ·) ∧ ∀ c ∈ m, c.2 ≠ Memory.unlisted

/-- Stream bit `q`: bit `7 - q mod 8` of byte `q div 8` (00_scope R10). -/
def Memory.bit (m : List Host.Cell) (q : Nat) : Bool :=
  (Memory.read m (q / 8)).getLsbD (7 - q % 8)

/-- One byte with bit `j` set to `b`. -/
def byteWithBit (x : Byte) (j : Nat) (b : Bool) : Byte :=
  if b then x ||| 1#8 <<< j else x &&& ~~~(1#8 <<< j)

/-- Set stream bit `q` to `b`. -/
def Memory.setBit (m : List Host.Cell) (q : Nat) (b : Bool) : List Host.Cell :=
  Memory.write m (q / 8) (byteWithBit (Memory.read m (q / 8)) (7 - q % 8) b)

/-- `MemRead(q, n)`: the stream bits `q .. q+n-1` as a number, the first most significant (20_memory R52). -/
def Memory.readBits (m : List Host.Cell) (q : Nat) : Nat → Nat
  | 0 => 0
  | n + 1 => 2 * Memory.readBits m q n + (Memory.bit m (q + n)).toNat

/-- The insertion of `MemWrite(q, n, v)`: stream bit `q+i` becomes `v[n-1-i]` (20_memory R54, step 2). -/
def Memory.writeBits (m : List Host.Cell) (q : Nat) : Nat → Nat → List Host.Cell
  | 0, _ => m
  | n + 1, v => Memory.setBit (Memory.writeBits m q n (v / 2)) (q + n) (v % 2 == 1)

end Sys2Proof.Machine
end

