-- ==== Sys2Proof/Machine/Ops.lean ====
section
/-! DEFINITION. The shared operations of the command rules: raise, respond, test, MemWrite with growth, result registers, the command port (00_scope R11, 20_memory R54, 60_exceptions R195 to R197). -/

namespace Sys2Proof.Machine

/-- What a command's rule gives: an error kind, or the state after its commit and the value it responds. -/
abbrev Effect := Except ErrorKind (State × Word)

/-- `raise`: nothing changes but ERRACC, which gains the kind's bit; the response carries the code and value 0
(60_exceptions R195, R196, R197). -/
def raise (e : ErrorKind) (s : State) : State :=
  (s.setErracc (erraccAfter s.erracc e)).setRsp (some { err := some e, val := 0 })

/-- `respond(v)`: success, with the value `v` (60_exceptions R195). -/
def respond (v : Word) (s : State) : State := s.setRsp (some { err := none, val := v })

/-- A command ends: its commit and its response, or the abort. -/
def complete (s : State) (r : Effect) : Result :=
  match r with
  | .ok (t, v) => .next (respond v t)
  | .error e => .next (raise e s)

/-- `if p then raise e` in front of the rest of a rule (00_scope R12: tests in the order they stand). -/
def raiseIf (p : Prop) [Decidable p] (e : ErrorKind) : Except ErrorKind Unit :=
  if p then .error e else .ok ()

/-- `8*LEN` (00_scope R11). -/
def State.validBits (s : State) : Nat := 8 * s.len.toNat

/-- `8*BUF_BYTES` (20_memory R58). -/
def capacityBits : Nat := 8 * Config.bufBytes

/-- `CUR <- q`. -/
def State.moveTo (s : State) (q : Nat) : State := s.setCur (BitVec.ofNat 24 q)

/-- The growth step: every byte brought inside LEN is cleared, then LEN is raised (20_memory R54, step 1). -/
def State.grow (s : State) (newLen : Nat) : State :=
  if s.len.toNat < newLen then
    (s.setBuf (Memory.zeroRange s.buf s.len.toNat newLen)).setLen (BitVec.ofNat 21 newLen)
  else s

/-- `MemWrite(q, n, v)`: growth to `ceil((q+n)/8)` bytes, then insertion (20_memory R54). -/
def State.memWrite (s : State) (q n v : Nat) : State :=
  let g := s.grow ((q + n + 7) / 8)
  g.setBuf (Memory.writeBits g.buf q n v)

/-- `BUF[idx] <- b` after the growth that brings `idx` inside LEN (44_host_access R171). -/
def State.storeByte (s : State) (idx : Nat) (b : Byte) : State :=
  let g := s.grow (idx + 1)
  g.setBuf (Memory.write g.buf idx b)

/-- `LEN <- n`, clearing the bytes a growth brings inside LEN (44_host_access R173). -/
def State.resize (s : State) (n : Nat) : State := (s.grow n).setLen (BitVec.ofNat 21 n)

/-- The contents of register `F[i]`, valid or not. -/
def regGet (f : Vector Word 16) (i : BitVec 4) : Word := f[i.toNat]'(i.isLt)

/-- The registers with `F[i] <- v`. -/
def regSet (f : Vector Word 16) (i : BitVec 4) (v : Word) : Vector Word 16 := f.set i.toNat v i.isLt

/-- The registers after a list of writes, first to last. -/
def regSetAll (f : Vector Word 16) : List (BitVec 4 × Word) → Vector Word 16
  | [] => f
  | r :: rs => regSetAll (regSet f r.1 r.2) rs

/-- The value of result register `i`, none when it holds none (10_state R27). -/
def State.result (s : State) (i : BitVec 4) : Option Word :=
  if fvValid s.fv i then some (regGet s.f i) else none

/-- The commit of a decode command: the registers it populates and the whole of FV (10_state R27). -/
def State.populate (s : State) (rs : List (BitVec 4 × Word)) (fv : BitVec 16) : State :=
  (s.setF (regSetAll s.f rs)).setFv fv

/-- No input: the block idles, keeps its state and gives no response (60_exceptions R206, 70_reset R225; log entry 5). -/
def idle (s : State) : State := s.setRsp none

/-- A reset input: the reset state, with the host's later inputs still to come (70_reset R220; log entry 6). -/
def applyReset (later : List HostInput) : State := State.reset.setInputs later

/-- Present a command to the block before every input still to come. -/
def presentCommand (s : State) (c : ControlWord) (v : Word) : State := s.setInputs (.command c v :: s.inputs)

end Sys2Proof.Machine
end

