-- ==== Sys2Proof/Machine/Operands.lean ====
section
/-! DEFINITION. How a command gets its operands: stream fields taken at a position, result registers, special registers, the payload length (00_scope R11, 42_timecode R130, 10_state R29, 43_payload R162). -/

namespace Sys2Proof.Machine

/-- `zext_XLEN` of a field (00_scope R9). -/
def zext {w : Nat} (x : BitVec w) : Word := x.setWidth 128

/-- A number as an XLEN-bit value. -/
def wordOf (x : Nat) : Word := BitVec.ofNat 128 x

/-- `take(k)` at position `p`: the value of `k` bits and the position after them (42_timecode R130). -/
def take (s : State) (p k : Nat) : Except ErrorKind (Nat × Nat) :=
  if s.validBits < p + k then .error .truncatedInput else .ok (Memory.readBits s.buf p k, p + k)

/-- A field that is present only on a condition: not taken otherwise (42_timecode R130). -/
def takeIf (c : Bool) (s : State) (p k : Nat) : Except ErrorKind (Nat × Nat) :=
  if c then take s p k else .ok (0, p)

/-- A result register as an operand: an invalid one is OperandError (10_state R27, 44_host_access R176). -/
def operandF (s : State) (i : BitVec 4) : Except ErrorKind Word :=
  match s.result i with
  | some v => .ok v
  | none => .error .operand

/-- The special registers by GETS selector, zero-extended (10_state R29, 30_encoding R80); 9 to 15 name none. -/
def special (s : State) (sel : BitVec 4) : Option Word :=
  match sel with
  | 0#4 => some (zext s.erracc)
  | 1#4 => some (zext s.cur)
  | 2#4 => some (zext s.len)
  | 3#4 => some (zext s.bcnt)
  | 4#4 => some (zext s.plen)
  | 5#4 => some (zext s.poff)
  | 6#4 => some s.rval
  | 7#4 => some (zext s.fv)
  | 8#4 => some (zext Config.idValue)
  | _ => none

/-- The table OVH by variant code (43_payload R160); 6 and 7 name no variant. -/
def overhead (var : BitVec 3) : Option Word :=
  match var with
  | 0#3 => some 0
  | 1#3 => some 3
  | 2#3 => some 7
  | 3#3 => some 8
  | 4#3 => some 20
  | 5#3 => some 18
  | _ => none

/-- `dl - ovh - cons` in the integers (43_payload R162). -/
def payloadInt (dl ovh : BitVec 16) (cons : BitVec 32) : Int := (dl.toNat : Int) - ovh.toNat - cons.toNat

/-- The payload length, negative being CorruptPacketError (43_payload R162, R163). -/
def payloadLength (dl ovh : BitVec 16) (cons : BitVec 32) : Except ErrorKind Nat :=
  if payloadInt dl ovh cons < 0 then .error .corruptPacket else .ok (payloadInt dl ovh cons).toNat

end Sys2Proof.Machine
end

