-- ==== Sys2Proof/Machine/BitField.lean ====
section
/-! DEFINITION. RDBITS, WRBITS, RDBYTES, WRBYTES (40_bitfield). -/

namespace Sys2Proof.Machine

/-- R101 after its first test: read `n` bits at the cursor. -/
def readField (n : Nat) (s : State) : Effect := do
  raiseIf (n = 0) .encoding
  let (v, p) ← take s s.cur.toNat n
  pure ((s.setRval (wordOf v)).moveTo p, wordOf v)

/-- R104 after its first test: insert `v` as `n` bits at the cursor. -/
def writeField (n : Nat) (v : Word) (s : State) : Effect := do
  raiseIf (capacityBits < s.cur.toNat + n) .operand
  raiseIf (n = 0) .encoding
  raiseIf (2 ^ n ≤ v.toNat) .range
  pure ((s.memWrite s.cur.toNat n v.toNat).moveTo (s.cur.toNat + n), 0)

/-- RDBITS n (40_bitfield R101). -/
def execRdbits (n : BitVec 24) (s : State) : Result :=
  complete s do
    raiseIf (Config.xlen < n.toNat) .operand
    readField n.toNat s

/-- WRBITS n, v (40_bitfield R104). -/
def execWrbits (n : BitVec 24) (v : Word) (s : State) : Result :=
  complete s do
    raiseIf (Config.xlen < n.toNat) .operand
    writeField n.toNat v s

/-- RDBYTES n (40_bitfield R107): RDBITS of `8*n` bits after its own limit. -/
def execRdbytes (n : BitVec 24) (s : State) : Result :=
  complete s do
    raiseIf (Config.xlen / 8 < n.toNat) .operand
    readField (8 * n.toNat) s

/-- WRBYTES n, v (40_bitfield R109): WRBITS of `8*n` bits after its own limit. -/
def execWrbytes (n : BitVec 24) (v : Word) (s : State) : Result :=
  complete s do
    raiseIf (Config.xlen / 8 < n.toNat) .operand
    writeField (8 * n.toNat) v s

end Sys2Proof.Machine
end

