-- ==== Sys2Proof/Machine/HostAccess.lean ====
section
/-! DEFINITION. NOP, BUFWR, BUFRD, SETLEN, SEEK, GETF, SETF, GETS, CLRE (44_host_access). -/

namespace Sys2Proof.Machine

/-- NOP (44_host_access R170). -/
def execNop (s : State) : Result := complete s (.ok (s, 0))

/-- BUFWR idx, byte (44_host_access R171): the whole of V is tested, not its low 8 bits. -/
def execBufwr (idx : BitVec 24) (v : Word) (s : State) : Result :=
  complete s do
    raiseIf (Config.bufBytes ≤ idx.toNat) .operand
    raiseIf (256 ≤ v.toNat) .operand
    pure (s.storeByte idx.toNat (v.extractLsb' 0 8), 0)

/-- BUFRD idx (44_host_access R172). -/
def execBufrd (idx : BitVec 24) (s : State) : Result :=
  complete s do
    raiseIf (s.len.toNat ≤ idx.toNat) .operand
    pure (s, zext (Memory.read s.buf idx.toNat))

/-- SETLEN n (44_host_access R173). -/
def execSetlen (n : BitVec 24) (s : State) : Result :=
  complete s do
    raiseIf (Config.bufBytes < n.toNat) .operand
    pure (s.resize n.toNat, 0)

/-- SEEK pos (44_host_access R174). -/
def execSeek (pos : BitVec 24) (s : State) : Result :=
  complete s do
    raiseIf (capacityBits < pos.toNat) .operand
    pure (s.moveTo pos.toNat, 0)

/-- GETF i (44_host_access R176). -/
def execGetf (i : BitVec 4) (s : State) : Result :=
  complete s do
    let v ← operandF s i
    pure (s, v)

/-- SETF i, v (44_host_access R177). -/
def execSetf (i : BitVec 4) (v : Word) (s : State) : Result :=
  complete s (pure ((s.setF (regSet s.f i v)).setFv (fvSet s.fv i), 0))

/-- GETS sel (44_host_access R178). -/
def execGets (sel : BitVec 4) (s : State) : Result :=
  complete s (match special s sel with
    | some v => .ok (s, v)
    | none => .error .operand)

/-- CLRE (44_host_access R179). -/
def execClre (s : State) : Result := complete s (pure (s.setErracc 0, 0))

end Sys2Proof.Machine
end

