-- ==== Sys2Proof/Machine/Payload.lean ====
section
/-! DEFINITION. OVHD, PAYLEN, PAYEXT (43_payload). -/

namespace Sys2Proof.Machine

/-- OVHD var (43_payload R160). -/
def execOvhd (var : BitVec 3) (s : State) : Result :=
  complete s (match overhead var with
    | some v => .ok (s, v)
    | none => .error .operand)

/-- PAYLEN dl, ovh, cons (43_payload R162). -/
def execPaylen (dl ovh : BitVec 16) (cons : BitVec 32) (s : State) : Result :=
  complete s do
    let len ← payloadLength dl ovh cons
    pure (s.setPlen (BitVec.ofNat 16 len), wordOf len)

/-- PAYEXT dl, ovh, cons (43_payload R163). -/
def execPayext (dl ovh : BitVec 16) (cons : BitVec 32) (s : State) : Result :=
  complete s do
    let len ← payloadLength dl ovh cons
    raiseIf (s.validBits < s.cur.toNat + 8 * len) .truncatedInput
    pure (((s.setPoff s.cur).setPlen (BitVec.ofNat 16 len)).moveTo (s.cur.toNat + 8 * len), wordOf len)

end Sys2Proof.Machine
end

