-- ==== Sys2Proof/Machine/PrimaryHeader.lean ====
section
/-! DEFINITION. PHDEC, PHENC and the 48-bit layout of the primary header (41_primary_header). -/

namespace Sys2Proof.Machine

/-- The seven fields of the header value `H`, by register (41_primary_header R120). -/
def headerFields (h : BitVec 48) : List (BitVec 4 × Word) :=
  [(0, zext (h.extractLsb' 45 3)), (1, zext (h.extractLsb' 44 1)), (2, zext (h.extractLsb' 43 1)),
   (3, zext (h.extractLsb' 32 11)), (4, zext (h.extractLsb' 30 2)), (5, zext (h.extractLsb' 16 14)),
   (6, zext (h.extractLsb' 0 16))]

/-- `{F0[2:0], F1[0], F2[0], F3[10:0], F4[1:0], F5[13:0], F6[15:0]}` (41_primary_header R123). -/
def headerValue (f0 f1 f2 f3 f4 f5 f6 : Word) : BitVec 48 :=
  f0.setWidth 3 ++ f1.setWidth 1 ++ f2.setWidth 1 ++ f3.setWidth 11 ++ f4.setWidth 2 ++ f5.setWidth 14 ++
    f6.setWidth 16

/-- PHDEC (41_primary_header R121). -/
def execPhdec (s : State) : Result :=
  complete s do
    let (h, p) ← take s s.cur.toNat 48
    pure ((s.populate (headerFields (BitVec.ofNat 48 h)) fvHeader).moveTo p, 0)

/-- PHENC (41_primary_header R123). -/
def execPhenc (s : State) : Result :=
  complete s do
    let f0 ← operandF s 0
    let f1 ← operandF s 1
    let f2 ← operandF s 2
    let f3 ← operandF s 3
    let f4 ← operandF s 4
    let f5 ← operandF s 5
    let f6 ← operandF s 6
    raiseIf (capacityBits < s.cur.toNat + 48) .operand
    raiseIf (2 ^ 3 ≤ f0.toNat ∨ 2 ^ 1 ≤ f1.toNat ∨ 2 ^ 1 ≤ f2.toNat ∨ 2 ^ 11 ≤ f3.toNat ∨ 2 ^ 2 ≤ f4.toNat ∨
      2 ^ 14 ≤ f5.toNat ∨ 2 ^ 16 ≤ f6.toNat) .range
    pure ((s.memWrite s.cur.toNat 48 (headerValue f0 f1 f2 f3 f4 f5 f6).toNat).moveTo (s.cur.toNat + 48), 0)

end Sys2Proof.Machine
end

