-- ==== Sys2Proof/Machine/TimeCode.lean ====
section
/-! DEFINITION. The time-code decoder mux: TCDEC.NONE, CUC, CDS, CCS, ASCA, ASCB (42_timecode). -/

namespace Sys2Proof.Machine

/-- The commit of a time-code command: the registers, FV, BCNT and the cursor, responding BCNT (42_timecode R130). -/
def commitTimeCode (s : State) (rs : List (BitVec 4 × Word)) (fv : BitVec 16) (bytes p : Nat) : State × Word :=
  (((s.populate rs fv).setBcnt (BitVec.ofNat 32 bytes)).moveTo p, wordOf bytes)

/-- TCDEC.NONE (42_timecode R131). -/
def execTcdecNone (s : State) : Result :=
  complete s (pure (commitTimeCode s [] 0x0000#16 0 s.cur.toNat))

/-- Bits of the extension byte `hi` places below its top, `w` of them (42_timecode R135). -/
def extensionField (xb : Nat) (hi w : Nat) : Nat := xb / 2 ^ (8 - hi - w) % 2 ^ w

/-- The parts of a CUC time code as taken from the stream (42_timecode R133). -/
structure CucCode where
  ext  : Bool
  tid  : BitVec 3
  bo   : BitVec 2
  fo   : BitVec 2
  ext2 : Nat
  ab   : Nat
  af   : Nat
  rsv  : Nat
  btu  : Nat
  ftu  : Nat
  pos  : Nat
deriving DecidableEq, Repr

/-- The basic-unit width in bytes (42_timecode R133). -/
def cucBasicWidth (c : CucCode) : Nat := c.bo.toNat + 1 + c.ab

/-- The fractional-unit width in bytes (42_timecode R133). -/
def cucFracWidth (c : CucCode) : Nat := c.fo.toNat + 1 + c.af

/-- `bytesConsumed` of a CUC time code (42_timecode R133). -/
def cucBytes (c : CucCode) : Nat := 1 + c.ext.toNat + cucBasicWidth c + cucFracWidth c

/-- The takes of TCDEC.CUC in decode order, under a layout of the extension byte (42_timecode R132, R133, R135). -/
def takeCuc (lay : CucxLayout) (s : State) : Except ErrorKind CucCode := do
  let (pfv, p) ← take s s.cur.toNat 8
  let pf := BitVec.ofNat 8 pfv
  let ext := pf.getLsbD 7
  let bo := pf.extractLsb' 2 2
  let fo := pf.extractLsb' 0 2
  let (xb, p) ← takeIf ext s p 8
  let ab := extensionField xb lay.ext lay.basic
  let af := extensionField xb (lay.ext + lay.basic) lay.frac
  let (btu, p) ← take s p (8 * (bo.toNat + 1 + ab))
  let (ftu, p) ← take s p (8 * (fo.toNat + 1 + af))
  pure { ext := ext, tid := pf.extractLsb' 4 3, bo := bo, fo := fo, ext2 := extensionField xb 0 lay.ext, ab := ab,
         af := af, rsv := extensionField xb (lay.ext + lay.basic + lay.frac) lay.reserved, btu := btu, ftu := ftu,
         pos := p }

/-- The CUC register map (42_timecode R134). Under a layout other than BFC-1's a time unit can be wider than XLEN, the spec is
silent on F8 and F9 there, and the model keeps the low 128 bits (DESIGN CHOICE, unsafe, log entry 18). -/
def cucFields (c : CucCode) : List (BitVec 4 × Word) :=
  [(0, wordOf c.ext.toNat), (1, zext c.tid), (2, zext c.bo), (3, zext c.fo)] ++
  (if c.ext then [(4, wordOf c.ext2), (5, wordOf c.ab), (6, wordOf c.af), (7, wordOf c.rsv)] else []) ++
  [(8, wordOf c.btu), (9, wordOf c.ftu)]

/-- TCDEC.CUC under a layout of the extension byte (42_timecode R133, R135). For a layout that R6 allows but BFC-1 does not
have, such as widths 0, 0, 6, 2, F8 or F9 can be the low 128 bits of a wider unit (DESIGN CHOICE, unsafe, log entry 18). -/
def decodeCuc (lay : CucxLayout) (s : State) : Effect := do
  let c ← takeCuc lay s
  pure (commitTimeCode s (cucFields c) (fvCuc c.ext) (cucBytes c) c.pos)

/-- TCDEC.CUC (42_timecode R133), with BFC-1's layout of the extension byte (log entry 8). -/
def execTcdecCuc (s : State) : Result := complete s (decodeCuc Config.cucxLayout s)

/-- TCDEC.CDS (42_timecode R138, R139). -/
def execTcdecCds (s : State) : Result :=
  complete s do
    let (pfv, p) ← take s s.cur.toNat 8
    let pf := BitVec.ofNat 8 pfv
    let dsl := pf.extractLsb' 2 1
    let ssl := pf.extractLsb' 0 2
    raiseIf (ssl = 3) .encoding
    let dw := 2 + dsl.toNat
    let sw := 2 * ssl.toNat
    let (days, p) ← take s p (8 * dw)
    let (ms, p) ← take s p 32
    let (subms, p) ← takeIf (decide (0 < sw)) s p (8 * sw)
    pure (commitTimeCode s
      ([(0, zext (pf.extractLsb' 7 1)), (1, zext (pf.extractLsb' 4 3)), (2, zext (pf.extractLsb' 3 1)),
        (3, zext dsl), (4, zext ssl), (8, wordOf days), (9, wordOf ms)] ++
       (if 0 < sw then [(10, wordOf subms)] else []))
      (fvCds (decide (0 < sw))) (1 + dw + 4 + sw) p)

/-- TCDEC.CCS (42_timecode R142, R143). -/
def execTcdecCcs (s : State) : Result :=
  complete s do
    let (pfv, p) ← take s s.cur.toNat 8
    let pf := BitVec.ofNat 8 pfv
    let cv := pf.getLsbD 3
    let res := (pf.extractLsb' 0 3).toNat
    let (year, p) ← take s p 16
    let (month, p) ← takeIf (!cv) s p 8
    let (dom, p) ← takeIf (!cv) s p 8
    let (doy, p) ← takeIf cv s p 8
    let (hour, p) ← take s p 8
    let (minute, p) ← take s p 8
    let (second, p) ← take s p 8
    let (subs, p) ← takeIf (decide (0 < res)) s p (8 * res)
    pure (commitTimeCode s
      ([(0, zext (pf.extractLsb' 7 1)), (1, zext (pf.extractLsb' 4 3)), (2, wordOf cv.toNat), (3, wordOf res),
        (8, wordOf year)] ++
       (if cv then [(11, wordOf doy)] else [(9, wordOf month), (10, wordOf dom)]) ++
       [(12, wordOf hour), (13, wordOf minute), (14, wordOf second)] ++
       (if 0 < res then [(15, wordOf subs)] else []))
      (fvCcs cv (decide (0 < res))) (6 + res + (if cv then 1 else 2)) p)

/-- The ASCII variants measure a fixed part, `dec` decimal bytes and an optional terminator (42_timecode R146 to R148). -/
def measureAscii (fixed : Nat) (dec : BitVec 16) (term : Bool) (s : State) : Effect := do
  let total := fixed + dec.toNat + term.toNat
  raiseIf (s.validBits < s.cur.toNat + 8 * total) .truncatedInput
  pure (commitTimeCode s
    ([(8, zext s.cur), (9, wordOf fixed), (10, wordOf (s.cur.toNat + 8 * fixed)), (11, zext dec)] ++
     (if term then [(12, wordOf (Memory.readBits s.buf (s.cur.toNat + 8 * (fixed + dec.toNat)) 8))] else []))
    (fvAscii term) total (s.cur.toNat + 8 * total))

/-- TCDEC.ASCA dec, term (42_timecode R148): the fixed part has 20 bytes. -/
def execTcdecAsca (dec : BitVec 16) (term : Bool) (s : State) : Result := complete s (measureAscii 20 dec term s)

/-- TCDEC.ASCB dec, term (42_timecode R149): the fixed part has 18 bytes. -/
def execTcdecAscb (dec : BitVec 16) (term : Bool) (s : State) : Result := complete s (measureAscii 18 dec term s)

end Sys2Proof.Machine
end

