-- ==== Sys2Proof/Machine/Dispatch.lean ====
section
/-! DEFINITION. The meaning of every command, one arm per constructor of Instr. -/

namespace Sys2Proof.Machine

def exec (i : Instr) (s : State) : Host.Outcome State Fault Refusal :=
  match i with
  | .nop => Sys2Proof.Machine.execNop s
  | .rdbits n => Sys2Proof.Machine.execRdbits n s
  | .wrbits n v => Sys2Proof.Machine.execWrbits n v s
  | .rdbytes n => Sys2Proof.Machine.execRdbytes n s
  | .wrbytes n v => Sys2Proof.Machine.execWrbytes n v s
  | .phdec => Sys2Proof.Machine.execPhdec s
  | .phenc => Sys2Proof.Machine.execPhenc s
  | .tcdecNone => Sys2Proof.Machine.execTcdecNone s
  | .tcdecCuc => Sys2Proof.Machine.execTcdecCuc s
  | .tcdecCds => Sys2Proof.Machine.execTcdecCds s
  | .tcdecCcs => Sys2Proof.Machine.execTcdecCcs s
  | .tcdecAsca dec term => Sys2Proof.Machine.execTcdecAsca dec term s
  | .tcdecAscb dec term => Sys2Proof.Machine.execTcdecAscb dec term s
  | .ovhd var => Sys2Proof.Machine.execOvhd var s
  | .paylen dl ovh cons => Sys2Proof.Machine.execPaylen dl ovh cons s
  | .payext dl ovh cons => Sys2Proof.Machine.execPayext dl ovh cons s
  | .bufwr idx v => Sys2Proof.Machine.execBufwr idx v s
  | .bufrd idx => Sys2Proof.Machine.execBufrd idx s
  | .setlen n => Sys2Proof.Machine.execSetlen n s
  | .seek pos => Sys2Proof.Machine.execSeek pos s
  | .getf k => Sys2Proof.Machine.execGetf k s
  | .setf k v => Sys2Proof.Machine.execSetf k v s
  | .gets sel => Sys2Proof.Machine.execGets sel s
  | .clre => Sys2Proof.Machine.execClre s

end Sys2Proof.Machine
end

