-- ==== Sys2Proof/Machine/Step.lean ====
section
/-! DEFINITION. One step of the machine: the oldest input of the host is taken and carried out (70_reset R225, 10_state R20). -/

namespace Sys2Proof.Machine

/-- With a command presented, the step decodes and executes it, an illegal one being OperandError (30_encoding R77);
with a reset, it resets (70_reset R220); with nothing, the block idles (60_exceptions R206). -/
def step (s : State) : Host.Outcome State Fault Refusal :=
  match s.inputs with
  | [] => .next (idle s)
  | .reset :: later => .next (applyReset later)
  | .command c v :: later =>
    match decode c v with
    | .ok i => exec i (s.setInputs later)
    | .error _ => .next (raise .operand (s.setInputs later))

/-- `s` with a command, given as one number, presented before every input still to come (log entry 3). -/
def State.withFetchWord (s : State) (nbits w : Nat) : State :=
  presentCommand s (controlOfNat nbits w) (dataOfNat nbits w)

end Sys2Proof.Machine
end

