-- ==== Sys2Proof/Safety.lean ====
section
/-! DEFINITION. The terms in which statements about the machine are made: stream bits as the spec writes them, what a step keeps, the invariant, what the host can see, which command can raise which error. -/

namespace Sys2Proof.Machine

/-- `sbit(q) = (BUF[q div 8] >> (7 - q mod 8)) mod 2` (00_scope R10). -/
def streamBit (s : State) (q : Nat) : Nat := (Memory.read s.buf (q / 8)).toNat / 2 ^ (7 - q % 8) % 2

/-- `MemRead(q, n)` as the spec writes it: the sum over `i` of `sbit(q+i) * 2^(n-1-i)` (20_memory R52). -/
def streamField (s : State) (q n : Nat) : Nat := ∑ i ∈ Finset.range n, streamBit s (q + i) * 2 ^ (n - 1 - i)

/-- A success response with value `v` (60_exceptions R195). -/
def Responds (t : State) (v : Word) : Prop := t.rsp = some { err := none, val := v }

/-- The command executes successfully: it answers a next state whose response has `rsp_err = 0`. -/
def Succeeds (i : Instr) (s t : State) : Prop := exec i s = .next t ∧ ∃ v, Responds t v

/-- The command is aborted with kind `e`. -/
def Aborts (i : Instr) (s : State) (e : ErrorKind) : Prop := exec i s = .next (raise e s)

/-- The pieces of state a step can change. -/
inductive Part where
  | buf | len | cur | f | fv | erracc | bcnt | plen | poff | rval | rsp | inputs
deriving DecidableEq, Repr

/-- A piece of state is the same in two states; the buffer is compared byte by byte. -/
def Part.same : Part → State → State → Prop
  | .buf, s, t => ∀ a, Memory.read t.buf a = Memory.read s.buf a
  | .len, s, t => t.len = s.len
  | .cur, s, t => t.cur = s.cur
  | .f, s, t => ∀ i, regGet t.f i = regGet s.f i
  | .fv, s, t => t.fv = s.fv
  | .erracc, s, t => t.erracc = s.erracc
  | .bcnt, s, t => t.bcnt = s.bcnt
  | .plen, s, t => t.plen = s.plen
  | .poff, s, t => t.poff = s.poff
  | .rval, s, t => t.rval = s.rval
  | .rsp, s, t => t.rsp = s.rsp
  | .inputs, s, t => t.inputs = s.inputs

/-- The frame: every piece of state that is not listed is unchanged. -/
def KeepsAllBut (ps : List Part) (s t : State) : Prop := ∀ p, p ∉ ps → p.same s t

/-- Exactly the listed result registers hold a value, the listed one (10_state R27). -/
def HoldsExactly (t : State) (vals : List (BitVec 4 × Nat)) : Prop := ∀ i, t.result i = (vals.lookup i).map wordOf

/-- `t` is `s` after `MemWrite(q, n, v)` (20_memory R54): LEN grown to cover the field, the field's bits inserted, every
other stream bit cleared if its byte was brought inside LEN and kept otherwise; and the same of every byte that holds no bit
of the field. -/
def Inserts (s t : State) (q n v : Nat) : Prop :=
  t.len.toNat = max s.len.toNat ((q + n + 7) / 8) ∧
  (∀ i < n, streamBit t (q + i) = v / 2 ^ (n - 1 - i) % 2) ∧
  (∀ p, p < q ∨ q + n ≤ p →
    streamBit t p = if s.len.toNat ≤ p / 8 ∧ p / 8 < (q + n + 7) / 8 then 0 else streamBit s p) ∧
  (∀ a, a < q / 8 ∨ (q + n - 1) / 8 < a →
    Memory.read t.buf a = if s.len.toNat ≤ a ∧ a < (q + n + 7) / 8 then 0 else Memory.read s.buf a)

/-- Control words of opcode `op` whose short operand is `lo` or more are illegal encodings. -/
def RejectsOperandFrom (op lo : Nat) : Prop :=
  ∀ (c : ControlWord) (v : Word), c.toNat / 2 ^ 24 = op → lo ≤ c.toNat % 2 ^ 24 → ∃ e, decode c v = .error e

/-- The invariants of 10_state R30 that the widths of the fields do not already give, and the canonical form of the buffer. -/
def State.Inv (s : State) : Prop :=
  s.len.toNat ≤ Config.bufBytes ∧ s.cur.toNat ≤ 8 * Config.bufBytes ∧ s.poff.toNat ≤ 8 * Config.bufBytes ∧
    Memory.wf s.buf ∧ ∀ c ∈ s.buf, c.1 < Config.bufBytes

/-- Two states the host cannot tell apart (10_state R22, R24, R26, R27): they agree on all but the bytes at and above LEN
and the contents of invalid result registers. -/
def SameVisible (s t : State) : Prop :=
  KeepsAllBut [.buf, .f] s t ∧ (∀ a < s.len.toNat, Memory.read t.buf a = Memory.read s.buf a) ∧
    ∀ i, t.result i = s.result i

/-- The matrix of 60_exceptions R194: which command can raise which error. -/
def canRaise : Instr → ErrorKind → Bool
  | .nop, e | .clre, e | .tcdecNone, e | .ovhd _, e => e == .operand
  | .rdbits _, e | .rdbytes _, e => e == .truncatedInput || e == .encoding || e == .operand
  | .wrbits _ _, e | .wrbytes _ _, e => e == .range || e == .encoding || e == .operand
  | .phdec, e => e == .truncatedInput || e == .operand
  | .phenc, e => e == .range || e == .operand
  | .tcdecCuc, e | .tcdecCcs, e => e == .truncatedInput || e == .operand
  | .tcdecCds, e => e == .truncatedInput || e == .encoding || e == .operand
  | .tcdecAsca _ _, e | .tcdecAscb _ _, e => e == .truncatedInput || e == .operand
  | .paylen _ _ _, e => e == .corruptPacket || e == .operand
  | .payext _ _ _, e => e == .truncatedInput || e == .corruptPacket || e == .operand
  | .bufwr _ _, e | .bufrd _, e | .setlen _, e | .seek _, e => e == .operand
  | .getf _, e | .setf _ _, e | .gets _, e => e == .operand

/-- The six variants of opcode 0x20 (30_encoding R75). -/
def isTimeCode : Instr → Bool
  | .tcdecNone | .tcdecCuc | .tcdecCds | .tcdecCcs | .tcdecAsca _ _ | .tcdecAscb _ _ => true
  | .nop | .rdbits _ | .wrbits _ _ | .rdbytes _ | .wrbytes _ _ | .phdec | .phenc | .ovhd _ | .paylen _ _ _
  | .payext _ _ _ | .bufwr _ _ | .bufrd _ | .setlen _ | .seek _ | .getf _ | .setf _ _ | .gets _ | .clre => false

/-- The nine commands of 44_host_access. -/
def isHostAccess : Instr → Bool
  | .nop | .bufwr _ _ | .bufrd _ | .setlen _ | .seek _ | .getf _ | .setf _ _ | .gets _ | .clre => true
  | .rdbits _ | .wrbits _ _ | .rdbytes _ | .wrbytes _ _ | .phdec | .phenc | .tcdecNone | .tcdecCuc | .tcdecCds
  | .tcdecCcs | .tcdecAsca _ _ | .tcdecAscb _ _ | .ovhd _ | .paylen _ _ _ | .payext _ _ _ => false

/-- The commands that write BUF or LEN (10_state R22, R23). -/
def writesBuffer : Instr → Bool
  | .wrbits _ _ | .wrbytes _ _ | .phenc | .bufwr _ _ | .setlen _ => true
  | .nop | .rdbits _ | .rdbytes _ | .phdec | .tcdecNone | .tcdecCuc | .tcdecCds | .tcdecCcs | .tcdecAsca _ _
  | .tcdecAscb _ _ | .ovhd _ | .paylen _ _ _ | .payext _ _ _ | .bufrd _ | .seek _ | .getf _ | .setf _ _ | .gets _
  | .clre => false

/-- The commands whose format has an operand in V (30_encoding R71: NV, P, and SETF). -/
def usesData : Instr → Bool
  | .wrbits _ _ | .wrbytes _ _ | .bufwr _ _ | .setf _ _ | .paylen _ _ _ | .payext _ _ _ => true
  | .nop | .rdbits _ | .rdbytes _ | .phdec | .phenc | .tcdecNone | .tcdecCuc | .tcdecCds | .tcdecCcs | .tcdecAsca _ _
  | .tcdecAscb _ _ | .ovhd _ | .bufrd _ | .setlen _ | .seek _ | .getf _ | .gets _ | .clre => false

/-- The nineteen assigned opcodes (30_encoding R74). -/
def assignedOpcodes : List Nat :=
  [0x00, 0x01, 0x02, 0x03, 0x04, 0x10, 0x11, 0x20, 0x30, 0x31, 0x32, 0x40, 0x41, 0x42, 0x43, 0x44, 0x45, 0x46, 0x47]

/-- The illegal encodings of 30_encoding R72 and R77, on the numbers `op = C[31:24]`, `a = C[23:0]` and `V`. -/
def illegalFields (op a v : Nat) : Prop :=
  op ∉ assignedOpcodes ∨
  (op ∈ [0x00, 0x10, 0x11, 0x47, 0x31, 0x32] ∧ a ≠ 0) ∨
  (op ∈ [0x31, 0x32] ∧ v / 2 ^ 64 ≠ 0) ∨
  (op = 0x20 ∧ (a / 2 ^ 4 % 2 ^ 4 ≠ 0 ∨ 6 ≤ a % 8 ∨ (a % 8 < 4 ∧ (a / 2 ^ 3 % 2 ≠ 0 ∨ a / 2 ^ 8 ≠ 0)))) ∨
  (op = 0x30 ∧ (a / 2 ^ 3 ≠ 0 ∨ 6 ≤ a % 8)) ∨
  (op ∈ [0x44, 0x45, 0x46] ∧ a / 2 ^ 4 ≠ 0) ∨
  (op = 0x46 ∧ 9 ≤ a % 16)

/-- The pair (C, V) is an illegal encoding (30_encoding R77). -/
def illegal (c : ControlWord) (v : Word) : Prop := illegalFields (c.toNat / 2 ^ 24) (c.toNat % 2 ^ 24) v.toNat

end Sys2Proof.Machine
end

