-- ==== Sys2Proof/Certificates/Slice0/Obligations.lean ====
section
/-! DEFINITION. The statements about BFC-1, each from the numbered rules its docstring cites. -/

open Sys2Proof Sys2Proof.Machine

/-! ### Encoding -/

/-- A command presented on the port is executed as the instruction the decoder reads from its pair (C, V), on the state
without that input (70_reset R225, 30_encoding R70). The inputs are the model's own field (log entry 3). -/
def Obligations.StepRunsDecodedCommand : Prop :=
  ∀ (s : State) (c : ControlWord) (v : Word) (later : List HostInput) (i : Instr),
    s.inputs = .command c v :: later → decode c v = .ok i → step s = exec i (s.setInputs later)

/-- 30_encoding R77 and R72: the decoder is total, rejects exactly the illegal encodings, reads exactly one row of the map
from every other pair, and an illegal command raises OperandError with no other effect. -/
def Obligations.IllegalCommandRaisesOperandError : Prop :=
  (∀ (c : ControlWord) (v : Word), illegal c v ↔ ∃ e, decode c v = .error e) ∧
  (∀ (c : ControlWord) (v : Word), ¬ illegal c v → ∃ i, decode c v = .ok i ∧ i.wellFormed = true ∧
    i.row ∈ opcodeRows ∧ selectsRow c i.row = true ∧ ∀ r ∈ opcodeRows, selectsRow c r = true → r = i.row) ∧
  (∀ (s : State) (c : ControlWord) (v : Word) (later : List HostInput),
    s.inputs = .command c v :: later → illegal c v → step s = .next (raise .operand (s.setInputs later)))

/-- Every command decodes back from its words (30_encoding R71, R73, R79): no operand bit is dropped. -/
def Obligations.EncodedCommandDecodesBack : Prop :=
  ∀ i : Instr, i.wellFormed = true → decode (encode i).1 (encode i).2 = .ok i

/-- A decoded command accounts for every bit of its words: C is its control word, V is its data operand when its format has
one, and otherwise any V decodes to it (30_encoding R70 to R72). -/
def Obligations.DecodedCommandAccountsForEveryBit : Prop :=
  ∀ (c : ControlWord) (v : Word) (i : Instr), decode c v = .ok i →
    i.wellFormed = true ∧ encodeControl i = c ∧ (usesData i = true → i.dataOperand = v) ∧
    (usesData i = false → ∀ v', decode c v' = .ok i)

/-- Words written out from 30_encoding R79, 43_payload R162 and 42_timecode R149 decode to the commands they stand for. -/
def Obligations.WrittenOutWordsDecode : Prop :=
  decode 0x2000030C#32 0 = .ok (.tcdecAsca 3 true) ∧
  decode 0x32000000#32 0x0000001700140036#128 = .ok (.payext 54 20 23) ∧
  decode 0x2000030D#32 0 = .ok (.tcdecAscb 3 true) ∧
  decode 0x43000030#32 0 = .ok (.seek 48) ∧
  decode 0x45000003#32 0x3FF#128 = .ok (.setf 3 0x3FF) ∧
  decode 0x30000003#32 0 = .ok (.ovhd 3) ∧
  decode 0x0200000B#32 0x3FF#128 = .ok (.wrbits 11 0x3FF) ∧
  decode 0x10000000#32 0 = .ok .phdec

/-! ### Reset, the port, errors -/

/-- The reset state (10_state R32, 70_reset R220): BUF and F are unobservable in it, and ID reads as its constant. That no
response is present is the model's field rsp (DEDUCED, log entry 4). -/
def Obligations.ResetStateHoldsSpecValues : Prop :=
  State.reset.len = 0 ∧ State.reset.cur = 0 ∧ State.reset.fv = 0 ∧ State.reset.erracc = 0 ∧ State.reset.bcnt = 0 ∧
  State.reset.plen = 0 ∧ State.reset.poff = 0 ∧ State.reset.rval = 0 ∧ State.reset.rsp = none ∧
  State.reset.errAny = false ∧ special State.reset 8 = some 0x42464301#128 ∧
  (∀ i, State.reset.result i = none) ∧ (∀ idx, Aborts (.bufrd idx) State.reset .operand)

/-- A reset input leaves the reset state, whatever the state was; the host's later inputs are still to come (70_reset R220;
that a reset is taken between commands is log entry 6, what BUF and F hold is log entries 1 and 2). -/
def Obligations.ResetInputGivesResetState : Prop :=
  ∀ (s : State) (later : List HostInput), s.inputs = .reset :: later →
    step s = .next (State.reset.setInputs later)

/-- With nothing presented the block keeps its state and gives no response (60_exceptions R206, 70_reset R226; log entry 5). -/
def Obligations.IdleBlockKeepsState : Prop :=
  ∀ s : State, s.inputs = [] → ∃ t, step s = .next t ∧ t.rsp = none ∧ KeepsAllBut [.rsp] s t

/-- From reset (70_reset R221): the reads truncate, the invalid registers and bytes are OperandError, the special registers
read as 0 and ID as its constant. The spec derives it from other rules. -/
def Obligations.FirstCommandAfterReset : Prop :=
  (∀ n : BitVec 24, 1 ≤ n.toNat → n.toNat ≤ 128 → Aborts (.rdbits n) State.reset .truncatedInput) ∧
  Aborts .phdec State.reset .truncatedInput ∧ Aborts .tcdecCuc State.reset .truncatedInput ∧
  Aborts .tcdecCds State.reset .truncatedInput ∧ Aborts .tcdecCcs State.reset .truncatedInput ∧
  (∀ dec term, Aborts (.tcdecAsca dec term) State.reset .truncatedInput) ∧
  (∀ dec term, Aborts (.tcdecAscb dec term) State.reset .truncatedInput) ∧
  (∀ i, Aborts (.getf i) State.reset .operand) ∧ Aborts .phenc State.reset .operand ∧
  Aborts (.bufrd 0) State.reset .operand ∧
  (∀ sel : BitVec 4, sel.toNat < 8 → ∃ t, exec (.gets sel) State.reset = .next t ∧ Responds t 0) ∧
  (∃ t, exec (.gets 8) State.reset = .next t ∧ Responds t 0x42464301#128)

/-- 60_exceptions R196: a command that raises changes no architectural state except ERRACC. The other pieces listed are the
response and the model's own inputs, from which the command is taken. -/
def Obligations.FailingCommandChangesOnlyErracc : Prop :=
  ∀ (s t : State) (c : ControlWord) (v val : Word) (later : List HostInput) (e : ErrorKind),
    s.inputs = .command c v :: later → step s = .next t → t.rsp = some { err := some e, val := val } →
    KeepsAllBut [.erracc, .rsp, .inputs] s t

/-- 60_exceptions R197: an error sets bit `code - 1` of ERRACC and keeps the others, and no successful command changes ERRACC
except CLRE, which clears it. -/
def Obligations.ErraccIsSticky : Prop :=
  ∀ (i : Instr) (s t : State), exec i s = .next t →
    (∀ e v, t.rsp = some { err := some e, val := v } →
      ∀ k : Nat, t.erracc.getLsbD k = (s.erracc.getLsbD k || decide (k + 1 = e.code.toNat))) ∧
    (∀ v, t.rsp = some { err := none, val := v } → i ≠ .clre → t.erracc = s.erracc) ∧
    (i = .clre → t.erracc = 0)

/-- 60_exceptions R191: the codes of the five error kinds and their bits of ERRACC; `rsp_err` is 0 for success alone and never
above 5. -/
def Obligations.ErrorCodesAndMaskBits : Prop :=
  [ErrorKind.truncatedInput, .range, .corruptPacket, .encoding, .operand].map ErrorKind.code = [1, 2, 3, 4, 5] ∧
  [ErrorKind.truncatedInput, .range, .corruptPacket, .encoding, .operand].map ErrorKind.mask =
    [0x01, 0x02, 0x04, 0x08, 0x10] ∧
  ∀ r : Response, r.errCode.toNat ≤ 5 ∧ (r.errCode = 0 ↔ r.err = none)

/-- Every accepted command gives exactly one response, with value 0 on an error and no code above 5, and the block is then
ready for the host's next input (60_exceptions R191, R195, R201, R204). -/
def Obligations.EveryCommandGetsOneResponse : Prop :=
  ∀ (s : State) (c : ControlWord) (v : Word) (later : List HostInput), s.inputs = .command c v :: later →
    ∃ t r, step s = .next t ∧ t.rsp = some r ∧ t.inputs = later ∧ r.errCode.toNat ≤ 5 ∧
      (r.errCode ≠ 0 → r.val = 0)

/-- No command raises a code that the matrix of 60_exceptions R194 leaves blank, for every operand and state. The spec derives it from other rules. -/
def Obligations.ErrorsStayInsideMatrix : Prop :=
  ∀ (i : Instr) (s t : State) (e : ErrorKind) (v : Word), exec i s = .next t →
    t.rsp = some { err := some e, val := v } → canRaise i e = true

/-- OperandError never depends on the content of BUF (60_exceptions R193). -/
def Obligations.OperandErrorIgnoresBufferContent : Prop :=
  ∀ (s t t' : State) (m : List Host.Cell), step s = .next t → step (s.setBuf m) = .next t' →
    ((∃ v, t.rsp = some { err := some .operand, val := v }) ↔ ∃ v, t'.rsp = some { err := some .operand, val := v })

/-- The level err_any is `ERRACC != 0` and falls only on CLRE or reset (60_exceptions R198). -/
def Obligations.ErrAnyFallsOnlyOnClearOrReset : Prop :=
  (∀ s : State, s.errAny = true ↔ s.erracc ≠ 0) ∧
  ∀ s t : State, step s = .next t → s.errAny = true → t.errAny = false →
    (∃ later, s.inputs = .reset :: later) ∨ ∃ c v later, s.inputs = .command c v :: later ∧ decode c v = .ok .clre

/-! ### Invariant and what the host can see -/

/-- Reset establishes the invariant (10_state R30); the canonical form is the model's own. The spec derives it from other rules. -/
def Obligations.ResetMeetsInvariant : Prop := State.reset.Inv

/-- Every step keeps the invariant (10_state R30), from every state that meets it. The spec derives it from other rules. -/
def Obligations.StepKeepsInvariant : Prop :=
  ∀ s t : State, s.Inv → step s = .next t → t.Inv

/-- No unspecified value is ever observable (10_state R22, R24, R26, R27): states that differ only in bytes at and above LEN
and in invalid result registers answer every input alike, and still differ only there. The spec derives it from other rules. -/
def Obligations.UnspecifiedStateIsUnobservable : Prop :=
  ∀ s s' t : State, SameVisible s s' → step s = .next t → ∃ t', step s' = .next t' ∧ SameVisible t t'

/-- Only WRBITS, WRBYTES, PHENC, BUFWR and SETLEN change BUF or LEN (10_state R22, R23). -/
def Obligations.OnlyStoresChangeTheBuffer : Prop :=
  ∀ (i : Instr) (s t : State), writesBuffer i = false → exec i s = .next t →
    t.len = s.len ∧ ∀ a, Memory.read t.buf a = Memory.read s.buf a

/-- Every decode command that succeeds writes FV as a whole, and no other command but SETF touches F or FV (10_state R27, R28). The spec derives it from other rules. -/
def Obligations.DecodesRewriteTheValidMask : Prop :=
  ∀ (i : Instr) (s t : State), Succeeds i s t →
    match i with
    | .phdec => t.fv = 0x007F#16
    | .tcdecNone => t.fv = 0x0000#16
    | .tcdecCuc => t.fv = if streamField s s.cur.toNat 1 = 1 then 0x03FF#16 else 0x030F#16
    | .tcdecCds => t.fv = if streamField s (s.cur.toNat + 6) 2 = 0 then 0x031F#16 else 0x071F#16
    | .tcdecCcs => t.fv = 0x710F#16 ||| (if streamField s (s.cur.toNat + 4) 1 = 0 then 0x0600#16 else 0x0800#16) |||
        (if streamField s (s.cur.toNat + 5) 3 = 0 then 0#16 else 0x8000#16)
    | .tcdecAsca _ term => t.fv = if term then 0x1F00#16 else 0x0F00#16
    | .tcdecAscb _ term => t.fv = if term then 0x1F00#16 else 0x0F00#16
    | .setf k _ => ∀ j, fvValid t.fv j = (decide (j = k) || fvValid s.fv j)
    | _ => t.fv = s.fv ∧ ∀ j, regGet t.f j = regGet s.f j

/-! ### Bit-field primitives -/

/-- 40_bitfield R101, RDBITS n: its encoding, its errors in test order, its result and its frame. -/
def Obligations.RdbitsReadsField : Prop :=
  ∀ (n : BitVec 24) (s : State),
    (∀ v, decode (0x01000000#32 ||| n.setWidth 32) v = .ok (.rdbits n)) ∧
    (128 < n.toNat → Aborts (.rdbits n) s .operand) ∧
    (n.toNat = 0 → Aborts (.rdbits n) s .encoding) ∧
    (0 < n.toNat → n.toNat ≤ 128 → 8 * s.len.toNat < s.cur.toNat + n.toNat → Aborts (.rdbits n) s .truncatedInput) ∧
    (0 < n.toNat → n.toNat ≤ 128 → s.cur.toNat + n.toNat ≤ 8 * s.len.toNat →
      ∃ t, exec (.rdbits n) s = .next t ∧ t.rval.toNat = streamField s s.cur.toNat n.toNat ∧ Responds t t.rval ∧
        t.cur.toNat = s.cur.toNat + n.toNat ∧ KeepsAllBut [.rval, .cur, .rsp] s t)

/-- 40_bitfield R102, the consumption law: a read moves the cursor by its count, and two reads return the high and low parts
of one read of the sum of their counts. The spec derives it from other rules. -/
def Obligations.SuccessiveReadsCompose : Prop :=
  ∀ (n₁ n₂ n : BitVec 24) (s t₁ t₂ : State), n.toNat = n₁.toNat + n₂.toNat → n.toNat ≤ 128 →
    Succeeds (.rdbits n₁) s t₁ → Succeeds (.rdbits n₂) t₁ t₂ →
    t₁.cur.toNat = s.cur.toNat + n₁.toNat ∧
    ∃ t, Succeeds (.rdbits n) s t ∧ t.rval.toNat = t₁.rval.toNat * 2 ^ n₂.toNat + t₂.rval.toNat ∧ t.cur = t₂.cur

/-- 40_bitfield R104, WRBITS n, v: its encoding, its errors in test order, its insertion and its frame. -/
def Obligations.WrbitsInsertsField : Prop :=
  ∀ (n : BitVec 24) (v : Word) (s : State),
    decode (0x02000000#32 ||| n.setWidth 32) v = .ok (.wrbits n v) ∧
    (128 < n.toNat ∨ 8 * Config.bufBytes < s.cur.toNat + n.toNat → Aborts (.wrbits n v) s .operand) ∧
    (n.toNat = 0 → s.cur.toNat ≤ 8 * Config.bufBytes → Aborts (.wrbits n v) s .encoding) ∧
    (0 < n.toNat → n.toNat ≤ 128 → s.cur.toNat + n.toNat ≤ 8 * Config.bufBytes → 2 ^ n.toNat ≤ v.toNat →
      Aborts (.wrbits n v) s .range) ∧
    (0 < n.toNat → n.toNat ≤ 128 → s.cur.toNat + n.toNat ≤ 8 * Config.bufBytes → v.toNat < 2 ^ n.toNat →
      ∃ t, exec (.wrbits n v) s = .next t ∧ Inserts s t s.cur.toNat n.toNat v.toNat ∧ Responds t 0 ∧
        t.cur.toNat = s.cur.toNat + n.toNat ∧ KeepsAllBut [.buf, .len, .cur, .rsp] s t)

/-- 40_bitfield R105, the inverse law, both ways; the second needs the buffer to be within its capacity (10_state R30). The spec derives it from other rules. -/
def Obligations.WriteAndReadAreInverse : Prop :=
  (∀ (n : BitVec 24) (v : Word) (s t : State), Succeeds (.wrbits n v) s t →
    streamField t s.cur.toNat n.toNat = v.toNat ∧
    ∃ u w, Succeeds (.seek s.cur) t u ∧ exec (.rdbits n) u = .next w ∧ Responds w v) ∧
  (∀ (n : BitVec 24) (s t : State), s.Inv → Succeeds (.rdbits n) s t →
    ∃ u w, Succeeds (.seek s.cur) t u ∧ Succeeds (.wrbits n t.rval) u w ∧ w.len = s.len ∧
      ∀ a, Memory.read w.buf a = Memory.read s.buf a)

/-- 40_bitfield R107, RDBYTES n: its encoding, its errors in test order, its result as stream bits and, at an aligned cursor,
as bytes, and its frame. -/
def Obligations.RdbytesReadsWholeBytes : Prop :=
  ∀ (n : BitVec 24) (s : State),
    (∀ v, decode (0x03000000#32 ||| n.setWidth 32) v = .ok (.rdbytes n)) ∧
    (16 < n.toNat → Aborts (.rdbytes n) s .operand) ∧
    (n.toNat = 0 → Aborts (.rdbytes n) s .encoding) ∧
    (0 < n.toNat → n.toNat ≤ 16 → 8 * s.len.toNat < s.cur.toNat + 8 * n.toNat →
      Aborts (.rdbytes n) s .truncatedInput) ∧
    (0 < n.toNat → n.toNat ≤ 16 → s.cur.toNat + 8 * n.toNat ≤ 8 * s.len.toNat →
      ∃ t, exec (.rdbytes n) s = .next t ∧ t.rval.toNat = streamField s s.cur.toNat (8 * n.toNat) ∧
        (s.cur.toNat % 8 = 0 → t.rval.toNat = ∑ j ∈ Finset.range n.toNat,
          (Memory.read s.buf (s.cur.toNat / 8 + j)).toNat * 256 ^ (n.toNat - 1 - j)) ∧
        Responds t t.rval ∧ t.cur.toNat = s.cur.toNat + 8 * n.toNat ∧ KeepsAllBut [.rval, .cur, .rsp] s t)

/-- 40_bitfield R109, WRBYTES n, v: its encoding, its errors in test order, its insertion and its frame. -/
def Obligations.WrbytesInsertsWholeBytes : Prop :=
  ∀ (n : BitVec 24) (v : Word) (s : State),
    decode (0x04000000#32 ||| n.setWidth 32) v = .ok (.wrbytes n v) ∧
    (16 < n.toNat ∨ 8 * Config.bufBytes < s.cur.toNat + 8 * n.toNat → Aborts (.wrbytes n v) s .operand) ∧
    (n.toNat = 0 → s.cur.toNat ≤ 8 * Config.bufBytes → Aborts (.wrbytes n v) s .encoding) ∧
    (0 < n.toNat → n.toNat ≤ 16 → s.cur.toNat + 8 * n.toNat ≤ 8 * Config.bufBytes → 2 ^ (8 * n.toNat) ≤ v.toNat →
      Aborts (.wrbytes n v) s .range) ∧
    (0 < n.toNat → n.toNat ≤ 16 → s.cur.toNat + 8 * n.toNat ≤ 8 * Config.bufBytes → v.toNat < 2 ^ (8 * n.toNat) →
      ∃ t, exec (.wrbytes n v) s = .next t ∧ Inserts s t s.cur.toNat (8 * n.toNat) v.toNat ∧ Responds t 0 ∧
        t.cur.toNat = s.cur.toNat + 8 * n.toNat ∧ KeepsAllBut [.buf, .len, .cur, .rsp] s t)

/-- Writing the same value at the same position twice leaves the same state as writing it once (20_memory R57). -/
def Obligations.SecondWriteOfSameFieldChangesNothing : Prop :=
  ∀ (n : BitVec 24) (v : Word) (s t : State), Succeeds (.wrbits n v) s t →
    ∃ u w, Succeeds (.seek s.cur) t u ∧ Succeeds (.wrbits n v) u w ∧ KeepsAllBut [] t w

/-! ### Primary header -/

/-- 41_primary_header R121, PHDEC: its encoding, its error, the seven fields at their places in the stream (R120), FV and its
frame; every other result register becomes invalid. -/
def Obligations.PhdecUnpacksHeader : Prop :=
  (∀ v, decode 0x10000000#32 v = .ok .phdec) ∧ RejectsOperandFrom 0x10 1 ∧
  ∀ s : State,
    (8 * s.len.toNat < s.cur.toNat + 48 → Aborts .phdec s .truncatedInput) ∧
    (s.cur.toNat + 48 ≤ 8 * s.len.toNat → ∃ t, exec .phdec s = .next t ∧ Responds t 0 ∧
      HoldsExactly t [(0, streamField s s.cur.toNat 3), (1, streamField s (s.cur.toNat + 3) 1),
        (2, streamField s (s.cur.toNat + 4) 1), (3, streamField s (s.cur.toNat + 5) 11),
        (4, streamField s (s.cur.toNat + 16) 2), (5, streamField s (s.cur.toNat + 18) 14),
        (6, streamField s (s.cur.toNat + 32) 16)] ∧
      t.fv = 0x007F#16 ∧ t.cur.toNat = s.cur.toNat + 48 ∧ KeepsAllBut [.f, .fv, .cur, .rsp] s t)

/-- 41_primary_header R123, PHENC: its encoding, its errors in test order, the 48 bits it inserts and its frame. -/
def Obligations.PhencPacksHeader : Prop :=
  (∀ v, decode 0x11000000#32 v = .ok .phenc) ∧ RejectsOperandFrom 0x11 1 ∧
  ∀ s : State,
    let F : BitVec 4 → Nat := fun i => (regGet s.f i).toNat
    let allValid : Prop := ∀ i : BitVec 4, i.toNat < 7 → fvValid s.fv i = true
    let inRange : Prop := F 0 < 2 ^ 3 ∧ F 1 < 2 ^ 1 ∧ F 2 < 2 ^ 1 ∧ F 3 < 2 ^ 11 ∧ F 4 < 2 ^ 2 ∧ F 5 < 2 ^ 14 ∧ F 6 < 2 ^ 16
    let H : Nat := F 0 * 2 ^ 45 + F 1 * 2 ^ 44 + F 2 * 2 ^ 43 + F 3 * 2 ^ 32 + F 4 * 2 ^ 30 + F 5 * 2 ^ 16 + F 6
    (¬ allValid → Aborts .phenc s .operand) ∧
    (8 * Config.bufBytes < s.cur.toNat + 48 → Aborts .phenc s .operand) ∧
    (allValid → s.cur.toNat + 48 ≤ 8 * Config.bufBytes → ¬ inRange → Aborts .phenc s .range) ∧
    (allValid → s.cur.toNat + 48 ≤ 8 * Config.bufBytes → inRange → ∃ t, exec .phenc s = .next t ∧
      Inserts s t s.cur.toNat 48 H ∧ Responds t 0 ∧ t.cur.toNat = s.cur.toNat + 48 ∧
      KeepsAllBut [.buf, .len, .cur, .rsp] s t)

/-- 41_primary_header R124: the golden vector's seven values are encoded as `1B FF DA AA 00 64`. The spec derives it from other rules. -/
def Obligations.GoldenHeaderBytes : Prop :=
  ∃ t, exec .phenc (State.reset.populate
      [(0, 0), (1, 1), (2, 1), (3, 0x3FF), (4, 3), (5, 0x1AAA), (6, 100)] 0x007F#16) = .next t ∧
    t.len = 6 ∧ (List.range 6).map (Memory.read t.buf) = [0x1B#8, 0xFF#8, 0xDA#8, 0xAA#8, 0x00#8, 0x64#8]

/-- 41_primary_header R125: PHDEC, SEEK back, PHENC reproduces the 48 bits, and PHENC, SEEK back, PHDEC returns the seven
values. The first way needs the buffer to be within its capacity (10_state R30). The spec derives it from other rules. -/
def Obligations.HeaderRoundTrip : Prop :=
  (∀ s t : State, s.Inv → Succeeds .phdec s t →
    ∃ u w, Succeeds (.seek s.cur) t u ∧ Succeeds .phenc u w ∧ w.len = s.len ∧
      ∀ a, Memory.read w.buf a = Memory.read s.buf a) ∧
  (∀ s t : State, Succeeds .phenc s t →
    ∃ u w, Succeeds (.seek s.cur) t u ∧ Succeeds .phdec u w ∧
      ∀ i : BitVec 4, i.toNat < 7 → w.result i = s.result i)

/-! ### Time codes -/

/-- 42_timecode R131, TCDEC.NONE: its encoding, its result and its frame; no result register stays valid. -/
def Obligations.TcdecNoneReadsNothing : Prop :=
  (∀ v, decode 0x20000000#32 v = .ok .tcdecNone) ∧
  ∀ s : State, ∃ t, exec .tcdecNone s = .next t ∧ Responds t 0 ∧ HoldsExactly t [] ∧ t.fv = 0x0000#16 ∧ t.bcnt = 0 ∧
    KeepsAllBut [.f, .fv, .bcnt, .rsp] s t

/-- 42_timecode R133 with the p-field of R132 and the extension byte of R135, TCDEC.CUC: its encoding, its error, its fields
at their places in the stream, FV, BCNT and its frame. The places inside the extension byte are BFC-1's CUCX_LAYOUT (PRESUMED,
log entry 8). -/
def Obligations.TcdecCucDecodes : Prop :=
  (∀ v, decode 0x20000001#32 v = .ok .tcdecCuc) ∧
  ∀ s : State,
    let q := s.cur.toNat
    let ext := streamField s q 1
    let bo := streamField s (q + 4) 2
    let fo := streamField s (q + 6) 2
    let ab := if ext = 1 then streamField s (q + 9) 2 else 0
    let af := if ext = 1 then streamField s (q + 11) 3 else 0
    let bw := bo + 1 + ab
    let fw := fo + 1 + af
    let bytes := 1 + ext + bw + fw
    (8 * s.len.toNat < q + 8 * bytes → Aborts .tcdecCuc s .truncatedInput) ∧
    (q + 8 * bytes ≤ 8 * s.len.toNat → ∃ t, exec .tcdecCuc s = .next t ∧ Responds t (wordOf bytes) ∧
      HoldsExactly t ([(0, ext), (1, streamField s (q + 1) 3), (2, bo), (3, fo)] ++
        (if ext = 1 then [(4, streamField s (q + 8) 1), (5, ab), (6, af), (7, streamField s (q + 14) 2)] else []) ++
        [(8, streamField s (q + 8 + 8 * ext) (8 * bw)), (9, streamField s (q + 8 + 8 * ext + 8 * bw) (8 * fw))]) ∧
      t.fv = (if ext = 1 then 0x03FF#16 else 0x030F#16) ∧ t.bcnt.toNat = bytes ∧ t.cur.toNat = q + 8 * bytes ∧
      KeepsAllBut [.f, .fv, .bcnt, .cur, .rsp] s t)

/-- What 42_timecode R135 says holds under every layout of the extension byte: the byte is present iff `extension = 1`, it is
read before the units, its counts are added to `octets + 1` without a further 1, and its last two bits have no effect. Of a
basic unit wider than XLEN, which BFC-1's layout cannot give, F8 is the low 128 bits (DESIGN CHOICE, log entry 18). -/
def Obligations.CucWidthsUnderEveryLayout : Prop :=
  ∀ (lay : CucxLayout) (s : State), lay.valid = true →
    let q := s.cur.toNat
    let ext := streamField s q 1
    let bo := streamField s (q + 4) 2
    let fo := streamField s (q + 6) 2
    let ab := if ext = 1 then streamField s (q + 8 + lay.ext) lay.basic else 0
    let af := if ext = 1 then streamField s (q + 8 + lay.ext + lay.basic) lay.frac else 0
    let bytes := 1 + ext + (bo + 1 + ab) + (fo + 1 + af)
    (8 * s.len.toNat < q + 8 * bytes → decodeCuc lay s = .error .truncatedInput) ∧
    (q + 8 * bytes ≤ 8 * s.len.toNat → ∃ t, decodeCuc lay s = .ok (t, wordOf bytes) ∧ t.bcnt.toNat = bytes ∧
      t.cur.toNat = q + 8 * bytes ∧ t.fv = (if ext = 1 then 0x03FF#16 else 0x030F#16) ∧
      t.result 8 = some (wordOf (streamField s (q + 8 + 8 * ext) (8 * (bo + 1 + ab)))))

/-- 42_timecode R139 with the p-field of R138 and the widths of R140, TCDEC.CDS: its encoding, its errors in test order, its
fields at their places in the stream, FV, BCNT and its frame. -/
def Obligations.TcdecCdsDecodes : Prop :=
  (∀ v, decode 0x20000002#32 v = .ok .tcdecCds) ∧
  ∀ s : State,
    let q := s.cur.toNat
    let dsl := streamField s (q + 5) 1
    let ssl := streamField s (q + 6) 2
    let bytes := 7 + dsl + 2 * ssl
    (8 * s.len.toNat < q + 8 → Aborts .tcdecCds s .truncatedInput) ∧
    (q + 8 ≤ 8 * s.len.toNat → ssl = 3 → Aborts .tcdecCds s .encoding) ∧
    (q + 8 ≤ 8 * s.len.toNat → ssl ≠ 3 → 8 * s.len.toNat < q + 8 * bytes → Aborts .tcdecCds s .truncatedInput) ∧
    (ssl ≠ 3 → q + 8 * bytes ≤ 8 * s.len.toNat → ∃ t, exec .tcdecCds s = .next t ∧ Responds t (wordOf bytes) ∧
      HoldsExactly t ([(0, streamField s q 1), (1, streamField s (q + 1) 3), (2, streamField s (q + 4) 1), (3, dsl),
        (4, ssl), (8, streamField s (q + 8) (8 * (2 + dsl))), (9, streamField s (q + 8 + 8 * (2 + dsl)) 32)] ++
        (if ssl = 0 then [] else [(10, streamField s (q + 8 + 8 * (2 + dsl) + 32) (8 * (2 * ssl)))])) ∧
      t.fv = (if ssl = 0 then 0x031F#16 else 0x071F#16) ∧ t.bcnt.toNat = bytes ∧ t.cur.toNat = q + 8 * bytes ∧
      KeepsAllBut [.f, .fv, .bcnt, .cur, .rsp] s t)

/-- 42_timecode R143 with the p-field of R142 and the count of R144, TCDEC.CCS: its encoding, its error, its fields at their
places in the stream on both branches, FV, BCNT and its frame. -/
def Obligations.TcdecCcsDecodes : Prop :=
  (∀ v, decode 0x20000003#32 v = .ok .tcdecCcs) ∧
  ∀ s : State,
    let q := s.cur.toNat
    let cv := streamField s (q + 4) 1
    let res := streamField s (q + 5) 3
    let day := if cv = 0 then 2 else 1
    let bytes := 6 + res + day
    (8 * s.len.toNat < q + 8 * bytes → Aborts .tcdecCcs s .truncatedInput) ∧
    (q + 8 * bytes ≤ 8 * s.len.toNat → ∃ t, exec .tcdecCcs s = .next t ∧ Responds t (wordOf bytes) ∧
      HoldsExactly t ([(0, streamField s q 1), (1, streamField s (q + 1) 3), (2, cv), (3, res),
        (8, streamField s (q + 8) 16)] ++
        (if cv = 0 then [(9, streamField s (q + 24) 8), (10, streamField s (q + 32) 8)]
          else [(11, streamField s (q + 24) 8)]) ++
        [(12, streamField s (q + 24 + 8 * day) 8), (13, streamField s (q + 32 + 8 * day) 8),
         (14, streamField s (q + 40 + 8 * day) 8)] ++
        (if res = 0 then [] else [(15, streamField s (q + 48 + 8 * day) (8 * res))])) ∧
      t.fv = 0x710F#16 ||| (if cv = 0 then 0x0600#16 else 0x0800#16) ||| (if res = 0 then 0#16 else 0x8000#16) ∧
      t.bcnt.toNat = bytes ∧ t.cur.toNat = q + 8 * bytes ∧ KeepsAllBut [.f, .fv, .bcnt, .cur, .rsp] s t)

/-- 42_timecode R145: exactly one calendar branch is populated, reading the other raises OperandError, and the byte counts of
the branches differ by exactly 1. The spec derives it from other rules. -/
def Obligations.CcsBranchesAreExclusive : Prop :=
  (∀ s t : State, Succeeds .tcdecCcs s t →
    (t.result 2 = some 0 ∧ fvValid t.fv 9 = true ∧ fvValid t.fv 10 = true ∧ fvValid t.fv 11 = false ∧
      Aborts (.getf 11) t .operand) ∨
    (t.result 2 = some 1 ∧ fvValid t.fv 9 = false ∧ fvValid t.fv 10 = false ∧ fvValid t.fv 11 = true ∧
      Aborts (.getf 9) t .operand ∧ Aborts (.getf 10) t .operand)) ∧
  (∀ s t s' t' : State, Succeeds .tcdecCcs s t → Succeeds .tcdecCcs s' t' → t.result 3 = t'.result 3 →
    t.result 2 = some 0 → t'.result 2 = some 1 → t.bcnt.toNat = t'.bcnt.toNat + 1)

/-- 42_timecode R148, TCDEC.ASCA dec, term: its encoding, its error, what it measures and reports, FV, BCNT and its frame. -/
def Obligations.TcdecAscaMeasures : Prop :=
  ∀ (dec : BitVec 16) (term : Bool) (s : State),
    let q := s.cur.toNat
    let total := 20 + dec.toNat + term.toNat
    (∀ v, decode (0x20000004#32 ||| dec.setWidth 32 <<< 8 ||| (BitVec.ofBool term).setWidth 32 <<< 3) v =
      .ok (.tcdecAsca dec term)) ∧
    (8 * s.len.toNat < q + 8 * total → Aborts (.tcdecAsca dec term) s .truncatedInput) ∧
    (q + 8 * total ≤ 8 * s.len.toNat → ∃ t, exec (.tcdecAsca dec term) s = .next t ∧ Responds t (wordOf total) ∧
      HoldsExactly t ([(8, q), (9, 20), (10, q + 160), (11, dec.toNat)] ++
        (if term then [(12, streamField s (q + 8 * (20 + dec.toNat)) 8)] else [])) ∧
      t.fv = (if term then 0x1F00#16 else 0x0F00#16) ∧ t.bcnt.toNat = total ∧ t.cur.toNat = q + 8 * total ∧
      KeepsAllBut [.f, .fv, .bcnt, .cur, .rsp] s t)

/-- 42_timecode R149, TCDEC.ASCB dec, term: as ASCA with 18 bytes. -/
def Obligations.TcdecAscbMeasures : Prop :=
  ∀ (dec : BitVec 16) (term : Bool) (s : State),
    let q := s.cur.toNat
    let total := 18 + dec.toNat + term.toNat
    (∀ v, decode (0x20000005#32 ||| dec.setWidth 32 <<< 8 ||| (BitVec.ofBool term).setWidth 32 <<< 3) v =
      .ok (.tcdecAscb dec term)) ∧
    (8 * s.len.toNat < q + 8 * total → Aborts (.tcdecAscb dec term) s .truncatedInput) ∧
    (q + 8 * total ≤ 8 * s.len.toNat → ∃ t, exec (.tcdecAscb dec term) s = .next t ∧ Responds t (wordOf total) ∧
      HoldsExactly t ([(8, q), (9, 18), (10, q + 144), (11, dec.toNat)] ++
        (if term then [(12, streamField s (q + 8 * (18 + dec.toNat)) 8)] else [])) ∧
      t.fv = (if term then 0x1F00#16 else 0x0F00#16) ∧ t.bcnt.toNat = total ∧ t.cur.toNat = q + 8 * total ∧
      KeepsAllBut [.f, .fv, .bcnt, .cur, .rsp] s t)

/-- The same bytes decoded with two decimal counts give byte counts that differ by their difference (42_timecode R147, R150). -/
def Obligations.DecimalCountMovesTheBoundary : Prop :=
  ∀ (dec dec' : BitVec 16) (term : Bool) (s t t' : State), dec'.toNat ≤ dec.toNat →
    (Succeeds (.tcdecAsca dec term) s t → ∃ u, Succeeds (.tcdecAsca dec' term) s u ∧
      t.bcnt.toNat = u.bcnt.toNat + (dec.toNat - dec'.toNat)) ∧
    (Succeeds (.tcdecAscb dec term) s t' → ∃ u, Succeeds (.tcdecAscb dec' term) s u ∧
      t'.bcnt.toNat = u.bcnt.toNat + (dec.toNat - dec'.toNat))

/-- 42_timecode R152, the consumption law: the cursor moves by `8 * BCNT`, and the registers written are a function of the
stream bits passed over, of the cursor (ASCII positions only) and of the operands. The spec derives it from other rules. -/
def Obligations.TimeCodeDependsOnConsumedBitsOnly : Prop :=
  ∀ (i : Instr) (s t : State), isTimeCode i = true → Succeeds i s t →
    t.cur.toNat = s.cur.toNat + 8 * t.bcnt.toNat ∧ Responds t (zext t.bcnt) ∧
    ∀ s' : State, s'.cur.toNat + 8 * t.bcnt.toNat ≤ 8 * s'.len.toNat →
      (∀ k < 8 * t.bcnt.toNat, streamBit s' (s'.cur.toNat + k) = streamBit s (s.cur.toNat + k)) →
      ∃ t', Succeeds i s' t' ∧ t'.bcnt = t.bcnt ∧ t'.fv = t.fv ∧
        (s'.cur = s.cur ∨ (∀ d b, i ≠ .tcdecAsca d b ∧ i ≠ .tcdecAscb d b) → ∀ j, t'.result j = t.result j)

/-- After a successful TCDEC the header's F6 is gone: GETF 6 raises OperandError (70_reset R230, which the spec derives from
R28 and R164), but after a CUC time code with an extension byte F6 is the additional fractional octets (42_timecode R134). That
the model follows R133 and R134 there, against the words of R230, is its reading (DEDUCED, log entry 10), and the place of the
count, bits 11 to 13 after the cursor, is BFC-1's CUCX_LAYOUT (PRESUMED, log entry 8). -/
def Obligations.TimeCodeReplacesDataLength : Prop :=
  ∀ (i : Instr) (s t : State), isTimeCode i = true → Succeeds i s t →
    (i ≠ .tcdecCuc ∨ streamField s s.cur.toNat 1 = 0 → Aborts (.getf 6) t .operand) ∧
    (i = .tcdecCuc → streamField s s.cur.toNat 1 = 1 →
      ∃ u, exec (.getf 6) t = .next u ∧ Responds u (wordOf (streamField s (s.cur.toNat + 11) 3)))

/-! ### Payload -/

/-- 43_payload R160, OVHD var: its encoding, the table, its error and its frame. -/
def Obligations.OvhdReturnsConstant : Prop :=
  RejectsOperandFrom 0x30 6 ∧
  ∀ (var : BitVec 3) (s : State),
    (var.toNat < 6 → ∀ v, decode (0x30000000#32 ||| var.setWidth 32) v = .ok (.ovhd var)) ∧
    (6 ≤ var.toNat → Aborts (.ovhd var) s .operand) ∧
    (var.toNat < 6 → ∃ t, exec (.ovhd var) s = .next t ∧
      Responds t (wordOf ([0, 3, 7, 8, 20, 18].getD var.toNat 0)) ∧ KeepsAllBut [.rsp] s t)

/-- 43_payload R162, PAYLEN dl, ovh, cons: its encoding, its errors, the length in the integers and its frame. -/
def Obligations.PaylenComputesLength : Prop :=
  RejectsOperandFrom 0x31 1 ∧
  (∀ (c : ControlWord) (v : Word), c.toNat / 2 ^ 24 = 0x31 → 2 ^ 64 ≤ v.toNat → ∃ e, decode c v = .error e) ∧
  ∀ (dl ovh : BitVec 16) (cons : BitVec 32) (s : State),
    let len : Int := dl.toNat - ovh.toNat - cons.toNat
    decode 0x31000000#32 (BitVec.ofNat 128 (cons.toNat * 2 ^ 32 + ovh.toNat * 2 ^ 16 + dl.toNat)) =
      .ok (.paylen dl ovh cons) ∧
    (len < 0 → Aborts (.paylen dl ovh cons) s .corruptPacket) ∧
    (0 ≤ len → ∃ t, exec (.paylen dl ovh cons) s = .next t ∧ (t.plen.toNat : Int) = len ∧ Responds t (zext t.plen) ∧
      KeepsAllBut [.plen, .rsp] s t)

/-- 43_payload R163, PAYEXT dl, ovh, cons: its encoding, its errors in test order, the slice it marks and its frame. -/
def Obligations.PayextMarksSlice : Prop :=
  RejectsOperandFrom 0x32 1 ∧
  (∀ (c : ControlWord) (v : Word), c.toNat / 2 ^ 24 = 0x32 → 2 ^ 64 ≤ v.toNat → ∃ e, decode c v = .error e) ∧
  ∀ (dl ovh : BitVec 16) (cons : BitVec 32) (s : State),
    let len : Int := dl.toNat - ovh.toNat - cons.toNat
    decode 0x32000000#32 (BitVec.ofNat 128 (cons.toNat * 2 ^ 32 + ovh.toNat * 2 ^ 16 + dl.toNat)) =
      .ok (.payext dl ovh cons) ∧
    (len < 0 → Aborts (.payext dl ovh cons) s .corruptPacket) ∧
    (0 ≤ len → (8 * s.len.toNat : Int) < s.cur.toNat + 8 * len → Aborts (.payext dl ovh cons) s .truncatedInput) ∧
    (0 ≤ len → (s.cur.toNat + 8 * len : Int) ≤ 8 * s.len.toNat → ∃ t, exec (.payext dl ovh cons) s = .next t ∧
      t.poff = s.cur ∧ (t.plen.toNat : Int) = len ∧ (t.cur.toNat : Int) = s.cur.toNat + 8 * len ∧
      Responds t (zext t.plen) ∧ KeepsAllBut [.poff, .plen, .cur, .rsp] s t)

/-- 43_payload R165: PAYLEN and PAYEXT agree on the length and on CorruptPacketError, the length falls as `cons` rises, a slice
lies inside the valid bytes, and neither command reads a byte. The spec derives it from other rules. -/
def Obligations.PayloadLaws : Prop :=
  ∀ (dl ovh : BitVec 16) (cons : BitVec 32) (s : State),
    (Aborts (.paylen dl ovh cons) s .corruptPacket ↔ Aborts (.payext dl ovh cons) s .corruptPacket) ∧
    (∀ t u, Succeeds (.paylen dl ovh cons) s t → Succeeds (.payext dl ovh cons) s u →
      t.plen = u.plen ∧ t.rsp = u.rsp) ∧
    (∀ (cons' : BitVec 32) (d : Nat) (t u : State), cons'.toNat = cons.toNat + d →
      Succeeds (.paylen dl ovh cons) s t → Succeeds (.paylen dl ovh cons') s u →
      t.plen.toNat = u.plen.toNat + d) ∧
    (∀ t, Succeeds (.payext dl ovh cons) s t →
      t.cur.toNat = t.poff.toNat + 8 * t.plen.toNat ∧ t.cur.toNat ≤ 8 * t.len.toNat) ∧
    (∀ (m : List Host.Cell) (t : State), exec (.payext dl ovh cons) s = .next t →
      exec (.payext dl ovh cons) (s.setBuf m) = .next (t.setBuf m)) ∧
    (∀ (m : List Host.Cell) (t : State), exec (.paylen dl ovh cons) s = .next t →
      exec (.paylen dl ovh cons) (s.setBuf m) = .next (t.setBuf m))

/-! ### Host access -/

/-- 44_host_access R170, NOP: its encoding, its error, and that it changes nothing. -/
def Obligations.NopDoesNothing : Prop :=
  (∀ v, decode 0x00000000#32 v = .ok .nop) ∧ RejectsOperandFrom 0x00 1 ∧
  ∀ s : State, ∃ t, exec .nop s = .next t ∧ Responds t 0 ∧ KeepsAllBut [.rsp] s t

/-- 44_host_access R171, BUFWR idx, byte: its encoding, its errors, the byte stored, the gap cleared, and its frame. -/
def Obligations.BufwrStoresByte : Prop :=
  ∀ (idx : BitVec 24) (v : Word) (s : State),
    decode (0x40000000#32 ||| idx.setWidth 32) v = .ok (.bufwr idx v) ∧
    (Config.bufBytes ≤ idx.toNat ∨ 256 ≤ v.toNat → Aborts (.bufwr idx v) s .operand) ∧
    (idx.toNat < Config.bufBytes → v.toNat < 256 → ∃ t, exec (.bufwr idx v) s = .next t ∧ Responds t 0 ∧
      (Memory.read t.buf idx.toNat).toNat = v.toNat ∧ t.len.toNat = max s.len.toNat (idx.toNat + 1) ∧
      (∀ a, a ≠ idx.toNat → Memory.read t.buf a =
        if s.len.toNat ≤ a ∧ a < idx.toNat then 0 else Memory.read s.buf a) ∧
      KeepsAllBut [.buf, .len, .rsp] s t)

/-- 44_host_access R172, BUFRD idx: its encoding, its error, the byte returned and its frame. -/
def Obligations.BufrdReturnsByte : Prop :=
  ∀ (idx : BitVec 24) (s : State),
    (∀ v, decode (0x41000000#32 ||| idx.setWidth 32) v = .ok (.bufrd idx)) ∧
    (s.len.toNat ≤ idx.toNat → Aborts (.bufrd idx) s .operand) ∧
    (idx.toNat < s.len.toNat → ∃ t, exec (.bufrd idx) s = .next t ∧
      Responds t (wordOf (Memory.read s.buf idx.toNat).toNat) ∧ KeepsAllBut [.rsp] s t)

/-- SETLEN n (44_host_access R173): its encoding, its error, the new length, the bytes cleared and its frame. That a shrink
keeps the contents of the bytes at and above `n` is the model's choice (DESIGN CHOICE, unsafe, log entry 12). -/
def Obligations.SetlenSetsLength : Prop :=
  ∀ (n : BitVec 24) (s : State),
    (∀ v, decode (0x42000000#32 ||| n.setWidth 32) v = .ok (.setlen n)) ∧
    (Config.bufBytes < n.toNat → Aborts (.setlen n) s .operand) ∧
    (n.toNat ≤ Config.bufBytes → ∃ t, exec (.setlen n) s = .next t ∧ Responds t 0 ∧ t.len.toNat = n.toNat ∧
      (∀ a, Memory.read t.buf a = if s.len.toNat ≤ a ∧ a < n.toNat then 0 else Memory.read s.buf a) ∧
      KeepsAllBut [.buf, .len, .rsp] s t)

/-- 44_host_access R174, SEEK pos: its encoding, its error, the new cursor and its frame. -/
def Obligations.SeekPlacesCursor : Prop :=
  ∀ (pos : BitVec 24) (s : State),
    (∀ v, decode (0x43000000#32 ||| pos.setWidth 32) v = .ok (.seek pos)) ∧
    (8 * Config.bufBytes < pos.toNat → Aborts (.seek pos) s .operand) ∧
    (pos.toNat ≤ 8 * Config.bufBytes → ∃ t, exec (.seek pos) s = .next t ∧ Responds t 0 ∧ t.cur = pos ∧
      KeepsAllBut [.cur, .rsp] s t)

/-- 44_host_access R176, GETF i: its encoding, its errors, the register returned and its frame. -/
def Obligations.GetfReturnsResult : Prop :=
  RejectsOperandFrom 0x44 16 ∧
  ∀ (i : BitVec 4) (s : State),
    (∀ v, decode (0x44000000#32 ||| i.setWidth 32) v = .ok (.getf i)) ∧
    (s.fv.getLsbD i.toNat = false → Aborts (.getf i) s .operand) ∧
    (s.fv.getLsbD i.toNat = true → ∃ t, exec (.getf i) s = .next t ∧ Responds t s.f[i.toNat] ∧ KeepsAllBut [.rsp] s t)

/-- 44_host_access R177, SETF i, v: its encoding, its error, the register and the one valid bit it writes, and its frame. -/
def Obligations.SetfWritesResult : Prop :=
  RejectsOperandFrom 0x45 16 ∧
  ∀ (i : BitVec 4) (v : Word) (s : State),
    decode (0x45000000#32 ||| i.setWidth 32) v = .ok (.setf i v) ∧
    ∃ t, exec (.setf i v) s = .next t ∧ Responds t 0 ∧
      (∀ j, regGet t.f j = if j = i then v else regGet s.f j) ∧
      (∀ k < 16, t.fv.getLsbD k = (decide (k = i.toNat) || s.fv.getLsbD k)) ∧ KeepsAllBut [.f, .fv, .rsp] s t

/-- 44_host_access R178 with the selectors of 10_state R29 and 30_encoding R80, GETS sel: its encoding, its error, the register
returned and its frame. -/
def Obligations.GetsReturnsSpecial : Prop :=
  RejectsOperandFrom 0x46 9 ∧
  ∀ (sel : BitVec 4) (s : State),
    (sel.toNat < 9 → ∀ v, decode (0x46000000#32 ||| sel.setWidth 32) v = .ok (.gets sel)) ∧
    (9 ≤ sel.toNat → Aborts (.gets sel) s .operand) ∧
    (sel.toNat < 9 → ∃ t, exec (.gets sel) s = .next t ∧
      Responds t (wordOf ([s.erracc.toNat, s.cur.toNat, s.len.toNat, s.bcnt.toNat, s.plen.toNat, s.poff.toNat,
        s.rval.toNat, s.fv.toNat, 0x42464301].getD sel.toNat 0)) ∧ KeepsAllBut [.rsp] s t)

/-- 44_host_access R179, CLRE: its encoding, its error with the bit it then sets, the cleared mask and its frame. -/
def Obligations.ClreClearsMask : Prop :=
  (∀ v, decode 0x47000000#32 v = .ok .clre) ∧ RejectsOperandFrom 0x47 1 ∧
  (∀ (s : State) (c : ControlWord) (v : Word) (later : List HostInput), s.inputs = .command c v :: later →
    c.toNat / 2 ^ 24 = 0x47 → c.toNat % 2 ^ 24 ≠ 0 → ∃ t, step s = .next t ∧ t.erracc = s.erracc ||| 0x10#5 ∧
      t.rsp = some { err := some .operand, val := 0 }) ∧
  ∀ s : State, ∃ t, exec .clre s = .next t ∧ Responds t 0 ∧ t.erracc = 0 ∧ KeepsAllBut [.erracc, .rsp] s t

/-- What host access cannot do (44_host_access R180): the cursor only by SEEK, LEN only by SETLEN and BUFWR's growth, BCNT,
PLEN, POFF and RVAL never, FV only one bit at a time by SETF and never cleared. The spec derives it from other rules. -/
def Obligations.HostAccessIsLimited : Prop :=
  ∀ (i : Instr) (s t : State), isHostAccess i = true → exec i s = .next t →
    (t.cur ≠ s.cur → ∃ pos, i = .seek pos) ∧
    (t.len ≠ s.len → (∃ n, i = .setlen n) ∨ ∃ idx v, i = .bufwr idx v) ∧
    t.bcnt = s.bcnt ∧ t.plen = s.plen ∧ t.poff = s.poff ∧ t.rval = s.rval ∧
    (∀ j, fvValid s.fv j = true → fvValid t.fv j = true) ∧
    (∀ j, t.result j ≠ s.result j → ∃ v, i = .setf j v)
end

