-- ==== Sys2Proof/Laws/Decode.lean ====
section
/-! SUPPORT. The decoder: the fields of a control word, and the commands of each opcode. -/

namespace Sys2Proof

@[simp] theorem opField_append (op : BitVec 8) (a : BitVec 24) : opField (op ++ a) = op := by
  refine BitVec.eq_of_getLsbD_eq fun i hi => ?_
  simp only [opField, BitVec.getLsbD_extractLsb', hi, decide_true, Bool.true_and, BitVec.getLsbD_append]
  rw [if_neg (by omega), show 24 + i - 24 = i by omega]

@[simp] theorem aField_append (op : BitVec 8) (a : BitVec 24) : aField (op ++ a) = a := by
  refine BitVec.eq_of_getLsbD_eq fun i hi => ?_
  simp only [aField, BitVec.getLsbD_extractLsb', hi, decide_true, Bool.true_and, BitVec.getLsbD_append, Nat.zero_add,
    if_true]

/-- A control word is its opcode and its short operand. -/
theorem fields_append (c : ControlWord) : opField c ++ aField c = c := by
  refine BitVec.eq_of_getLsbD_eq fun i hi => ?_
  simp only [opField, aField, BitVec.getLsbD_append, BitVec.getLsbD_extractLsb', Nat.zero_add]
  by_cases h : i < 24
  · simp [h]
  · rw [if_neg h, show 24 + (i - 24) = i by omega]
    simp
    omega

theorem opField_toNat (c : ControlWord) : (opField c).toNat = c.toNat / 2 ^ 24 := by
  have := c.isLt
  simp only [opField, BitVec.extractLsb'_toNat, Nat.shiftRight_eq_div_pow]
  omega

theorem aField_toNat (c : ControlWord) : (aField c).toNat = c.toNat % 2 ^ 24 := by
  simp only [aField, BitVec.extractLsb'_toNat, Nat.shiftRight_eq_div_pow]
  omega

/-- The decoder on a control word written as opcode and short operand. -/
theorem decode_append (op : BitVec 8) (a : BitVec 24) (v : Word) : decode (op ++ a) v = decodeFields op a v := by
  simp only [decode, opField_append, aField_append]

theorem decode_encodeControl (i : Instr) (v : Word) :
    decode (encodeControl i) v = decodeFields i.opcode i.shortOperand v := decode_append _ _ _

/-- A short operand or-ed below an opcode word. -/
theorem or_setWidth_eq_append (op : BitVec 8) {w : Nat} (x : BitVec w) (hw : w ≤ 24) :
    op.setWidth 32 <<< 24 ||| x.setWidth 32 = op ++ x.setWidth 24 := by
  refine BitVec.eq_of_getLsbD_eq fun i hi => ?_
  simp only [BitVec.getLsbD_or, BitVec.getLsbD_shiftLeft, BitVec.getLsbD_setWidth, BitVec.getLsbD_append, hi, decide_true,
    Bool.true_and]
  by_cases h : i < 24
  · simp [h]
  · have hx : x.getLsbD i = false := BitVec.getLsbD_of_ge _ _ (by omega)
    have : i - 24 < 32 := by omega
    simp [h, hx, this]

/-- The fields of format T come back from its short operand. -/
theorem fields_encodeT (var : BitVec 3) (dec : BitVec 16) (b : Bool) :
    (encodeT var dec b).extractLsb' 4 4 = 0#4 ∧ (encodeT var dec b).extractLsb' 0 3 = var ∧
      (encodeT var dec b).extractLsb' 8 16 = dec ∧ (encodeT var dec b).getLsbD 3 = b := by
  refine ⟨BitVec.eq_of_getLsbD_eq fun i hi => ?_, BitVec.eq_of_getLsbD_eq fun i hi => ?_,
    BitVec.eq_of_getLsbD_eq fun i hi => ?_, ?_⟩ <;>
    simp only [encodeT, BitVec.getLsbD_append, BitVec.getLsbD_extractLsb', decide_true, Bool.true_and, *]
  · rw [if_neg (by omega), if_neg (by omega), if_pos (by omega)]
    simp
  · rw [if_pos (by omega), Nat.zero_add]
  · rw [if_neg (by omega), if_neg (by omega), if_neg (by omega)]
    congr 1
    omega
  · cases b <;> rfl

/-- The fields of format P come back from its data operand. -/
theorem fields_encodeP (dl ovh : BitVec 16) (cons : BitVec 32) :
    (encodeP dl ovh cons).extractLsb' 64 64 = 0#64 ∧ (encodeP dl ovh cons).extractLsb' 0 16 = dl ∧
      (encodeP dl ovh cons).extractLsb' 16 16 = ovh ∧ (encodeP dl ovh cons).extractLsb' 32 32 = cons := by
  refine ⟨BitVec.eq_of_getLsbD_eq fun i hi => ?_, BitVec.eq_of_getLsbD_eq fun i hi => ?_,
    BitVec.eq_of_getLsbD_eq fun i hi => ?_, BitVec.eq_of_getLsbD_eq fun i hi => ?_⟩ <;>
    simp only [encodeP, BitVec.getLsbD_append, BitVec.getLsbD_extractLsb', hi, decide_true, Bool.true_and]
  · rw [if_neg (by omega), if_neg (by omega), if_neg (by omega)]
    simp
  · rw [if_pos (by omega), Nat.zero_add]
  · rw [if_neg (by omega), if_pos (by omega)]
    congr 1
    omega
  · rw [if_neg (by omega), if_neg (by omega), if_pos (by omega)]
    congr 1
    omega

end Sys2Proof
end

