-- ==== Sys2Proof/Laws/Memory.lean ====
section
/-! SUPPORT. The laws of the stream buffer: read after write in bytes, in bits and in fields, and that every operation keeps the canonical form. -/

namespace Sys2Proof.Machine

@[simp] theorem Memory.read_nil (a : Nat) : Memory.read [] a = 0 := rfl

theorem Memory.read_zeroRange (m : List Host.Cell) (lo hi a : Nat) :
    Memory.read (Memory.zeroRange m lo hi) a = if lo ≤ a ∧ a < hi then 0 else Memory.read m a := by
  induction m with
  | nil => simp [Memory.zeroRange]
  | cons c m ih =>
    simp only [Memory.zeroRange, List.filter_cons, decide_eq_true_eq] at ih ⊢
    by_cases hc : c.1 < lo ∨ hi ≤ c.1
    · rw [if_pos hc]
      by_cases ha : c.1 = a
      · simp only [Memory.read, ha, if_true]
        rw [if_neg (by omega)]
      · simp only [Memory.read, ha, if_false, ih]
    · rw [if_neg hc, ih]
      by_cases ha : lo ≤ a ∧ a < hi
      · simp only [ha, and_self, if_true]
      · have : c.1 ≠ a := by omega
        simp only [ha, if_false, Memory.read, this]

theorem Memory.zeroRange_of_ge (m : List Host.Cell) {lo hi : Nat} (h : hi ≤ lo) : Memory.zeroRange m lo hi = m := by
  simp only [Memory.zeroRange, List.filter_eq_self, decide_eq_true_eq]
  intro c _
  omega

theorem Memory.zeroRange_avoids {m : List Host.Cell} {lo hi : Nat} {c : Host.Cell}
    (h : c ∈ Memory.zeroRange m lo hi) : c.1 < lo ∨ hi ≤ c.1 := by
  simpa using (List.mem_filter.mp h).2

theorem Memory.read_insert (m : List Host.Cell) (a : Nat) (v : Byte) (b : Nat) (hm : ∀ c ∈ m, c.1 ≠ a) :
    Memory.read (Memory.insert a v m) b = if b = a then v else Memory.read m b := by
  induction m with
  | nil => simp only [Memory.insert, Memory.read, eq_comm (a := a)]
  | cons c m ih =>
    have hc : c.1 ≠ a := hm c (by simp)
    have ih := ih fun d hd => hm d (by simp [hd])
    simp only [Memory.insert]
    split
    · simp only [Memory.read, eq_comm (a := a)]
    · by_cases hcb : c.1 = b
      · have : b ≠ a := hcb ▸ hc
        simp only [Memory.read, hcb, if_true, this, if_false]
      · simp only [Memory.read, hcb, if_false, ih]

/-- Read after write. -/
theorem Memory.read_write (m : List Host.Cell) (a : Nat) (v : Byte) (b : Nat) :
    Memory.read (Memory.write m a v) b = if b = a then v else Memory.read m b := by
  have hz : Memory.read (Memory.zeroRange m a (a + 1)) b = if b = a then 0 else Memory.read m b := by
    rw [Memory.read_zeroRange]
    by_cases h : b = a
    · rw [if_pos (by omega), if_pos h]
    · rw [if_neg (by omega), if_neg h]
  unfold Memory.write
  by_cases hv : v = Memory.unlisted
  · simp only [hv, if_true]
    exact hz
  · simp only [hv, if_false]
    rw [Memory.read_insert _ _ _ _ fun c hc => by have := Memory.zeroRange_avoids hc; omega, hz]
    by_cases h : b = a <;> simp [h]

theorem Memory.mem_insert {a : Nat} {v : Byte} {m : List Host.Cell} {c : Host.Cell} :
    c ∈ Memory.insert a v m ↔ c = (a, v) ∨ c ∈ m := by
  induction m with
  | nil => simp [Memory.insert]
  | cons d m ih =>
    simp only [Memory.insert]
    split
    · simp
    · simp only [List.mem_cons, ih]
      tauto

theorem Memory.wf_zeroRange {m : List Host.Cell} (h : Memory.wf m) (lo hi : Nat) :
    Memory.wf (Memory.zeroRange m lo hi) :=
  ⟨h.1.sublist (List.filter_sublist.map _), fun c hc => h.2 c (List.mem_filter.mp hc).1⟩

theorem Memory.wf_insert {m : List Host.Cell} (h : Memory.wf m) {a : Nat} {v : Byte} (hv : v ≠ Memory.unlisted)
    (hm : ∀ c ∈ m, c.1 ≠ a) : Memory.wf (Memory.insert a v m) := by
  refine ⟨?_, fun c hc => ?_⟩
  · induction m with
    | nil => simp [Memory.insert]
    | cons d m ih =>
      obtain ⟨hp, hn⟩ := h
      simp only [List.map_cons, List.pairwise_cons, List.mem_map, forall_exists_index, and_imp,
        forall_apply_eq_imp_iff₂] at hp
      have hd : d.1 ≠ a := hm d (by simp)
      simp only [Memory.insert]
      split
      · rename_i hlt
        simp only [List.map_cons, List.pairwise_cons, List.mem_cons, List.mem_map, forall_eq_or_imp,
          forall_exists_index, and_imp, forall_apply_eq_imp_iff₂]
        exact ⟨⟨hlt, fun e he => lt_trans hlt (hp.1 e he)⟩, hp.1, hp.2⟩
      · simp only [List.map_cons, List.pairwise_cons, List.mem_map, forall_exists_index, and_imp,
          forall_apply_eq_imp_iff₂]
        refine ⟨fun e he => ?_, ih ⟨hp.2, fun c hc => hn c (by simp [hc])⟩ fun c hc => hm c (by simp [hc])⟩
        rcases Memory.mem_insert.mp he with rfl | he
        · simp only
          omega
        · exact hp.1 e he
  · rcases Memory.mem_insert.mp hc with rfl | hc
    · exact hv
    · exact h.2 c hc

theorem Memory.wf_write {m : List Host.Cell} (h : Memory.wf m) (a : Nat) (v : Byte) :
    Memory.wf (Memory.write m a v) := by
  unfold Memory.write
  by_cases hv : v = Memory.unlisted
  · simp only [hv, if_true]
    exact Memory.wf_zeroRange h _ _
  · simp only [hv, if_false]
    exact Memory.wf_insert (Memory.wf_zeroRange h _ _) hv fun c hc => by
      have := Memory.zeroRange_avoids hc
      omega

/-- A write lists no address but its own. -/
theorem Memory.write_lists {m : List Host.Cell} {a : Nat} {v : Byte} {c : Host.Cell} (h : c ∈ Memory.write m a v) :
    c.1 = a ∨ c ∈ m := by
  unfold Memory.write at h
  by_cases hv : v = Memory.unlisted
  · simp only [hv, if_true] at h
    exact .inr (List.mem_filter.mp h).1
  · simp only [hv, if_false] at h
    rcases Memory.mem_insert.mp h with rfl | h
    · exact .inl rfl
    · exact .inr (List.mem_filter.mp h).1

/-- Two canonical buffers that read the same are the same data. -/
theorem Memory.ext_of_wf {m m' : List Host.Cell} (h : Memory.wf m) (h' : Memory.wf m')
    (hr : ∀ a, Memory.read m a = Memory.read m' a) : m = m' := by
  have low : ∀ {c : Host.Cell} {l : List Host.Cell}, Memory.wf (c :: l) → ∀ a ≤ c.1, Memory.read l a = 0 := by
    intro c l hw a ha
    have hp := (List.pairwise_cons.mp (by simpa using hw.1 : (c.1 :: l.map Prod.fst).Pairwise (· < ·))).1
    clear hw
    induction l with
    | nil => rfl
    | cons d l ih =>
      have : c.1 < d.1 := hp d.1 (by simp)
      simp only [Memory.read]
      rw [if_neg (by omega)]
      exact ih fun x hx => hp x (by simp [hx])
  have tail : ∀ {c : Host.Cell} {l : List Host.Cell}, Memory.wf (c :: l) → Memory.wf l := fun hw =>
    ⟨(List.pairwise_cons.mp (by simpa using hw.1)).2, fun d hd => hw.2 d (by simp [hd])⟩
  induction m generalizing m' with
  | nil =>
    cases m' with
    | nil => rfl
    | cons c l =>
      have := hr c.1
      simp only [Memory.read, if_true, Memory.unlisted] at this
      exact absurd this.symm (h'.2 c (by simp))
  | cons c l ih =>
    cases m' with
    | nil =>
      have := hr c.1
      simp only [Memory.read, if_true, Memory.unlisted] at this
      exact absurd this (h.2 c (by simp))
    | cons d l' =>
      have hc : c.2 ≠ 0 := h.2 c (by simp)
      have hd : d.2 ≠ 0 := h'.2 d (by simp)
      have hcd : c.1 = d.1 := by
        by_contra hne
        rcases Nat.lt_or_gt_of_ne hne with hlt | hgt
        · have := hr c.1
          simp only [Memory.read, if_true] at this
          rw [if_neg (by omega), low h' c.1 (by omega)] at this
          exact hc this
        · have := hr d.1
          simp only [Memory.read, if_true] at this
          rw [if_neg (by omega), low h d.1 (by omega)] at this
          exact hd this.symm
      have hv : c.2 = d.2 := by
        have := hr c.1
        simpa only [Memory.read, if_true, hcd] using this
      rw [ih (tail h) (tail h') fun a => ?_, Prod.ext hcd hv]
      by_cases ha : a ≤ c.1
      · rw [low h a ha, low h' a (by omega)]
      · have := hr a
        simp only [Memory.read] at this
        rwa [if_neg (by omega), if_neg (by omega)] at this

/-! ### Stream bits -/

theorem getLsbD_byteWithBit (x : Byte) (j : Nat) (b : Bool) (i : Nat) (hi : i < 8) :
    (byteWithBit x j b).getLsbD i = if i = j then b else x.getLsbD i := by
  have h1 : (1#8 <<< j).getLsbD i = decide (i = j) := by
    simp only [BitVec.getLsbD_shiftLeft, hi, decide_true, Bool.true_and, BitVec.getLsbD_one]
    by_cases h : i < j
    · simp [h]; omega
    · by_cases he : i = j
      · simp [he]
      · have : i - j ≠ 0 := by omega
        simp [he, this]
  unfold byteWithBit
  cases b
  · simp only [Bool.false_eq_true, if_false, BitVec.getLsbD_and, BitVec.getLsbD_not, hi, decide_true, Bool.true_and, h1]
    by_cases h : i = j <;> simp only [h, decide_true, decide_false, Bool.not_true, Bool.not_false, Bool.and_false,
      Bool.and_true, if_true, if_false]
  · simp only [if_true, BitVec.getLsbD_or, h1]
    by_cases h : i = j <;> simp only [h, decide_true, decide_false, Bool.or_true, Bool.or_false, if_true, if_false]

/-- Setting a stream bit changes that bit alone. -/
theorem Memory.bit_setBit (m : List Host.Cell) (q : Nat) (b : Bool) (p : Nat) :
    Memory.bit (Memory.setBit m q b) p = if p = q then b else Memory.bit m p := by
  unfold Memory.bit Memory.setBit
  rw [Memory.read_write]
  by_cases hd : p / 8 = q / 8
  · rw [if_pos hd, getLsbD_byteWithBit _ _ _ _ (by omega), ← hd]
    by_cases h : p = q
    · rw [if_pos (by omega), if_pos h]
    · rw [if_neg (by omega), if_neg h]
  · rw [if_neg hd, if_neg (by rintro rfl; exact hd rfl)]

/-- Buffers with the same stream bits in a range read the same field there. -/
theorem Memory.readBits_congr {m m' : List Host.Cell} {q : Nat} :
    ∀ {n : Nat}, (∀ i < n, Memory.bit m (q + i) = Memory.bit m' (q + i)) →
      Memory.readBits m q n = Memory.readBits m' q n
  | 0, _ => rfl
  | n + 1, h => by
    simp only [Memory.readBits]
    rw [Memory.readBits_congr fun i hi => h i (by omega), h n (by omega)]

theorem Memory.bit_congr {m m' : List Host.Cell} {q : Nat} (h : Memory.read m (q / 8) = Memory.read m' (q / 8)) :
    Memory.bit m q = Memory.bit m' q := by
  unfold Memory.bit
  rw [h]

theorem Memory.readBits_lt (m : List Host.Cell) (q n : Nat) : Memory.readBits m q n < 2 ^ n := by
  induction n with
  | zero => simp [Memory.readBits]
  | succ n ih =>
    have := (Memory.bit m (q + n)).toNat_lt
    simp only [Memory.readBits, pow_succ]
    omega

/-- MemRead as the sum of 20_memory R52. -/
theorem Memory.readBits_eq_sum (m : List Host.Cell) (q n : Nat) :
    Memory.readBits m q n = ∑ i ∈ Finset.range n, (Memory.bit m (q + i)).toNat * 2 ^ (n - 1 - i) := by
  induction n with
  | zero => rfl
  | succ n ih =>
    rw [Memory.readBits, ih, Finset.sum_range_succ, Finset.mul_sum]
    simp only [Nat.add_sub_cancel, Nat.sub_self, pow_zero, mul_one]
    congr 1
    refine Finset.sum_congr rfl fun i hi => ?_
    have hi := Finset.mem_range.mp hi
    rw [show n - i = n - 1 - i + 1 by omega, pow_succ]
    ring

/-- The composition law (20_memory R53). -/
theorem Memory.readBits_append (m : List Host.Cell) (q n₁ n₂ : Nat) :
    Memory.readBits m q (n₁ + n₂) = Memory.readBits m q n₁ * 2 ^ n₂ + Memory.readBits m (q + n₁) n₂ := by
  induction n₂ with
  | zero => simp [Memory.readBits]
  | succ n₂ ih =>
    rw [← Nat.add_assoc, Memory.readBits, ih, Memory.readBits, pow_succ, Nat.add_assoc q n₁ n₂]
    ring

/-- The bits of a field read. -/
theorem Memory.testBit_readBits (m : List Host.Cell) (q n i : Nat) (hi : i < n) :
    (Memory.readBits m q n).testBit i = Memory.bit m (q + (n - 1 - i)) := by
  induction n generalizing i with
  | zero => omega
  | succ n ih =>
    rw [Memory.readBits]
    cases i with
    | zero =>
      simp only [Nat.testBit_zero, Nat.add_sub_cancel, Nat.sub_zero]
      cases Memory.bit m (q + n) <;> simp
    | succ i =>
      rw [Nat.testBit_succ, show (2 * Memory.readBits m q n + (Memory.bit m (q + n)).toNat) / 2 = Memory.readBits m q n by
        have := (Memory.bit m (q + n)).toNat_lt
        omega, ih i (by omega)]
      congr 2
      omega

/-- Cutting a field out of a field read is reading it at its place. -/
theorem Memory.slice_readBits (m : List Host.Cell) (q w lo k : Nat) (h : lo + k ≤ w) :
    Memory.readBits m q w / 2 ^ lo % 2 ^ k = Memory.readBits m (q + (w - lo - k)) k := by
  refine Nat.eq_of_testBit_eq fun i => ?_
  rw [Nat.testBit_mod_two_pow, Nat.testBit_div_two_pow]
  by_cases hi : i < k
  · rw [Memory.testBit_readBits _ _ _ _ hi, Memory.testBit_readBits _ _ _ _ (by omega)]
    simp only [hi, decide_true, Bool.true_and]
    congr 1
    omega
  · have : Memory.readBits m (q + (w - lo - k)) k < 2 ^ i :=
      lt_of_lt_of_le (Memory.readBits_lt _ _ _) (Nat.pow_le_pow_right (by omega) (by omega))
    simp only [hi, decide_false, Bool.false_and, Nat.testBit_lt_two_pow this]

/-- Inserting a field sets its own bits, first bit most significant, and no other (20_memory R54). -/
theorem Memory.bit_writeBits (m : List Host.Cell) (q n v p : Nat) :
    Memory.bit (Memory.writeBits m q n v) p =
      if q ≤ p ∧ p < q + n then v.testBit (n - 1 - (p - q)) else Memory.bit m p := by
  induction n generalizing v with
  | zero => rw [if_neg (by omega)]; rfl
  | succ n ih =>
    rw [Memory.writeBits, Memory.bit_setBit, ih]
    by_cases h : p = q + n
    · subst h
      rw [if_pos rfl, if_pos (by omega), show n + 1 - 1 - (q + n - q) = 0 by omega, Nat.testBit_zero]
      cases Nat.mod_two_eq_zero_or_one v with
      | inl h => simp [h]
      | inr h => simp [h]
    · rw [if_neg h]
      by_cases hr : q ≤ p ∧ p < q + n
      · rw [if_pos hr, if_pos (by omega), show n + 1 - 1 - (p - q) = n - 1 - (p - q) + 1 by omega, Nat.testBit_succ]
      · rw [if_neg hr, if_neg (by omega)]

/-- Read after insertion: the inverse law (40_bitfield R105). -/
theorem Memory.readBits_writeBits (m : List Host.Cell) (q n v : Nat) (hv : v < 2 ^ n) :
    Memory.readBits (Memory.writeBits m q n v) q n = v := by
  refine Nat.eq_of_testBit_eq fun i => ?_
  by_cases hi : i < n
  · rw [Memory.testBit_readBits _ _ _ _ hi, Memory.bit_writeBits, if_pos (by omega)]
    congr 1
    omega
  · have h2 : ∀ x < 2 ^ n, x.testBit i = false := fun x hx =>
      Nat.testBit_lt_two_pow (lt_of_lt_of_le hx (Nat.pow_le_pow_right (by omega) (by omega)))
    rw [h2 _ (Memory.readBits_lt _ _ _), h2 _ hv]

/-- Bytes that hold none of the field's bits are left alone. -/
theorem Memory.read_writeBits (m : List Host.Cell) (q n v a : Nat) (h : ∀ i < n, (q + i) / 8 ≠ a) :
    Memory.read (Memory.writeBits m q n v) a = Memory.read m a := by
  induction n generalizing v with
  | zero => rfl
  | succ n ih =>
    rw [Memory.writeBits, Memory.setBit, Memory.read_write, if_neg (fun he => h n (by omega) he.symm),
      ih _ fun i hi => h i (by omega)]

theorem Memory.wf_writeBits {m : List Host.Cell} (h : Memory.wf m) (q n v : Nat) :
    Memory.wf (Memory.writeBits m q n v) := by
  induction n generalizing v with
  | zero => exact h
  | succ n ih => exact Memory.wf_write (ih _) _ _

theorem Memory.writeBits_lists {m : List Host.Cell} {q n v : Nat} {c : Host.Cell} (h : c ∈ Memory.writeBits m q n v) :
    (∃ i < n, c.1 = (q + i) / 8) ∨ c ∈ m := by
  induction n generalizing v with
  | zero => exact .inr h
  | succ n ih =>
    rcases Memory.write_lists h with h | h
    · exact .inl ⟨n, by omega, h⟩
    · rcases ih h with ⟨i, hi, he⟩ | h
      · exact .inl ⟨i, by omega, he⟩
      · exact .inr h

/-- Two bytes with the same stream bits are the same byte. -/
theorem Memory.read_ext {m m' : List Host.Cell} {a : Nat}
    (h : ∀ p, p / 8 = a → Memory.bit m p = Memory.bit m' p) : Memory.read m a = Memory.read m' a := by
  refine BitVec.eq_of_getLsbD_eq fun i hi => ?_
  have := h (8 * a + (7 - i)) (by omega)
  unfold Memory.bit at this
  rwa [show (8 * a + (7 - i)) / 8 = a by omega, show 7 - (8 * a + (7 - i)) % 8 = i by omega] at this

end Sys2Proof.Machine
end

