-- ==== Sys2Proof/Laws/State.lean ====
section
/-! SUPPORT. One lemma per field per update of State, so that no proof unfolds a record update. -/

namespace Sys2Proof.Machine.State

section
variable (s : State) (x : List Host.Cell)
@[simp] theorem setBuf_buf : (s.setBuf x).buf = x := rfl
@[simp] theorem setBuf_len : (s.setBuf x).len = s.len := rfl
@[simp] theorem setBuf_cur : (s.setBuf x).cur = s.cur := rfl
@[simp] theorem setBuf_f : (s.setBuf x).f = s.f := rfl
@[simp] theorem setBuf_fv : (s.setBuf x).fv = s.fv := rfl
@[simp] theorem setBuf_erracc : (s.setBuf x).erracc = s.erracc := rfl
@[simp] theorem setBuf_bcnt : (s.setBuf x).bcnt = s.bcnt := rfl
@[simp] theorem setBuf_plen : (s.setBuf x).plen = s.plen := rfl
@[simp] theorem setBuf_poff : (s.setBuf x).poff = s.poff := rfl
@[simp] theorem setBuf_rval : (s.setBuf x).rval = s.rval := rfl
@[simp] theorem setBuf_rsp : (s.setBuf x).rsp = s.rsp := rfl
@[simp] theorem setBuf_inputs : (s.setBuf x).inputs = s.inputs := rfl
end

section
variable (s : State) (x : BitVec 21)
@[simp] theorem setLen_buf : (s.setLen x).buf = s.buf := rfl
@[simp] theorem setLen_len : (s.setLen x).len = x := rfl
@[simp] theorem setLen_cur : (s.setLen x).cur = s.cur := rfl
@[simp] theorem setLen_f : (s.setLen x).f = s.f := rfl
@[simp] theorem setLen_fv : (s.setLen x).fv = s.fv := rfl
@[simp] theorem setLen_erracc : (s.setLen x).erracc = s.erracc := rfl
@[simp] theorem setLen_bcnt : (s.setLen x).bcnt = s.bcnt := rfl
@[simp] theorem setLen_plen : (s.setLen x).plen = s.plen := rfl
@[simp] theorem setLen_poff : (s.setLen x).poff = s.poff := rfl
@[simp] theorem setLen_rval : (s.setLen x).rval = s.rval := rfl
@[simp] theorem setLen_rsp : (s.setLen x).rsp = s.rsp := rfl
@[simp] theorem setLen_inputs : (s.setLen x).inputs = s.inputs := rfl
end

section
variable (s : State) (x : BitVec 24)
@[simp] theorem setCur_buf : (s.setCur x).buf = s.buf := rfl
@[simp] theorem setCur_len : (s.setCur x).len = s.len := rfl
@[simp] theorem setCur_cur : (s.setCur x).cur = x := rfl
@[simp] theorem setCur_f : (s.setCur x).f = s.f := rfl
@[simp] theorem setCur_fv : (s.setCur x).fv = s.fv := rfl
@[simp] theorem setCur_erracc : (s.setCur x).erracc = s.erracc := rfl
@[simp] theorem setCur_bcnt : (s.setCur x).bcnt = s.bcnt := rfl
@[simp] theorem setCur_plen : (s.setCur x).plen = s.plen := rfl
@[simp] theorem setCur_poff : (s.setCur x).poff = s.poff := rfl
@[simp] theorem setCur_rval : (s.setCur x).rval = s.rval := rfl
@[simp] theorem setCur_rsp : (s.setCur x).rsp = s.rsp := rfl
@[simp] theorem setCur_inputs : (s.setCur x).inputs = s.inputs := rfl
end

section
variable (s : State) (x : Vector Word 16)
@[simp] theorem setF_buf : (s.setF x).buf = s.buf := rfl
@[simp] theorem setF_len : (s.setF x).len = s.len := rfl
@[simp] theorem setF_cur : (s.setF x).cur = s.cur := rfl
@[simp] theorem setF_f : (s.setF x).f = x := rfl
@[simp] theorem setF_fv : (s.setF x).fv = s.fv := rfl
@[simp] theorem setF_erracc : (s.setF x).erracc = s.erracc := rfl
@[simp] theorem setF_bcnt : (s.setF x).bcnt = s.bcnt := rfl
@[simp] theorem setF_plen : (s.setF x).plen = s.plen := rfl
@[simp] theorem setF_poff : (s.setF x).poff = s.poff := rfl
@[simp] theorem setF_rval : (s.setF x).rval = s.rval := rfl
@[simp] theorem setF_rsp : (s.setF x).rsp = s.rsp := rfl
@[simp] theorem setF_inputs : (s.setF x).inputs = s.inputs := rfl
end

section
variable (s : State) (x : BitVec 16)
@[simp] theorem setFv_buf : (s.setFv x).buf = s.buf := rfl
@[simp] theorem setFv_len : (s.setFv x).len = s.len := rfl
@[simp] theorem setFv_cur : (s.setFv x).cur = s.cur := rfl
@[simp] theorem setFv_f : (s.setFv x).f = s.f := rfl
@[simp] theorem setFv_fv : (s.setFv x).fv = x := rfl
@[simp] theorem setFv_erracc : (s.setFv x).erracc = s.erracc := rfl
@[simp] theorem setFv_bcnt : (s.setFv x).bcnt = s.bcnt := rfl
@[simp] theorem setFv_plen : (s.setFv x).plen = s.plen := rfl
@[simp] theorem setFv_poff : (s.setFv x).poff = s.poff := rfl
@[simp] theorem setFv_rval : (s.setFv x).rval = s.rval := rfl
@[simp] theorem setFv_rsp : (s.setFv x).rsp = s.rsp := rfl
@[simp] theorem setFv_inputs : (s.setFv x).inputs = s.inputs := rfl
end

section
variable (s : State) (x : BitVec 5)
@[simp] theorem setErracc_buf : (s.setErracc x).buf = s.buf := rfl
@[simp] theorem setErracc_len : (s.setErracc x).len = s.len := rfl
@[simp] theorem setErracc_cur : (s.setErracc x).cur = s.cur := rfl
@[simp] theorem setErracc_f : (s.setErracc x).f = s.f := rfl
@[simp] theorem setErracc_fv : (s.setErracc x).fv = s.fv := rfl
@[simp] theorem setErracc_erracc : (s.setErracc x).erracc = x := rfl
@[simp] theorem setErracc_bcnt : (s.setErracc x).bcnt = s.bcnt := rfl
@[simp] theorem setErracc_plen : (s.setErracc x).plen = s.plen := rfl
@[simp] theorem setErracc_poff : (s.setErracc x).poff = s.poff := rfl
@[simp] theorem setErracc_rval : (s.setErracc x).rval = s.rval := rfl
@[simp] theorem setErracc_rsp : (s.setErracc x).rsp = s.rsp := rfl
@[simp] theorem setErracc_inputs : (s.setErracc x).inputs = s.inputs := rfl
end

section
variable (s : State) (x : BitVec 32)
@[simp] theorem setBcnt_buf : (s.setBcnt x).buf = s.buf := rfl
@[simp] theorem setBcnt_len : (s.setBcnt x).len = s.len := rfl
@[simp] theorem setBcnt_cur : (s.setBcnt x).cur = s.cur := rfl
@[simp] theorem setBcnt_f : (s.setBcnt x).f = s.f := rfl
@[simp] theorem setBcnt_fv : (s.setBcnt x).fv = s.fv := rfl
@[simp] theorem setBcnt_erracc : (s.setBcnt x).erracc = s.erracc := rfl
@[simp] theorem setBcnt_bcnt : (s.setBcnt x).bcnt = x := rfl
@[simp] theorem setBcnt_plen : (s.setBcnt x).plen = s.plen := rfl
@[simp] theorem setBcnt_poff : (s.setBcnt x).poff = s.poff := rfl
@[simp] theorem setBcnt_rval : (s.setBcnt x).rval = s.rval := rfl
@[simp] theorem setBcnt_rsp : (s.setBcnt x).rsp = s.rsp := rfl
@[simp] theorem setBcnt_inputs : (s.setBcnt x).inputs = s.inputs := rfl
end

section
variable (s : State) (x : BitVec 16)
@[simp] theorem setPlen_buf : (s.setPlen x).buf = s.buf := rfl
@[simp] theorem setPlen_len : (s.setPlen x).len = s.len := rfl
@[simp] theorem setPlen_cur : (s.setPlen x).cur = s.cur := rfl
@[simp] theorem setPlen_f : (s.setPlen x).f = s.f := rfl
@[simp] theorem setPlen_fv : (s.setPlen x).fv = s.fv := rfl
@[simp] theorem setPlen_erracc : (s.setPlen x).erracc = s.erracc := rfl
@[simp] theorem setPlen_bcnt : (s.setPlen x).bcnt = s.bcnt := rfl
@[simp] theorem setPlen_plen : (s.setPlen x).plen = x := rfl
@[simp] theorem setPlen_poff : (s.setPlen x).poff = s.poff := rfl
@[simp] theorem setPlen_rval : (s.setPlen x).rval = s.rval := rfl
@[simp] theorem setPlen_rsp : (s.setPlen x).rsp = s.rsp := rfl
@[simp] theorem setPlen_inputs : (s.setPlen x).inputs = s.inputs := rfl
end

section
variable (s : State) (x : BitVec 24)
@[simp] theorem setPoff_buf : (s.setPoff x).buf = s.buf := rfl
@[simp] theorem setPoff_len : (s.setPoff x).len = s.len := rfl
@[simp] theorem setPoff_cur : (s.setPoff x).cur = s.cur := rfl
@[simp] theorem setPoff_f : (s.setPoff x).f = s.f := rfl
@[simp] theorem setPoff_fv : (s.setPoff x).fv = s.fv := rfl
@[simp] theorem setPoff_erracc : (s.setPoff x).erracc = s.erracc := rfl
@[simp] theorem setPoff_bcnt : (s.setPoff x).bcnt = s.bcnt := rfl
@[simp] theorem setPoff_plen : (s.setPoff x).plen = s.plen := rfl
@[simp] theorem setPoff_poff : (s.setPoff x).poff = x := rfl
@[simp] theorem setPoff_rval : (s.setPoff x).rval = s.rval := rfl
@[simp] theorem setPoff_rsp : (s.setPoff x).rsp = s.rsp := rfl
@[simp] theorem setPoff_inputs : (s.setPoff x).inputs = s.inputs := rfl
end

section
variable (s : State) (x : Word)
@[simp] theorem setRval_buf : (s.setRval x).buf = s.buf := rfl
@[simp] theorem setRval_len : (s.setRval x).len = s.len := rfl
@[simp] theorem setRval_cur : (s.setRval x).cur = s.cur := rfl
@[simp] theorem setRval_f : (s.setRval x).f = s.f := rfl
@[simp] theorem setRval_fv : (s.setRval x).fv = s.fv := rfl
@[simp] theorem setRval_erracc : (s.setRval x).erracc = s.erracc := rfl
@[simp] theorem setRval_bcnt : (s.setRval x).bcnt = s.bcnt := rfl
@[simp] theorem setRval_plen : (s.setRval x).plen = s.plen := rfl
@[simp] theorem setRval_poff : (s.setRval x).poff = s.poff := rfl
@[simp] theorem setRval_rval : (s.setRval x).rval = x := rfl
@[simp] theorem setRval_rsp : (s.setRval x).rsp = s.rsp := rfl
@[simp] theorem setRval_inputs : (s.setRval x).inputs = s.inputs := rfl
end

section
variable (s : State) (x : Option Response)
@[simp] theorem setRsp_buf : (s.setRsp x).buf = s.buf := rfl
@[simp] theorem setRsp_len : (s.setRsp x).len = s.len := rfl
@[simp] theorem setRsp_cur : (s.setRsp x).cur = s.cur := rfl
@[simp] theorem setRsp_f : (s.setRsp x).f = s.f := rfl
@[simp] theorem setRsp_fv : (s.setRsp x).fv = s.fv := rfl
@[simp] theorem setRsp_erracc : (s.setRsp x).erracc = s.erracc := rfl
@[simp] theorem setRsp_bcnt : (s.setRsp x).bcnt = s.bcnt := rfl
@[simp] theorem setRsp_plen : (s.setRsp x).plen = s.plen := rfl
@[simp] theorem setRsp_poff : (s.setRsp x).poff = s.poff := rfl
@[simp] theorem setRsp_rval : (s.setRsp x).rval = s.rval := rfl
@[simp] theorem setRsp_rsp : (s.setRsp x).rsp = x := rfl
@[simp] theorem setRsp_inputs : (s.setRsp x).inputs = s.inputs := rfl
end

section
variable (s : State) (x : List HostInput)
@[simp] theorem setInputs_buf : (s.setInputs x).buf = s.buf := rfl
@[simp] theorem setInputs_len : (s.setInputs x).len = s.len := rfl
@[simp] theorem setInputs_cur : (s.setInputs x).cur = s.cur := rfl
@[simp] theorem setInputs_f : (s.setInputs x).f = s.f := rfl
@[simp] theorem setInputs_fv : (s.setInputs x).fv = s.fv := rfl
@[simp] theorem setInputs_erracc : (s.setInputs x).erracc = s.erracc := rfl
@[simp] theorem setInputs_bcnt : (s.setInputs x).bcnt = s.bcnt := rfl
@[simp] theorem setInputs_plen : (s.setInputs x).plen = s.plen := rfl
@[simp] theorem setInputs_poff : (s.setInputs x).poff = s.poff := rfl
@[simp] theorem setInputs_rval : (s.setInputs x).rval = s.rval := rfl
@[simp] theorem setInputs_rsp : (s.setInputs x).rsp = s.rsp := rfl
@[simp] theorem setInputs_inputs : (s.setInputs x).inputs = x := rfl
end

end Sys2Proof.Machine.State
end

