-- ==== Sys2Proof/Laws/Ops.lean ====
section
/-! SUPPORT. The shared operations: what each does to every field, and the one lemma that says everything it can do. -/

namespace Sys2Proof.Machine

section
variable (e : ErrorKind) (s : State)
@[simp] theorem raise_buf : (raise e s).buf = s.buf := rfl
@[simp] theorem raise_len : (raise e s).len = s.len := rfl
@[simp] theorem raise_cur : (raise e s).cur = s.cur := rfl
@[simp] theorem raise_f : (raise e s).f = s.f := rfl
@[simp] theorem raise_fv : (raise e s).fv = s.fv := rfl
@[simp] theorem raise_erracc : (raise e s).erracc = erraccAfter s.erracc e := rfl
@[simp] theorem raise_bcnt : (raise e s).bcnt = s.bcnt := rfl
@[simp] theorem raise_plen : (raise e s).plen = s.plen := rfl
@[simp] theorem raise_poff : (raise e s).poff = s.poff := rfl
@[simp] theorem raise_rval : (raise e s).rval = s.rval := rfl
@[simp] theorem raise_rsp : (raise e s).rsp = some { err := some e, val := 0 } := rfl
@[simp] theorem raise_inputs : (raise e s).inputs = s.inputs := rfl
end

section
variable (v : Word) (s : State)
@[simp] theorem respond_buf : (respond v s).buf = s.buf := rfl
@[simp] theorem respond_len : (respond v s).len = s.len := rfl
@[simp] theorem respond_cur : (respond v s).cur = s.cur := rfl
@[simp] theorem respond_f : (respond v s).f = s.f := rfl
@[simp] theorem respond_fv : (respond v s).fv = s.fv := rfl
@[simp] theorem respond_erracc : (respond v s).erracc = s.erracc := rfl
@[simp] theorem respond_bcnt : (respond v s).bcnt = s.bcnt := rfl
@[simp] theorem respond_plen : (respond v s).plen = s.plen := rfl
@[simp] theorem respond_poff : (respond v s).poff = s.poff := rfl
@[simp] theorem respond_rval : (respond v s).rval = s.rval := rfl
@[simp] theorem respond_rsp : (respond v s).rsp = some { err := none, val := v } := rfl
@[simp] theorem respond_inputs : (respond v s).inputs = s.inputs := rfl
end

section
variable (q : Nat) (s : State)
@[simp] theorem State.moveTo_buf : (s.moveTo q).buf = s.buf := rfl
@[simp] theorem State.moveTo_len : (s.moveTo q).len = s.len := rfl
@[simp] theorem State.moveTo_cur : (s.moveTo q).cur = BitVec.ofNat 24 q := rfl
@[simp] theorem State.moveTo_f : (s.moveTo q).f = s.f := rfl
@[simp] theorem State.moveTo_fv : (s.moveTo q).fv = s.fv := rfl
@[simp] theorem State.moveTo_erracc : (s.moveTo q).erracc = s.erracc := rfl
@[simp] theorem State.moveTo_bcnt : (s.moveTo q).bcnt = s.bcnt := rfl
@[simp] theorem State.moveTo_plen : (s.moveTo q).plen = s.plen := rfl
@[simp] theorem State.moveTo_poff : (s.moveTo q).poff = s.poff := rfl
@[simp] theorem State.moveTo_rval : (s.moveTo q).rval = s.rval := rfl
@[simp] theorem State.moveTo_rsp : (s.moveTo q).rsp = s.rsp := rfl
@[simp] theorem State.moveTo_inputs : (s.moveTo q).inputs = s.inputs := rfl
end

section
variable (rs : List (BitVec 4 × Word)) (fv : BitVec 16) (s : State)
@[simp] theorem State.populate_buf : (s.populate rs fv).buf = s.buf := rfl
@[simp] theorem State.populate_len : (s.populate rs fv).len = s.len := rfl
@[simp] theorem State.populate_cur : (s.populate rs fv).cur = s.cur := rfl
@[simp] theorem State.populate_f : (s.populate rs fv).f = regSetAll s.f rs := rfl
@[simp] theorem State.populate_fv : (s.populate rs fv).fv = fv := rfl
@[simp] theorem State.populate_erracc : (s.populate rs fv).erracc = s.erracc := rfl
@[simp] theorem State.populate_bcnt : (s.populate rs fv).bcnt = s.bcnt := rfl
@[simp] theorem State.populate_plen : (s.populate rs fv).plen = s.plen := rfl
@[simp] theorem State.populate_poff : (s.populate rs fv).poff = s.poff := rfl
@[simp] theorem State.populate_rval : (s.populate rs fv).rval = s.rval := rfl
@[simp] theorem State.populate_rsp : (s.populate rs fv).rsp = s.rsp := rfl
@[simp] theorem State.populate_inputs : (s.populate rs fv).inputs = s.inputs := rfl
end

section
variable  (s : State)
@[simp] theorem idle_buf : (idle s).buf = s.buf := rfl
@[simp] theorem idle_len : (idle s).len = s.len := rfl
@[simp] theorem idle_cur : (idle s).cur = s.cur := rfl
@[simp] theorem idle_f : (idle s).f = s.f := rfl
@[simp] theorem idle_fv : (idle s).fv = s.fv := rfl
@[simp] theorem idle_erracc : (idle s).erracc = s.erracc := rfl
@[simp] theorem idle_bcnt : (idle s).bcnt = s.bcnt := rfl
@[simp] theorem idle_plen : (idle s).plen = s.plen := rfl
@[simp] theorem idle_poff : (idle s).poff = s.poff := rfl
@[simp] theorem idle_rval : (idle s).rval = s.rval := rfl
@[simp] theorem idle_rsp : (idle s).rsp = none := rfl
@[simp] theorem idle_inputs : (idle s).inputs = s.inputs := rfl
end

section
variable (n : Nat) (s : State)
@[simp] theorem State.grow_cur : (s.grow n).cur = s.cur := by unfold State.grow; split <;> rfl
@[simp] theorem State.grow_f : (s.grow n).f = s.f := by unfold State.grow; split <;> rfl
@[simp] theorem State.grow_fv : (s.grow n).fv = s.fv := by unfold State.grow; split <;> rfl
@[simp] theorem State.grow_erracc : (s.grow n).erracc = s.erracc := by unfold State.grow; split <;> rfl
@[simp] theorem State.grow_bcnt : (s.grow n).bcnt = s.bcnt := by unfold State.grow; split <;> rfl
@[simp] theorem State.grow_plen : (s.grow n).plen = s.plen := by unfold State.grow; split <;> rfl
@[simp] theorem State.grow_poff : (s.grow n).poff = s.poff := by unfold State.grow; split <;> rfl
@[simp] theorem State.grow_rval : (s.grow n).rval = s.rval := by unfold State.grow; split <;> rfl
@[simp] theorem State.grow_rsp : (s.grow n).rsp = s.rsp := by unfold State.grow; split <;> rfl
@[simp] theorem State.grow_inputs : (s.grow n).inputs = s.inputs := by unfold State.grow; split <;> rfl
end

section
variable (q n v : Nat) (s : State)
@[simp] theorem State.memWrite_cur : (s.memWrite q n v).cur = s.cur := State.grow_cur _ s
@[simp] theorem State.memWrite_f : (s.memWrite q n v).f = s.f := State.grow_f _ s
@[simp] theorem State.memWrite_fv : (s.memWrite q n v).fv = s.fv := State.grow_fv _ s
@[simp] theorem State.memWrite_erracc : (s.memWrite q n v).erracc = s.erracc := State.grow_erracc _ s
@[simp] theorem State.memWrite_bcnt : (s.memWrite q n v).bcnt = s.bcnt := State.grow_bcnt _ s
@[simp] theorem State.memWrite_plen : (s.memWrite q n v).plen = s.plen := State.grow_plen _ s
@[simp] theorem State.memWrite_poff : (s.memWrite q n v).poff = s.poff := State.grow_poff _ s
@[simp] theorem State.memWrite_rval : (s.memWrite q n v).rval = s.rval := State.grow_rval _ s
@[simp] theorem State.memWrite_rsp : (s.memWrite q n v).rsp = s.rsp := State.grow_rsp _ s
@[simp] theorem State.memWrite_inputs : (s.memWrite q n v).inputs = s.inputs := State.grow_inputs _ s
end

section
variable (idx : Nat) (b : Byte) (s : State)
@[simp] theorem State.storeByte_cur : (s.storeByte idx b).cur = s.cur := State.grow_cur _ s
@[simp] theorem State.storeByte_f : (s.storeByte idx b).f = s.f := State.grow_f _ s
@[simp] theorem State.storeByte_fv : (s.storeByte idx b).fv = s.fv := State.grow_fv _ s
@[simp] theorem State.storeByte_erracc : (s.storeByte idx b).erracc = s.erracc := State.grow_erracc _ s
@[simp] theorem State.storeByte_bcnt : (s.storeByte idx b).bcnt = s.bcnt := State.grow_bcnt _ s
@[simp] theorem State.storeByte_plen : (s.storeByte idx b).plen = s.plen := State.grow_plen _ s
@[simp] theorem State.storeByte_poff : (s.storeByte idx b).poff = s.poff := State.grow_poff _ s
@[simp] theorem State.storeByte_rval : (s.storeByte idx b).rval = s.rval := State.grow_rval _ s
@[simp] theorem State.storeByte_rsp : (s.storeByte idx b).rsp = s.rsp := State.grow_rsp _ s
@[simp] theorem State.storeByte_inputs : (s.storeByte idx b).inputs = s.inputs := State.grow_inputs _ s
end

section
variable (n : Nat) (s : State)
@[simp] theorem State.resize_cur : (s.resize n).cur = s.cur := State.grow_cur _ s
@[simp] theorem State.resize_f : (s.resize n).f = s.f := State.grow_f _ s
@[simp] theorem State.resize_fv : (s.resize n).fv = s.fv := State.grow_fv _ s
@[simp] theorem State.resize_erracc : (s.resize n).erracc = s.erracc := State.grow_erracc _ s
@[simp] theorem State.resize_bcnt : (s.resize n).bcnt = s.bcnt := State.grow_bcnt _ s
@[simp] theorem State.resize_plen : (s.resize n).plen = s.plen := State.grow_plen _ s
@[simp] theorem State.resize_poff : (s.resize n).poff = s.poff := State.grow_poff _ s
@[simp] theorem State.resize_rval : (s.resize n).rval = s.rval := State.grow_rval _ s
@[simp] theorem State.resize_rsp : (s.resize n).rsp = s.rsp := State.grow_rsp _ s
@[simp] theorem State.resize_inputs : (s.resize n).inputs = s.inputs := State.grow_inputs _ s
end

/-! ### Growth, MemWrite and the stores -/

theorem State.grow_len (n : Nat) (s : State) (hn : n < 2 ^ 21) : (s.grow n).len.toNat = max s.len.toNat n := by
  unfold State.grow
  split
  · rw [State.setLen_len, BitVec.toNat_ofNat, Nat.mod_eq_of_lt hn]
    omega
  · omega

/-- Growth clears the bytes it brings inside LEN and keeps every other (20_memory R54). -/
theorem State.read_grow (n : Nat) (s : State) (a : Nat) :
    Memory.read (s.grow n).buf a = if s.len.toNat ≤ a ∧ a < n then 0 else Memory.read s.buf a := by
  unfold State.grow
  split
  · exact Memory.read_zeroRange _ _ _ _
  · rw [if_neg (by omega)]

theorem State.memWrite_len (q n v : Nat) (s : State) (h : q + n ≤ capacityBits) :
    (s.memWrite q n v).len.toNat = max s.len.toNat ((q + n + 7) / 8) :=
  State.grow_len _ _ (by unfold capacityBits Config.bufBytes at h; omega)

/-- The stream bits after MemWrite: the field's own, cleared ones in the bytes grown, all others kept (20_memory R54). -/
theorem State.bit_memWrite (q n v : Nat) (s : State) (p : Nat) :
    Memory.bit (s.memWrite q n v).buf p =
      if q ≤ p ∧ p < q + n then v.testBit (n - 1 - (p - q))
      else if s.len.toNat ≤ p / 8 ∧ p / 8 < (q + n + 7) / 8 then false
      else Memory.bit s.buf p := by
  unfold State.memWrite
  simp only [State.setBuf_buf, Memory.bit_writeBits]
  by_cases h : q ≤ p ∧ p < q + n
  · rw [if_pos h, if_pos h]
  · rw [if_neg h, if_neg h]
    unfold Memory.bit
    rw [State.read_grow]
    split <;> simp

/-- The bytes after MemWrite that hold none of the field's bits (20_memory R54). -/
theorem State.read_memWrite (q n v : Nat) (s : State) (a : Nat) (h : ∀ i < n, (q + i) / 8 ≠ a) :
    Memory.read (s.memWrite q n v).buf a =
      if s.len.toNat ≤ a ∧ a < (q + n + 7) / 8 then 0 else Memory.read s.buf a := by
  unfold State.memWrite
  simp only [State.setBuf_buf]
  rw [Memory.read_writeBits _ _ _ _ _ h, State.read_grow]

theorem State.storeByte_len (idx : Nat) (b : Byte) (s : State) (h : idx < Config.bufBytes) :
    (s.storeByte idx b).len.toNat = max s.len.toNat (idx + 1) :=
  State.grow_len _ _ (by unfold Config.bufBytes at h; omega)

theorem State.read_storeByte (idx : Nat) (b : Byte) (s : State) (a : Nat) :
    Memory.read (s.storeByte idx b).buf a =
      if a = idx then b else if s.len.toNat ≤ a ∧ a < idx then 0 else Memory.read s.buf a := by
  unfold State.storeByte
  simp only [State.setBuf_buf, Memory.read_write, State.read_grow]
  by_cases h : a = idx
  · rw [if_pos h, if_pos h]
  · rw [if_neg h, if_neg h]
    by_cases h2 : s.len.toNat ≤ a ∧ a < idx
    · rw [if_pos h2, if_pos (by omega)]
    · rw [if_neg h2, if_neg (by omega)]

theorem State.resize_len (n : Nat) (s : State) (hn : n < 2 ^ 21) : (s.resize n).len.toNat = n := by
  unfold State.resize
  rw [State.setLen_len, BitVec.toNat_ofNat, Nat.mod_eq_of_lt hn]

theorem State.read_resize (n : Nat) (s : State) (a : Nat) :
    Memory.read (s.resize n).buf a = if s.len.toNat ≤ a ∧ a < n then 0 else Memory.read s.buf a :=
  State.read_grow n s a

/-! ### Tests, takes and completion -/

@[simp] theorem raiseIf_bind {α : Type} (p : Prop) [Decidable p] (e : ErrorKind) (k : Unit → Except ErrorKind α) :
    (raiseIf p e >>= k) = if p then .error e else k () := by
  unfold raiseIf
  split <;> rfl

@[simp] theorem take_bind {α : Type} (s : State) (p n : Nat) (k : Nat × Nat → Except ErrorKind α) :
    (take s p n >>= k) =
      if s.validBits < p + n then .error .truncatedInput else k (Memory.readBits s.buf p n, p + n) := by
  unfold take
  split <;> rfl

@[simp] theorem takeIf_true (s : State) (p n : Nat) : takeIf true s p n = take s p n := rfl

@[simp] theorem takeIf_false (s : State) (p n : Nat) : takeIf false s p n = .ok (0, p) := rfl

@[simp] theorem ok_bind {α β : Type} (a : α) (k : α → Except ErrorKind β) : ((.ok a : Except ErrorKind α) >>= k) = k a :=
  rfl

@[simp] theorem error_bind {α β : Type} (e : ErrorKind) (k : α → Except ErrorKind β) :
    ((.error e : Except ErrorKind α) >>= k) = .error e := rfl

@[simp] theorem complete_ok (s t : State) (v : Word) : complete s (.ok (t, v)) = .next (respond v t) := rfl

@[simp] theorem complete_pure (s t : State) (v : Word) : complete s (pure (t, v)) = .next (respond v t) := rfl

@[simp] theorem complete_error (s : State) (e : ErrorKind) : complete s (.error e) = .next (raise e s) := rfl

/-- A command ends in its commit or in an abort, nothing else. -/
theorem complete_next {s t : State} {r : Effect} (h : complete s r = .next t) :
    (∃ u v, r = .ok (u, v) ∧ t = respond v u) ∨ (∃ e, r = .error e ∧ t = raise e s) := by
  cases r with
  | ok x => exact .inl ⟨x.1, x.2, rfl, (Host.Outcome.next.inj h).symm⟩
  | error e => exact .inr ⟨e, rfl, (Host.Outcome.next.inj h).symm⟩

/-! ### Result registers -/

theorem regGet_regSet (f : Vector Word 16) (i : BitVec 4) (v : Word) (j : BitVec 4) :
    regGet (regSet f i v) j = if j = i then v else regGet f j := by
  unfold regGet regSet
  rw [Vector.getElem_set]
  by_cases h : j = i
  · rw [if_pos (by rw [h]), if_pos h]
  · rw [if_neg (fun he => h (BitVec.eq_of_toNat_eq he.symm)), if_neg h]

theorem operandF_valid {s : State} {i : BitVec 4} (h : fvValid s.fv i = true) :
    operandF s i = .ok (regGet s.f i) := by
  simp [operandF, State.result, h]

theorem operandF_invalid {s : State} {i : BitVec 4} (h : fvValid s.fv i = false) :
    operandF s i = .error .operand := by
  simp [operandF, State.result, h]

theorem fvValid_fvSet (fv : BitVec 16) (i j : BitVec 4) : fvValid (fvSet fv i) j = (decide (j = i) || fvValid fv j) := by
  have h : (1#16 <<< i.toNat).getLsbD j.toNat = decide (j = i) := by
    have hj := j.isLt
    simp only [BitVec.getLsbD_shiftLeft, BitVec.getLsbD_one]
    by_cases h : j = i
    · simp [h, i.isLt]
    · have : j.toNat ≠ i.toNat := fun he => h (BitVec.eq_of_toNat_eq he)
      simp [h]
      omega
  rw [fvValid, fvSet, BitVec.getLsbD_or, h, Bool.or_comm]
  rfl

end Sys2Proof.Machine
end

