-- ==== Sys2Proof/Laws/Commands.lean ====
section
/-! SUPPORT. One equation per command: everything it can answer, with its tests in order and its commit. -/

namespace Sys2Proof.Machine

/-! ### Result registers after a decode -/

/-- The registers after a list of writes to distinct registers. -/
theorem regGet_regSetAll (f : Vector Word 16) (rs : List (BitVec 4 × Word)) (hn : (rs.map Prod.fst).Nodup) (i : BitVec 4) :
    regGet (regSetAll f rs) i = (rs.lookup i).getD (regGet f i) := by
  induction rs generalizing f with
  | nil => rfl
  | cons r rs ih =>
    have hn := List.nodup_cons.mp (by simpa using hn : (r.1 :: rs.map Prod.fst).Nodup)
    rw [regSetAll, ih _ hn.2, regGet_regSet, List.lookup_cons]
    by_cases h : i = r.1
    · have : rs.lookup i = none := by
        rw [List.lookup_eq_none_iff]
        intro p hp
        exact bne_iff_ne.mpr fun he => hn.1 (List.mem_map.mpr ⟨p, hp, (he.symm.trans h)⟩)
      rw [this, if_pos h, beq_iff_eq.mpr h]
      rfl
    · rw [if_neg h, beq_eq_false_iff_ne.mpr h]

theorem lookup_wordOf (vals : List (BitVec 4 × Nat)) (i : BitVec 4) :
    (vals.map fun p => (p.1, wordOf p.2)).lookup i = (vals.lookup i).map wordOf := by
  induction vals with
  | nil => rfl
  | cons p vs ih =>
    rw [List.map_cons, List.lookup_cons, List.lookup_cons, ih]
    cases i == p.1 <;> rfl

/-- After a commit of a decode command whose mask names the registers it writes, exactly those hold values (10_state R27). -/
theorem holdsExactly_populated {t : State} {f : Vector Word 16} {vals : List (BitVec 4 × Nat)}
    (hf : t.f = regSetAll f (vals.map fun p => (p.1, wordOf p.2))) (hn : (vals.map Prod.fst).Nodup)
    (hv : ∀ i, fvValid t.fv i = (vals.map Prod.fst).contains i) : HoldsExactly t vals := by
  intro i
  have hn' : ((vals.map fun p => (p.1, wordOf p.2)).map Prod.fst).Nodup := by
    rw [List.map_map]
    exact hn
  rw [State.result, hf, hv, regGet_regSetAll _ _ hn', lookup_wordOf]
  cases hx : vals.lookup i with
  | none =>
    rw [if_neg]
    · rfl
    · rw [List.lookup_eq_none_iff] at hx
      simp only [List.contains_eq_mem, List.mem_map, decide_eq_true_eq, not_exists, not_and]
      intro p hp he
      have := hx p hp
      simp [he] at this
  | some v =>
    rw [if_pos]
    · rfl
    · by_contra hc
      have : vals.lookup i = none := by
        rw [List.lookup_eq_none_iff]
        intro p hp
        refine bne_iff_ne.mpr fun he => hc ?_
        simp only [List.contains_eq_mem, List.mem_map, decide_eq_true_eq]
        exact ⟨p, hp, he.symm⟩
      rw [this] at hx
      cases hx

/-! ### Stream bits as the spec writes them -/

theorem streamBit_eq (s : State) (q : Nat) : streamBit s q = (Memory.bit s.buf q).toNat := by
  simp only [streamBit, Memory.bit, BitVec.getLsbD, Nat.testBit_eq_decide_div_mod_eq]
  rcases Nat.mod_two_eq_zero_or_one ((Memory.read s.buf (q / 8)).toNat / 2 ^ (7 - q % 8)) with h | h <;> simp [h]

theorem streamField_eq (s : State) (q n : Nat) : streamField s q n = Memory.readBits s.buf q n := by
  rw [Memory.readBits_eq_sum]
  exact Finset.sum_congr rfl fun i _ => by rw [streamBit_eq]

theorem streamField_lt (s : State) (q n : Nat) : streamField s q n < 2 ^ n := by
  rw [streamField_eq]
  exact Memory.readBits_lt _ _ _

/-! ### Fields of a value read -/

theorem zext_eq_wordOf {w : Nat} (x : BitVec w) : zext x = wordOf x.toNat := by
  refine BitVec.eq_of_toNat_eq ?_
  simp only [zext, wordOf, BitVec.toNat_setWidth, BitVec.toNat_ofNat]

/-- A slice of a value read from the stream is the field at its place. -/
theorem slice_toNat (m : List Host.Cell) (q w lo k : Nat) (h : lo + k ≤ w) :
    ((BitVec.ofNat w (Memory.readBits m q w)).extractLsb' lo k).toNat = Memory.readBits m (q + (w - lo - k)) k := by
  rw [BitVec.extractLsb'_toNat, BitVec.toNat_ofNat, Nat.mod_eq_of_lt (Memory.readBits_lt _ _ _),
    Nat.shiftRight_eq_div_pow, Memory.slice_readBits _ _ _ _ _ h]

/-- A bit of a value read from the stream is the stream bit at its place. -/
theorem slice_bit (m : List Host.Cell) (q w i : Nat) (h : i < w) :
    (BitVec.ofNat w (Memory.readBits m q w)).getLsbD i = Memory.bit m (q + (w - 1 - i)) := by
  rw [BitVec.getLsbD_ofNat, Memory.testBit_readBits _ _ _ _ h]
  simp [h]

theorem readBits_one (m : List Host.Cell) (q : Nat) : Memory.readBits m q 1 = (Memory.bit m q).toNat := by
  simp [Memory.readBits]

/-! ### Bit-field primitives -/

/-- Everything the reading primitives can do after their own limit (40_bitfield R101). -/
theorem readField_eq (n : Nat) (s : State) : readField n s =
    if n = 0 then .error .encoding
    else if s.validBits < s.cur.toNat + n then .error .truncatedInput
    else .ok ((s.setRval (wordOf (Memory.readBits s.buf s.cur.toNat n))).moveTo (s.cur.toNat + n),
      wordOf (Memory.readBits s.buf s.cur.toNat n)) := by
  simp only [readField, raiseIf_bind, take_bind]
  rfl

/-- Everything the writing primitives can do after their own limit (40_bitfield R104). -/
theorem writeField_eq (n : Nat) (v : Word) (s : State) : writeField n v s =
    if capacityBits < s.cur.toNat + n then .error .operand
    else if n = 0 then .error .encoding
    else if 2 ^ n ≤ v.toNat then .error .range
    else .ok ((s.memWrite s.cur.toNat n v.toNat).moveTo (s.cur.toNat + n), 0) := by
  simp only [writeField, raiseIf_bind]
  rfl

theorem execRdbits_eq (n : BitVec 24) (s : State) : execRdbits n s =
    if 128 < n.toNat then .next (raise .operand s) else complete s (readField n.toNat s) := by
  unfold execRdbits
  rw [raiseIf_bind]
  exact apply_ite (complete s) _ _ _

theorem execWrbits_eq (n : BitVec 24) (v : Word) (s : State) : execWrbits n v s =
    if 128 < n.toNat then .next (raise .operand s) else complete s (writeField n.toNat v s) := by
  unfold execWrbits
  rw [raiseIf_bind]
  exact apply_ite (complete s) _ _ _

theorem execRdbytes_eq (n : BitVec 24) (s : State) : execRdbytes n s =
    if 16 < n.toNat then .next (raise .operand s) else complete s (readField (8 * n.toNat) s) := by
  unfold execRdbytes
  rw [raiseIf_bind]
  exact apply_ite (complete s) _ _ _

theorem execWrbytes_eq (n : BitVec 24) (v : Word) (s : State) : execWrbytes n v s =
    if 16 < n.toNat then .next (raise .operand s) else complete s (writeField (8 * n.toNat) v s) := by
  unfold execWrbytes
  rw [raiseIf_bind]
  exact apply_ite (complete s) _ _ _

/-! ### Primary header -/

theorem execPhdec_eq (s : State) : execPhdec s =
    if s.validBits < s.cur.toNat + 48 then .next (raise .truncatedInput s)
    else .next (respond 0 ((s.populate (headerFields (BitVec.ofNat 48 (Memory.readBits s.buf s.cur.toNat 48)))
      fvHeader).moveTo (s.cur.toNat + 48))) := by
  simp only [execPhdec, take_bind]
  split <;> rfl

/-- PHENC when one of F0..F6 holds no value. -/
theorem execPhenc_invalid {s : State} {i : BitVec 4} (hi : i.toNat < 7) (h : fvValid s.fv i = false) :
    execPhenc s = .next (raise .operand s) := by
  have key : ∀ j : BitVec 4, (∃ v, operandF s j = .ok v) ∨ operandF s j = .error .operand := fun j => by
    cases hj : fvValid s.fv j
    · exact .inr (operandF_invalid hj)
    · exact .inl ⟨_, operandF_valid hj⟩
  have hx := operandF_invalid h
  unfold execPhenc
  rcases key 0 with ⟨_, h0⟩ | h0
  case inr => rw [h0]; rfl
  rcases key 1 with ⟨_, h1⟩ | h1
  case inr => rw [h0, ok_bind, h1]; rfl
  rcases key 2 with ⟨_, h2⟩ | h2
  case inr => rw [h0, ok_bind, h1, ok_bind, h2]; rfl
  rcases key 3 with ⟨_, h3⟩ | h3
  case inr => rw [h0, ok_bind, h1, ok_bind, h2, ok_bind, h3]; rfl
  rcases key 4 with ⟨_, h4⟩ | h4
  case inr => rw [h0, ok_bind, h1, ok_bind, h2, ok_bind, h3, ok_bind, h4]; rfl
  rcases key 5 with ⟨_, h5⟩ | h5
  case inr => rw [h0, ok_bind, h1, ok_bind, h2, ok_bind, h3, ok_bind, h4, ok_bind, h5]; rfl
  rcases key 6 with ⟨_, h6⟩ | h6
  case inr => rw [h0, ok_bind, h1, ok_bind, h2, ok_bind, h3, ok_bind, h4, ok_bind, h5, ok_bind, h6]; rfl
  have : i = 0 ∨ i = 1 ∨ i = 2 ∨ i = 3 ∨ i = 4 ∨ i = 5 ∨ i = 6 := by
    have : i.toNat = 0 ∨ i.toNat = 1 ∨ i.toNat = 2 ∨ i.toNat = 3 ∨ i.toNat = 4 ∨ i.toNat = 5 ∨ i.toNat = 6 := by omega
    simpa [← BitVec.toNat_inj] using this
  rcases this with rfl | rfl | rfl | rfl | rfl | rfl | rfl <;> simp_all

/-- The seven range tests of PHENC (41_primary_header R123). -/
abbrev headerFits (f : Vector Word 16) : Prop :=
  (regGet f 0).toNat < 2 ^ 3 ∧ (regGet f 1).toNat < 2 ^ 1 ∧ (regGet f 2).toNat < 2 ^ 1 ∧ (regGet f 3).toNat < 2 ^ 11 ∧
    (regGet f 4).toNat < 2 ^ 2 ∧ (regGet f 5).toNat < 2 ^ 14 ∧ (regGet f 6).toNat < 2 ^ 16

/-- The header value of F0..F6. -/
def headerOf (f : Vector Word 16) : BitVec 48 :=
  headerValue (regGet f 0) (regGet f 1) (regGet f 2) (regGet f 3) (regGet f 4) (regGet f 5) (regGet f 6)

/-- PHENC when all of F0..F6 hold values. -/
theorem execPhenc_valid {s : State} (h : ∀ i : BitVec 4, i.toNat < 7 → fvValid s.fv i = true) :
    execPhenc s =
      if capacityBits < s.cur.toNat + 48 then .next (raise .operand s)
      else if ¬ headerFits s.f then .next (raise .range s)
      else .next (respond 0 ((s.memWrite s.cur.toNat 48 (headerOf s.f).toNat).moveTo (s.cur.toNat + 48))) := by
  have hr : (¬ headerFits s.f) ↔ (2 ^ 3 ≤ (regGet s.f 0).toNat ∨ 2 ^ 1 ≤ (regGet s.f 1).toNat ∨
      2 ^ 1 ≤ (regGet s.f 2).toNat ∨ 2 ^ 11 ≤ (regGet s.f 3).toNat ∨ 2 ^ 2 ≤ (regGet s.f 4).toNat ∨
      2 ^ 14 ≤ (regGet s.f 5).toNat ∨ 2 ^ 16 ≤ (regGet s.f 6).toNat) := by
    unfold headerFits
    omega
  unfold execPhenc
  rw [operandF_valid (h 0 (by decide)), ok_bind, operandF_valid (h 1 (by decide)), ok_bind,
    operandF_valid (h 2 (by decide)), ok_bind, operandF_valid (h 3 (by decide)), ok_bind,
    operandF_valid (h 4 (by decide)), ok_bind, operandF_valid (h 5 (by decide)), ok_bind,
    operandF_valid (h 6 (by decide)), ok_bind]
  simp only [raiseIf_bind, hr]
  split
  · rfl
  · split <;> rfl

/-! ### Time codes -/

/-- Everything the ASCII variants can do (42_timecode R148, R149). -/
theorem measureAscii_eq (fixed : Nat) (dec : BitVec 16) (term : Bool) (s : State) : measureAscii fixed dec term s =
    if s.validBits < s.cur.toNat + 8 * (fixed + dec.toNat + term.toNat) then .error .truncatedInput
    else .ok (commitTimeCode s
      ([(8, zext s.cur), (9, wordOf fixed), (10, wordOf (s.cur.toNat + 8 * fixed)), (11, zext dec)] ++
       (if term then [(12, wordOf (Memory.readBits s.buf (s.cur.toNat + 8 * (fixed + dec.toNat)) 8))] else []))
      (fvAscii term) (fixed + dec.toNat + term.toNat)
      (s.cur.toNat + 8 * (fixed + dec.toNat + term.toNat))) := by
  simp only [measureAscii, raiseIf_bind]
  rfl

/-- The parts of a CUC time code at their places in the stream (42_timecode R132 to R135). -/
def cucAt (lay : CucxLayout) (m : List Host.Cell) (q : Nat) : CucCode :=
  let ext := Memory.bit m q
  let xb := if ext then Memory.readBits m (q + 8) 8 else 0
  let bo := Memory.readBits m (q + 4) 2
  let fo := Memory.readBits m (q + 6) 2
  let ab := extensionField xb lay.ext lay.basic
  let af := extensionField xb (lay.ext + lay.basic) lay.frac
  let u := q + 8 + 8 * ext.toNat
  { ext := ext, tid := BitVec.ofNat 3 (Memory.readBits m (q + 1) 3), bo := BitVec.ofNat 2 bo, fo := BitVec.ofNat 2 fo,
    ext2 := extensionField xb 0 lay.ext, ab := ab, af := af,
    rsv := extensionField xb (lay.ext + lay.basic + lay.frac) lay.reserved,
    btu := Memory.readBits m u (8 * (bo + 1 + ab)),
    ftu := Memory.readBits m (u + 8 * (bo + 1 + ab)) (8 * (fo + 1 + af)),
    pos := u + 8 * (bo + 1 + ab) + 8 * (fo + 1 + af) }

theorem slice_ofNat (m : List Host.Cell) (q w lo k : Nat) (h : lo + k ≤ w) :
    (BitVec.ofNat w (Memory.readBits m q w)).extractLsb' lo k =
      BitVec.ofNat k (Memory.readBits m (q + (w - lo - k)) k) := by
  refine BitVec.eq_of_toNat_eq ?_
  rw [slice_toNat _ _ _ _ _ h, BitVec.toNat_ofNat, Nat.mod_eq_of_lt (Memory.readBits_lt _ _ _)]

theorem ofNat_readBits_toNat (m : List Host.Cell) (q k : Nat) :
    (BitVec.ofNat k (Memory.readBits m q k)).toNat = Memory.readBits m q k := by
  rw [BitVec.toNat_ofNat, Nat.mod_eq_of_lt (Memory.readBits_lt _ _ _)]

theorem cucAt_bytes (lay : CucxLayout) (m : List Host.Cell) (q : Nat) :
    (cucAt lay m q).pos = q + 8 * cucBytes (cucAt lay m q) := by
  simp only [cucAt, cucBytes, cucBasicWidth, cucFracWidth, ofNat_readBits_toNat]
  omega

theorem extensionField_lt (xb hi w : Nat) : extensionField xb hi w < 2 ^ w := Nat.mod_lt _ (Nat.two_pow_pos w)

/-- Under BFC-1's layout a basic unit has at most 7 bytes and a fractional unit at most 11 (42_timecode R136), so both fit XLEN
and the choice of log entry 18 is never reached. -/
theorem cucAt_units_fit (m : List Host.Cell) (q : Nat) :
    (cucAt Config.cucxLayout m q).btu < 2 ^ 56 ∧ (cucAt Config.cucxLayout m q).ftu < 2 ^ 88 := by
  have octets (a : Nat) : Memory.readBits m a 2 < 2 ^ 2 := Memory.readBits_lt _ _ _
  have added (xb : Nat) : extensionField xb 1 2 < 2 ^ 2 ∧ extensionField xb (1 + 2) 3 < 2 ^ 3 :=
    ⟨extensionField_lt _ _ _, extensionField_lt _ _ _⟩
  have unit {a n k : Nat} (h : n ≤ k) : Memory.readBits m a n < 2 ^ k :=
    lt_of_lt_of_le (Memory.readBits_lt _ _ _) (Nat.pow_le_pow_right (by omega) h)
  have hb := octets (q + 4)
  have hf := octets (q + 6)
  have hx := added (if Memory.bit m q then Memory.readBits m (q + 8) 8 else 0)
  exact ⟨unit (by simp only [Config.cucxLayout] at *; omega), unit (by simp only [Config.cucxLayout] at *; omega)⟩

/-- Everything the takes of TCDEC.CUC can do: they succeed exactly when the bytes they count are there. -/
theorem takeCuc_eq (lay : CucxLayout) (s : State) : takeCuc lay s =
    if s.validBits < s.cur.toNat + 8 * cucBytes (cucAt lay s.buf s.cur.toNat) then .error .truncatedInput
    else .ok (cucAt lay s.buf s.cur.toNat) := by
  simp only [takeCuc, take_bind, slice_bit _ _ 8 7 (by omega), slice_ofNat _ _ 8 2 2 (by omega),
    slice_ofNat _ _ 8 0 2 (by omega), slice_ofNat _ _ 8 4 3 (by omega), ofNat_readBits_toNat, Nat.sub_self, Nat.add_zero,
    Nat.sub_zero, Nat.reduceSub]
  cases hb : Memory.bit s.buf s.cur.toNat
  · simp only [takeIf_false, ok_bind, cucBytes, cucBasicWidth, cucFracWidth, cucAt, hb, ofNat_readBits_toNat,
      Bool.false_eq_true, if_false, Bool.toNat_false]
    split_ifs <;> first | rfl | omega
  · simp only [takeIf_true, take_bind, cucBytes, cucBasicWidth, cucFracWidth, cucAt, hb, ofNat_readBits_toNat,
      if_true, Bool.toNat_true]
    split_ifs <;> first | rfl | omega

/-- Everything TCDEC.CUC can do. -/
theorem decodeCuc_eq (lay : CucxLayout) (s : State) : decodeCuc lay s =
    if s.validBits < s.cur.toNat + 8 * cucBytes (cucAt lay s.buf s.cur.toNat) then .error .truncatedInput
    else .ok (commitTimeCode s (cucFields (cucAt lay s.buf s.cur.toNat)) (fvCuc (Memory.bit s.buf s.cur.toNat))
      (cucBytes (cucAt lay s.buf s.cur.toNat)) (s.cur.toNat + 8 * cucBytes (cucAt lay s.buf s.cur.toNat))) := by
  unfold decodeCuc
  rw [takeCuc_eq]
  split
  · rfl
  · rw [ok_bind, cucAt_bytes]
    rfl

/-- The commit of a time code at two spellings of the new cursor. -/
theorem complete_commit_congr {s : State} {rs : List (BitVec 4 × Word)} {fv : BitVec 16} {b p p' : Nat} (h : p = p') :
    complete s (.ok (commitTimeCode s rs fv b p)) = complete s (.ok (commitTimeCode s rs fv b p')) := by
  rw [h]

/-- The registers TCDEC.CDS populates, at their places in the stream (42_timecode R138, R139). -/
def cdsFields (m : List Host.Cell) (q dsl ssl : Nat) : List (BitVec 4 × Word) :=
  [(0, wordOf (Memory.readBits m q 1)), (1, wordOf (Memory.readBits m (q + 1) 3)),
    (2, wordOf (Memory.readBits m (q + 4) 1)), (3, wordOf dsl), (4, wordOf ssl),
    (8, wordOf (Memory.readBits m (q + 8) (8 * (2 + dsl)))),
    (9, wordOf (Memory.readBits m (q + 8 + 8 * (2 + dsl)) 32))] ++
  (if 0 < 2 * ssl then [(10, wordOf (Memory.readBits m (q + 8 + 8 * (2 + dsl) + 32) (8 * (2 * ssl))))] else [])

/-- Everything TCDEC.CDS can do (42_timecode R139). -/
theorem execTcdecCds_eq (s : State) : execTcdecCds s =
    let q := s.cur.toNat
    let dsl := Memory.readBits s.buf (q + 5) 1
    let ssl := Memory.readBits s.buf (q + 6) 2
    let bytes := 1 + (2 + dsl) + 4 + 2 * ssl
    if s.validBits < q + 8 then .next (raise .truncatedInput s)
    else if ssl = 3 then .next (raise .encoding s)
    else if s.validBits < q + 8 * bytes then .next (raise .truncatedInput s)
    else complete s (.ok (commitTimeCode s (cdsFields s.buf q dsl ssl) (fvCds (decide (0 < 2 * ssl))) bytes
      (q + 8 * bytes))) := by
  have h3 : (BitVec.ofNat 2 (Memory.readBits s.buf (s.cur.toNat + 6) 2) = 3) ↔
      Memory.readBits s.buf (s.cur.toNat + 6) 2 = 3 := by
    rw [← BitVec.toNat_inj, ofNat_readBits_toNat]
    rfl
  unfold execTcdecCds
  simp only [take_bind, raiseIf_bind, slice_ofNat _ _ 8 2 1 (by omega), slice_ofNat _ _ 8 0 2 (by omega),
    slice_ofNat _ _ 8 7 1 (by omega), slice_ofNat _ _ 8 4 3 (by omega), slice_ofNat _ _ 8 3 1 (by omega),
    zext_eq_wordOf, ofNat_readBits_toNat, Nat.sub_self, Nat.add_zero, Nat.sub_zero, Nat.reduceSub, h3]
  by_cases h8 : s.validBits < s.cur.toNat + 8
  · simp only [h8, if_true, complete_error]
  by_cases hs : Memory.readBits s.buf (s.cur.toNat + 6) 2 = 3
  · simp only [h8, hs, if_true, if_false, complete_error]
  by_cases h0 : 0 < 2 * Memory.readBits s.buf (s.cur.toNat + 6) 2
  · simp only [h8, hs, h0, decide_true, takeIf_true, take_bind, if_true, if_false, cdsFields]
    split_ifs <;> first | rfl | omega | skip
    exact complete_commit_congr (by omega)
  · simp only [h8, hs, h0, decide_false, takeIf_false, ok_bind, if_false, cdsFields]
    split_ifs <;> first | rfl | omega | skip
    exact complete_commit_congr (by omega)

/-- The registers TCDEC.CCS populates, at their places in the stream (42_timecode R142, R143). -/
def ccsFields (m : List Host.Cell) (q res : Nat) (cv : Bool) : List (BitVec 4 × Word) :=
  let day := if cv then 1 else 2
  [(0, wordOf (Memory.readBits m q 1)), (1, wordOf (Memory.readBits m (q + 1) 3)), (2, wordOf cv.toNat),
    (3, wordOf res), (8, wordOf (Memory.readBits m (q + 8) 16))] ++
  (if cv then [(11, wordOf (Memory.readBits m (q + 24) 8))]
    else [(9, wordOf (Memory.readBits m (q + 24) 8)), (10, wordOf (Memory.readBits m (q + 32) 8))]) ++
  [(12, wordOf (Memory.readBits m (q + 24 + 8 * day) 8)), (13, wordOf (Memory.readBits m (q + 32 + 8 * day) 8)),
    (14, wordOf (Memory.readBits m (q + 40 + 8 * day) 8))] ++
  (if 0 < res then [(15, wordOf (Memory.readBits m (q + 48 + 8 * day) (8 * res)))] else [])

/-- A chain of takes truncates exactly when its last one does. -/
theorem truncated_chain {α : Type} {V p r : Nat} (h : p ≤ r) (e x : α) :
    (if V < p then e else if V < r then e else x) = if V < r then e else x := by
  split_ifs <;> first | omega | rfl

/-- Everything TCDEC.CCS can do (42_timecode R143). -/
theorem execTcdecCcs_eq (s : State) : execTcdecCcs s =
    let q := s.cur.toNat
    let cv := Memory.bit s.buf (q + 4)
    let res := Memory.readBits s.buf (q + 5) 3
    let bytes := 6 + res + (if cv then 1 else 2)
    if s.validBits < q + 8 * bytes then .next (raise .truncatedInput s)
    else complete s (.ok (commitTimeCode s (ccsFields s.buf q res cv) (fvCcs cv (decide (0 < res))) bytes
      (q + 8 * bytes))) := by
  unfold execTcdecCcs
  simp only [take_bind, slice_bit _ _ 8 3 (by omega), slice_ofNat _ _ 8 0 3 (by omega),
    slice_ofNat _ _ 8 7 1 (by omega), slice_ofNat _ _ 8 4 3 (by omega), zext_eq_wordOf, ofNat_readBits_toNat,
    Nat.sub_self, Nat.add_zero, Nat.sub_zero, Nat.reduceSub]
  cases hc : Memory.bit s.buf (s.cur.toNat + 4) <;> by_cases h0 : 0 < Memory.readBits s.buf (s.cur.toNat + 5) 3 <;>
    simp only [h0, decide_true, decide_false, Bool.not_true, Bool.not_false, takeIf_true, takeIf_false, take_bind,
      ok_bind, if_true, if_false, ccsFields, Bool.false_eq_true] <;>
    simp (disch := omega) only [truncated_chain] <;>
    rw [apply_ite (complete s)] <;>
    refine ite_congr (by apply propext; omega) (fun _ => rfl) (fun _ => complete_commit_congr (by omega))

/-! ### Payload -/

/-- Everything PAYLEN can do (43_payload R162). -/
theorem execPaylen_eq (dl ovh : BitVec 16) (cons : BitVec 32) (s : State) : execPaylen dl ovh cons s =
    if payloadInt dl ovh cons < 0 then .next (raise .corruptPacket s)
    else .next (respond (wordOf (payloadInt dl ovh cons).toNat)
      (s.setPlen (BitVec.ofNat 16 (payloadInt dl ovh cons).toNat))) := by
  unfold execPaylen payloadLength
  split <;> rfl

/-- Everything PAYEXT can do (43_payload R163). -/
theorem execPayext_eq (dl ovh : BitVec 16) (cons : BitVec 32) (s : State) : execPayext dl ovh cons s =
    if payloadInt dl ovh cons < 0 then .next (raise .corruptPacket s)
    else if s.validBits < s.cur.toNat + 8 * (payloadInt dl ovh cons).toNat then .next (raise .truncatedInput s)
    else .next (respond (wordOf (payloadInt dl ovh cons).toNat)
      (((s.setPoff s.cur).setPlen (BitVec.ofNat 16 (payloadInt dl ovh cons).toNat)).moveTo
        (s.cur.toNat + 8 * (payloadInt dl ovh cons).toNat))) := by
  unfold execPayext payloadLength
  split
  · rfl
  · rw [ok_bind, raiseIf_bind]
    split <;> rfl

/-! ### Host access -/

/-- Everything BUFWR can do (44_host_access R171). -/
theorem execBufwr_eq (idx : BitVec 24) (v : Word) (s : State) : execBufwr idx v s =
    if Config.bufBytes ≤ idx.toNat ∨ 256 ≤ v.toNat then .next (raise .operand s)
    else .next (respond 0 (s.storeByte idx.toNat (v.extractLsb' 0 8))) := by
  unfold execBufwr
  rw [raiseIf_bind, raiseIf_bind]
  split_ifs <;> first | rfl | omega

/-- Everything BUFRD can do (44_host_access R172). -/
theorem execBufrd_eq (idx : BitVec 24) (s : State) : execBufrd idx s =
    if s.len.toNat ≤ idx.toNat then .next (raise .operand s)
    else .next (respond (zext (Memory.read s.buf idx.toNat)) s) := by
  unfold execBufrd
  rw [raiseIf_bind]
  exact apply_ite (complete s) _ _ _

/-- Everything SETLEN can do (44_host_access R173). -/
theorem execSetlen_eq (n : BitVec 24) (s : State) : execSetlen n s =
    if Config.bufBytes < n.toNat then .next (raise .operand s) else .next (respond 0 (s.resize n.toNat)) := by
  unfold execSetlen
  rw [raiseIf_bind]
  exact apply_ite (complete s) _ _ _

/-- Everything SEEK can do (44_host_access R174). -/
theorem execSeek_eq (pos : BitVec 24) (s : State) : execSeek pos s =
    if capacityBits < pos.toNat then .next (raise .operand s) else .next (respond 0 (s.moveTo pos.toNat)) := by
  unfold execSeek
  rw [raiseIf_bind]
  exact apply_ite (complete s) _ _ _

/-- Everything GETF can do (44_host_access R176). -/
theorem execGetf_eq (i : BitVec 4) (s : State) : execGetf i s =
    if fvValid s.fv i then .next (respond (regGet s.f i) s) else .next (raise .operand s) := by
  unfold execGetf
  cases h : fvValid s.fv i
  · rw [operandF_invalid h]
    rfl
  · rw [operandF_valid h]
    rfl

/-! ### Every command -/

/-- A command answers a next state: its commit and a success response, or the abort. -/
theorem exec_complete (i : Instr) (s : State) : ∃ r, exec i s = complete s r := by
  cases i
  case nop => exact ⟨.ok (s, 0), rfl⟩
  case tcdecNone => exact ⟨.ok (commitTimeCode s [] 0 0 s.cur.toNat), rfl⟩
  case setf k v => exact ⟨.ok ((s.setF (regSet s.f k v)).setFv (fvSet s.fv k), 0), rfl⟩
  case clre => exact ⟨.ok (s.setErracc 0, 0), rfl⟩
  all_goals exact ⟨_, rfl⟩

/-- A command that reports an error is the abort with that error. -/
theorem exec_error {i : Instr} {s t : State} {e : ErrorKind} {v : Word} (h : exec i s = .next t)
    (hr : t.rsp = some { err := some e, val := v }) : t = raise e s ∧ v = 0 := by
  obtain ⟨r, hi⟩ := exec_complete i s
  rcases complete_next (hi ▸ h) with ⟨u, w, -, rfl⟩ | ⟨e', -, rfl⟩
  · simp at hr
  · simp only [raise_rsp, Option.some.injEq, Response.mk.injEq] at hr
    exact ⟨by rw [hr.1], hr.2.symm⟩

end Sys2Proof.Machine
end

