-- ==== Sys2Proof/Laws/Outcome.lean ====
section
/-! SUPPORT. What every command can do, said once: the error it reports, else its commit and its response. -/

namespace Sys2Proof.Machine

/-- The commit of a time-code command at its byte count. -/
def timeCodeCommit (s : State) (rs : List (BitVec 4 × Word)) (fv : BitVec 16) (bytes : Nat) : State × Word :=
  commitTimeCode s rs fv bytes (s.cur.toNat + 8 * bytes)

/-- The registers the ASCII variants populate. -/
def asciiFields (s : State) (fixed : Nat) (dec : BitVec 16) (term : Bool) : List (BitVec 4 × Word) :=
  [(8, zext s.cur), (9, wordOf fixed), (10, wordOf (s.cur.toNat + 8 * fixed)), (11, zext dec)] ++
    (if term then [(12, wordOf (Memory.readBits s.buf (s.cur.toNat + 8 * (fixed + dec.toNat)) 8))] else [])

/-- The byte count of a CDS time code at the cursor. -/
def cdsBytes (s : State) : Nat :=
  1 + (2 + Memory.readBits s.buf (s.cur.toNat + 5) 1) + 4 + 2 * Memory.readBits s.buf (s.cur.toNat + 6) 2

/-- The byte count of a CCS time code at the cursor. -/
def ccsBytes (s : State) : Nat :=
  6 + Memory.readBits s.buf (s.cur.toNat + 5) 3 + (if Memory.bit s.buf (s.cur.toNat + 4) then 1 else 2)

/-- The commit of a read of `n` bits. -/
def readCommit (n : Nat) (s : State) : State × Word :=
  ((s.setRval (wordOf (Memory.readBits s.buf s.cur.toNat n))).moveTo (s.cur.toNat + n),
    wordOf (Memory.readBits s.buf s.cur.toNat n))

/-- The commit of a write of `v` as `n` bits. -/
def writeCommit (n v : Nat) (s : State) : State × Word :=
  ((s.memWrite s.cur.toNat n v).moveTo (s.cur.toNat + n), 0)

/-- The state a command commits and the value it responds, when it reports no error. -/
def commitOf (i : Instr) (s : State) : State × Word :=
  let q := s.cur.toNat
  match i with
  | .nop => (s, 0)
  | .rdbits n => readCommit n.toNat s
  | .wrbits n v => writeCommit n.toNat v.toNat s
  | .rdbytes n => readCommit (8 * n.toNat) s
  | .wrbytes n v => writeCommit (8 * n.toNat) v.toNat s
  | .phdec => ((s.populate (headerFields (BitVec.ofNat 48 (Memory.readBits s.buf q 48))) fvHeader).moveTo (q + 48), 0)
  | .phenc => writeCommit 48 (headerOf s.f).toNat s
  | .tcdecNone => commitTimeCode s [] 0 0 q
  | .tcdecCuc => timeCodeCommit s (cucFields (cucAt Config.cucxLayout s.buf q)) (fvCuc (Memory.bit s.buf q))
      (cucBytes (cucAt Config.cucxLayout s.buf q))
  | .tcdecCds =>
    let dsl := Memory.readBits s.buf (q + 5) 1
    let ssl := Memory.readBits s.buf (q + 6) 2
    timeCodeCommit s (cdsFields s.buf q dsl ssl) (fvCds (decide (0 < 2 * ssl))) (cdsBytes s)
  | .tcdecCcs =>
    let cv := Memory.bit s.buf (q + 4)
    let res := Memory.readBits s.buf (q + 5) 3
    timeCodeCommit s (ccsFields s.buf q res cv) (fvCcs cv (decide (0 < res))) (ccsBytes s)
  | .tcdecAsca dec term => timeCodeCommit s (asciiFields s 20 dec term) (fvAscii term) (20 + dec.toNat + term.toNat)
  | .tcdecAscb dec term => timeCodeCommit s (asciiFields s 18 dec term) (fvAscii term) (18 + dec.toNat + term.toNat)
  | .ovhd var => (s, (overhead var).getD 0)
  | .paylen dl ovh cons =>
    (s.setPlen (BitVec.ofNat 16 (payloadInt dl ovh cons).toNat), wordOf (payloadInt dl ovh cons).toNat)
  | .payext dl ovh cons =>
    (((s.setPoff s.cur).setPlen (BitVec.ofNat 16 (payloadInt dl ovh cons).toNat)).moveTo
      (q + 8 * (payloadInt dl ovh cons).toNat), wordOf (payloadInt dl ovh cons).toNat)
  | .bufwr idx v => (s.storeByte idx.toNat (v.extractLsb' 0 8), 0)
  | .bufrd idx => (s, zext (Memory.read s.buf idx.toNat))
  | .setlen n => (s.resize n.toNat, 0)
  | .seek pos => (s.moveTo pos.toNat, 0)
  | .getf i => (s, regGet s.f i)
  | .setf i v => ((s.setF (regSet s.f i v)).setFv (fvSet s.fv i), 0)
  | .gets sel => (s, (special s sel).getD 0)
  | .clre => (s.setErracc 0, 0)

/-- The error a read of `n` bits reports after the command's own limit. -/
def readError (n : Nat) (s : State) : Option ErrorKind :=
  if n = 0 then some .encoding else if s.validBits < s.cur.toNat + n then some .truncatedInput else none

/-- The error a write of `n` bits reports after the command's own limit. -/
def writeError (n v : Nat) (s : State) : Option ErrorKind :=
  if capacityBits < s.cur.toNat + n then some .operand
  else if n = 0 then some .encoding
  else if 2 ^ n ≤ v then some .range
  else none

/-- The error of a command that needs `bits` bits inside LEN. -/
def truncatedBelow (bits : Nat) (s : State) : Option ErrorKind :=
  if s.validBits < s.cur.toNat + bits then some .truncatedInput else none

/-- The error a command reports, none when it succeeds. -/
def errorOf (i : Instr) (s : State) : Option ErrorKind :=
  match i with
  | .nop | .clre | .tcdecNone | .setf _ _ => none
  | .rdbits n => if 128 < n.toNat then some .operand else readError n.toNat s
  | .rdbytes n => if 16 < n.toNat then some .operand else readError (8 * n.toNat) s
  | .wrbits n v => if 128 < n.toNat then some .operand else writeError n.toNat v.toNat s
  | .wrbytes n v => if 16 < n.toNat then some .operand else writeError (8 * n.toNat) v.toNat s
  | .phdec => truncatedBelow 48 s
  | .phenc =>
    if ¬ ∀ i : BitVec 4, i.toNat < 7 → fvValid s.fv i = true then some .operand
    else if capacityBits < s.cur.toNat + 48 then some .operand
    else if ¬ headerFits s.f then some .range
    else none
  | .tcdecCuc => truncatedBelow (8 * cucBytes (cucAt Config.cucxLayout s.buf s.cur.toNat)) s
  | .tcdecCds =>
    if s.validBits < s.cur.toNat + 8 then some .truncatedInput
    else if Memory.readBits s.buf (s.cur.toNat + 6) 2 = 3 then some .encoding
    else truncatedBelow (8 * cdsBytes s) s
  | .tcdecCcs => truncatedBelow (8 * ccsBytes s) s
  | .tcdecAsca dec term => truncatedBelow (8 * (20 + dec.toNat + term.toNat)) s
  | .tcdecAscb dec term => truncatedBelow (8 * (18 + dec.toNat + term.toNat)) s
  | .ovhd var => if var.toNat < 6 then none else some .operand
  | .paylen dl ovh cons => if payloadInt dl ovh cons < 0 then some .corruptPacket else none
  | .payext dl ovh cons =>
    if payloadInt dl ovh cons < 0 then some .corruptPacket
    else truncatedBelow (8 * (payloadInt dl ovh cons).toNat) s
  | .bufwr idx v => if Config.bufBytes ≤ idx.toNat ∨ 256 ≤ v.toNat then some .operand else none
  | .bufrd idx => if s.len.toNat ≤ idx.toNat then some .operand else none
  | .setlen n => if Config.bufBytes < n.toNat then some .operand else none
  | .seek pos => if capacityBits < pos.toNat then some .operand else none
  | .getf i => if fvValid s.fv i then none else some .operand
  | .gets sel => if sel.toNat < 9 then none else some .operand

/-- An error aborts; otherwise the commit stands and its value is the response. -/
def settle (s : State) (e : Option ErrorKind) (p : State × Word) : Result :=
  match e with
  | some e => .next (raise e s)
  | none => .next (respond p.2 p.1)

theorem settle_ite (s : State) (c : Prop) [Decidable c] (a b : Option ErrorKind) (p : State × Word) :
    settle s (if c then a else b) p = if c then settle s a p else settle s b p :=
  apply_ite (fun x => settle s x p) c a b

theorem overhead_cases (var : BitVec 3) :
    (var.toNat < 6 ∧ overhead var = some ((overhead var).getD 0)) ∨ (¬ var.toNat < 6 ∧ overhead var = none) := by
  revert var
  decide

theorem special_cases (s : State) (sel : BitVec 4) :
    (sel.toNat < 9 ∧ special s sel = some ((special s sel).getD 0)) ∨ (¬ sel.toNat < 9 ∧ special s sel = none) := by
  obtain ⟨k, rfl⟩ : ∃ k : Fin 16, sel = BitVec.ofNat 4 k := ⟨⟨sel.toNat, sel.isLt⟩, by simp⟩
  fin_cases k <;> simp [special]

/-- Every command in every state: its error, or its commit. -/
theorem exec_eq_settle (i : Instr) (s : State) : exec i s = settle s (errorOf i s) (commitOf i s) := by
  cases i
  case nop => rfl
  case clre => rfl
  case tcdecNone => rfl
  case setf => rfl
  case rdbits n =>
    refine (execRdbits_eq n s).trans ?_
    rw [readField_eq]
    simp only [errorOf, readError, settle_ite, apply_ite (complete s)]
    rfl
  case rdbytes n =>
    refine (execRdbytes_eq n s).trans ?_
    rw [readField_eq]
    simp only [errorOf, readError, settle_ite, apply_ite (complete s)]
    rfl
  case wrbits n v =>
    refine (execWrbits_eq n v s).trans ?_
    rw [writeField_eq]
    simp only [errorOf, writeError, settle_ite, apply_ite (complete s)]
    rfl
  case wrbytes n v =>
    refine (execWrbytes_eq n v s).trans ?_
    rw [writeField_eq]
    simp only [errorOf, writeError, settle_ite, apply_ite (complete s)]
    rfl
  case phdec =>
    refine (execPhdec_eq s).trans ?_
    simp only [errorOf, truncatedBelow, settle_ite]
    rfl
  case phenc =>
    show execPhenc s = _
    simp only [errorOf, settle_ite]
    by_cases hv : ∀ i : BitVec 4, i.toNat < 7 → fvValid s.fv i = true
    · rw [execPhenc_valid hv, if_neg (not_not_intro hv)]
      rfl
    · rw [if_pos hv]
      push Not at hv
      obtain ⟨i, hi, hv⟩ := hv
      rw [execPhenc_invalid hi (by simpa using hv)]
      rfl
  case tcdecCuc =>
    show complete s (decodeCuc Config.cucxLayout s) = _
    rw [decodeCuc_eq]
    simp only [errorOf, truncatedBelow, settle_ite, apply_ite (complete s)]
    rfl
  case tcdecCds =>
    refine (execTcdecCds_eq s).trans ?_
    simp only [errorOf, truncatedBelow, settle_ite]
    rfl
  case tcdecCcs =>
    refine (execTcdecCcs_eq s).trans ?_
    simp only [errorOf, truncatedBelow, settle_ite]
    rfl
  case tcdecAsca dec term =>
    show complete s (measureAscii 20 dec term s) = _
    rw [measureAscii_eq]
    simp only [errorOf, truncatedBelow, settle_ite, apply_ite (complete s)]
    rfl
  case tcdecAscb dec term =>
    show complete s (measureAscii 18 dec term s) = _
    rw [measureAscii_eq]
    simp only [errorOf, truncatedBelow, settle_ite, apply_ite (complete s)]
    rfl
  case ovhd var =>
    show execOvhd var s = _
    unfold execOvhd
    rcases overhead_cases var with ⟨hl, hx⟩ | ⟨hl, hx⟩ <;> rw [hx] <;> simp [errorOf, commitOf, settle, hl]
  case gets sel =>
    show execGets sel s = _
    unfold execGets
    rcases special_cases s sel with ⟨hl, hx⟩ | ⟨hl, hx⟩ <;> rw [hx] <;> simp [errorOf, commitOf, settle, hl]
  case paylen dl ovh cons =>
    refine (execPaylen_eq dl ovh cons s).trans ?_
    simp only [errorOf, settle_ite]
    rfl
  case payext dl ovh cons =>
    refine (execPayext_eq dl ovh cons s).trans ?_
    simp only [errorOf, truncatedBelow, settle_ite]
    rfl
  case bufwr idx v =>
    refine (execBufwr_eq idx v s).trans ?_
    simp only [errorOf, settle_ite]
    rfl
  case bufrd idx =>
    refine (execBufrd_eq idx s).trans ?_
    simp only [errorOf, settle_ite]
    rfl
  case setlen n =>
    refine (execSetlen_eq n s).trans ?_
    simp only [errorOf, settle_ite]
    rfl
  case seek pos =>
    refine (execSeek_eq pos s).trans ?_
    simp only [errorOf, settle_ite]
    rfl
  case getf i =>
    refine (execGetf_eq i s).trans ?_
    simp only [errorOf, settle_ite]
    rfl

/-- Every next state of a command is its abort or its commit. -/
theorem exec_cases {i : Instr} {s t : State} (h : exec i s = .next t) :
    (∃ e, errorOf i s = some e ∧ t = raise e s) ∨
      (errorOf i s = none ∧ t = respond (commitOf i s).2 (commitOf i s).1) := by
  rw [exec_eq_settle] at h
  cases he : errorOf i s with
  | none =>
    rw [he] at h
    exact .inr ⟨rfl, (Host.Outcome.next.inj h).symm⟩
  | some e =>
    rw [he] at h
    exact .inl ⟨e, rfl, (Host.Outcome.next.inj h).symm⟩

theorem succeeds_iff {i : Instr} {s t : State} :
    Succeeds i s t ↔ errorOf i s = none ∧ t = respond (commitOf i s).2 (commitOf i s).1 := by
  constructor
  · rintro ⟨h, v, hv⟩
    rcases exec_cases h with ⟨e, -, rfl⟩ | h
    · cases hv
    · exact h
  · rintro ⟨h, rfl⟩
    exact ⟨by rw [exec_eq_settle, h]; rfl, _, rfl⟩

theorem aborts_iff {i : Instr} {s : State} {e : ErrorKind} : Aborts i s e ↔ errorOf i s = some e := by
  unfold Aborts
  rw [exec_eq_settle]
  constructor
  · intro h
    cases he : errorOf i s with
    | none =>
      rw [he] at h
      cases congrArg State.rsp (Host.Outcome.next.inj h)
    | some e' =>
      rw [he] at h
      have := congrArg State.rsp (Host.Outcome.next.inj h)
      simp at this
      rw [this]
  · intro h
    rw [h]
    rfl

end Sys2Proof.Machine
end

