-- ==== Sys2Proof/Laws/PerInstr.lean ====
section
/-! SUPPORT. For every instruction: its control word lies in its row of the opcode map (30_encoding R75). -/

namespace Sys2Proof.Laws.EncodedRow

/-- The control word of a well-formed instruction selects the instruction's own row. -/
def Statement (i : Instr) : Prop := i.wellFormed = true → selectsRow (encodeControl i) i.row = true

/-- A row splits into its opcode byte and its short operand. -/
theorem selects_of_fields {i : Instr} (op : BitVec 8) (m b : BitVec 24) (ho : i.opcode = op)
    (hr : i.row = (op ++ b, 0xFF#8 ++ m)) (ha : i.shortOperand &&& m = b) : Statement i := by
  intro _
  rw [selectsRow, hr, encodeControl, ho, BitVec.and_append, ha, show op &&& 0xFF#8 = op from BitVec.and_allOnes]
  exact beq_self_eq_true _

/-- Format N and NV: no bit of the short operand is fixed. -/
theorem selects_free {i : Instr} (op : BitVec 8) (ho : i.opcode = op) (hr : i.row = (op ++ 0#24, 0xFF#8 ++ 0#24)) :
    Statement i :=
  selects_of_fields op 0 0 ho hr BitVec.and_zero

/-- Format S: the four low bits are free. -/
theorem and_selector (k : BitVec 4) : (0#20 ++ k) &&& 0xFFFFF0#24 = 0#24 := by
  rw [show (0xFFFFF0#24) = 0xFFFFF#20 ++ 0#4 from rfl, BitVec.and_append, BitVec.and_zero, BitVec.zero_and]
  rfl

/-- OVHD: the three low bits are free. -/
theorem and_variant (k : BitVec 3) : (0#21 ++ k) &&& 0xFFFFF8#24 = 0#24 := by
  rw [show (0xFFFFF8#24) = 0x1FFFFF#21 ++ 0#3 from rfl, BitVec.and_append, BitVec.and_zero, BitVec.zero_and]
  rfl

/-- The ASCII variants: `term` and `dec` are free. -/
theorem and_encodeT (var : BitVec 3) (dec : BitVec 16) (term : Bool) :
    encodeT var dec term &&& 0x0000F7#24 = 0#21 ++ var := by
  rw [show (0x0000F7#24) = 0#16 ++ 0xF#4 ++ 0#1 ++ 0x7#3 from rfl, encodeT]
  rw [BitVec.and_append, BitVec.and_append, BitVec.and_append, BitVec.and_zero, BitVec.and_zero, BitVec.zero_and,
    show var &&& 0x7#3 = var from BitVec.and_allOnes]
  rfl

theorem nop : Statement .nop := selects_of_fields 0x00 0xFFFFFF 0 rfl rfl rfl
theorem rdbits (n) : Statement (.rdbits n) := selects_free 0x01 rfl rfl
theorem wrbits (n v) : Statement (.wrbits n v) := selects_free 0x02 rfl rfl
theorem rdbytes (n) : Statement (.rdbytes n) := selects_free 0x03 rfl rfl
theorem wrbytes (n v) : Statement (.wrbytes n v) := selects_free 0x04 rfl rfl
theorem phdec : Statement .phdec := selects_of_fields 0x10 0xFFFFFF 0 rfl rfl rfl
theorem phenc : Statement .phenc := selects_of_fields 0x11 0xFFFFFF 0 rfl rfl rfl
theorem tcdecNone : Statement .tcdecNone := selects_of_fields 0x20 0xFFFFFF 0 rfl rfl rfl
theorem tcdecCuc : Statement .tcdecCuc := selects_of_fields 0x20 0xFFFFFF 1 rfl rfl rfl
theorem tcdecCds : Statement .tcdecCds := selects_of_fields 0x20 0xFFFFFF 2 rfl rfl rfl
theorem tcdecCcs : Statement .tcdecCcs := selects_of_fields 0x20 0xFFFFFF 3 rfl rfl rfl
theorem tcdecAsca (dec term) : Statement (.tcdecAsca dec term) :=
  selects_of_fields 0x20 0x0000F7 4 rfl rfl (and_encodeT 4 dec term)
theorem tcdecAscb (dec term) : Statement (.tcdecAscb dec term) :=
  selects_of_fields 0x20 0x0000F7 5 rfl rfl (and_encodeT 5 dec term)
theorem ovhd (var) : Statement (.ovhd var) := selects_of_fields 0x30 0xFFFFF8 0 rfl rfl (and_variant var)
theorem paylen (dl ovh cons) : Statement (.paylen dl ovh cons) := selects_of_fields 0x31 0xFFFFFF 0 rfl rfl BitVec.zero_and
theorem payext (dl ovh cons) : Statement (.payext dl ovh cons) := selects_of_fields 0x32 0xFFFFFF 0 rfl rfl BitVec.zero_and
theorem bufwr (idx v) : Statement (.bufwr idx v) := selects_free 0x40 rfl rfl
theorem bufrd (idx) : Statement (.bufrd idx) := selects_free 0x41 rfl rfl
theorem setlen (n) : Statement (.setlen n) := selects_free 0x42 rfl rfl
theorem seek (pos) : Statement (.seek pos) := selects_free 0x43 rfl rfl
theorem getf (i) : Statement (.getf i) := selects_of_fields 0x44 0xFFFFF0 0 rfl rfl (and_selector i)
theorem setf (i v) : Statement (.setf i v) := selects_of_fields 0x45 0xFFFFF0 0 rfl rfl (and_selector i)
theorem gets (sel) : Statement (.gets sel) := selects_of_fields 0x46 0xFFFFF0 0 rfl rfl (and_selector sel)
theorem clre : Statement .clre := selects_of_fields 0x47 0xFFFFFF 0 rfl rfl rfl

end Sys2Proof.Laws.EncodedRow
end

