-- ==== Sys2Proof/Tests/Slice0.lean ====
section
/-! SUPPORT. Tests of the model: ill-formed terms, words written out from 30_encoding, one or two steps per command with the values of 95_test_vectors, and a witness for the hypotheses of every statement. -/

namespace Sys2Proof.Tests

open Sys2Proof.Machine

/-! ### Helpers -/

/-- The cells of a list of bytes from address `a`. -/
def cells : Nat → List Byte → List Host.Cell
  | _, [] => []
  | a, b :: bs => if b = 0 then cells (a + 1) bs else (a, b) :: cells (a + 1) bs

/-- The reset state with a buffer and a cursor. -/
def holding (bytes : List Byte) (cur : BitVec 24) : State :=
  ((State.reset.setBuf (cells 0 bytes)).setLen (BitVec.ofNat 21 bytes.length)).setCur cur

/-- The state with the result registers set, first to last. -/
def withF (s : State) (vals : List (BitVec 4 × Word)) : State :=
  s.populate vals ((vals.map Prod.fst).foldl fvSet 0)

/-- The state after a command. -/
def after (i : Instr) (s : State) : State :=
  match exec i s with
  | .next t => t
  | .fault _ => s
  | .refused _ => s

/-- The state after a step. -/
def stepped (s : State) : State :=
  match step s with
  | .next t => t
  | .fault _ => s
  | .refused _ => s

/-- The response: its code and its value. -/
def answer (t : State) : Option (Nat × Nat) := t.rsp.map fun r => (r.errCode.toNat, r.val.toNat)

/-- The valid bytes of the buffer. -/
def bytesOf (t : State) : List Nat := (List.range t.len.toNat).map fun a => (Memory.read t.buf a).toNat

/-- The result registers that hold a value. -/
def valid (t : State) : List (Nat × Nat) :=
  (List.range 16).filterMap fun k => (t.result (BitVec.ofNat 4 k)).map fun v => (k, v.toNat)

theorem exec_after (i : Instr) (s : State) : exec i s = .next (after i s) := by
  unfold after
  rw [exec_eq_settle]
  cases errorOf i s <;> rfl

theorem succeeds_after {i : Instr} {s : State} (h : errorOf i s = none) : Succeeds i s (after i s) := by
  refine succeeds_iff.mpr ⟨h, ?_⟩
  unfold after
  rw [exec_eq_settle, h]
  rfl

/-! ### Well-formedness -/

theorem test_wellFormed_refuses_reserved_variants :
    (Instr.ovhd 6).wellFormed = false ∧ (Instr.ovhd 7).wellFormed = false ∧ (Instr.ovhd 5).wellFormed = true := by decide

theorem test_wellFormed_refuses_reserved_selectors :
    (Instr.gets 9).wellFormed = false ∧ (Instr.gets 15).wellFormed = false ∧ (Instr.gets 8).wellFormed = true := by decide

/-! ### Decoding: one word of every row, written out from 30_encoding R71, R75, R79 -/

theorem test_decode_nop : decode 0b00000000_000000000000000000000000#32 7 = .ok .nop := by decide
theorem test_decode_rdbits : decode 0b00000001_000000000000000000001011#32 0 = .ok (.rdbits 11) := by decide
theorem test_decode_wrbits : decode 0b00000010_000000000000000000001011#32 0x3FF = .ok (.wrbits 11 0x3FF) := by decide
theorem test_decode_rdbytes : decode 0b00000011_000000000000000000000011#32 0 = .ok (.rdbytes 3) := by decide
theorem test_decode_wrbytes : decode 0b00000100_000000000000000000000011#32 0x123456 = .ok (.wrbytes 3 0x123456) := by decide
theorem test_decode_phdec : decode 0b00010000_000000000000000000000000#32 0 = .ok .phdec := by decide
theorem test_decode_phenc : decode 0b00010001_000000000000000000000000#32 0 = .ok .phenc := by decide
theorem test_decode_tcdecNone : decode 0b00100000_0000000000000000_0000_0_000#32 0 = .ok .tcdecNone := by decide
theorem test_decode_tcdecCuc : decode 0b00100000_0000000000000000_0000_0_001#32 0 = .ok .tcdecCuc := by decide
theorem test_decode_tcdecCds : decode 0b00100000_0000000000000000_0000_0_010#32 0 = .ok .tcdecCds := by decide
theorem test_decode_tcdecCcs : decode 0b00100000_0000000000000000_0000_0_011#32 0 = .ok .tcdecCcs := by decide
theorem test_decode_tcdecAsca : decode 0b00100000_0000000000000011_0000_1_100#32 0 = .ok (.tcdecAsca 3 true) := by decide
theorem test_decode_tcdecAscb : decode 0b00100000_1000000000000001_0000_0_101#32 0 = .ok (.tcdecAscb 32769 false) := by decide
theorem test_decode_ovhd : decode 0b00110000_000000000000000000000_100#32 0 = .ok (.ovhd 4) := by decide
theorem test_decode_paylen : decode 0b00110001_000000000000000000000000#32 0x1700140036 = .ok (.paylen 54 20 23) := by decide
theorem test_decode_payext : decode 0b00110010_000000000000000000000000#32 0x1900140036 = .ok (.payext 54 20 25) := by decide
theorem test_decode_bufwr : decode 0b01000000_000000010000000000000101#32 1 = .ok (.bufwr 65541 1) := by decide
theorem test_decode_bufrd : decode 0b01000001_000000000000000000000100#32 0 = .ok (.bufrd 4) := by decide
theorem test_decode_setlen : decode 0b01000010_000000010000000000000110#32 0 = .ok (.setlen 65542) := by decide
theorem test_decode_seek : decode 0b01000011_000010000000000000110000#32 0 = .ok (.seek 524336) := by decide
theorem test_decode_getf : decode 0b01000100_00000000000000000000_1111#32 0 = .ok (.getf 15) := by decide
theorem test_decode_setf : decode 0b01000101_00000000000000000000_1001#32 0xABCD = .ok (.setf 9 0xABCD) := by decide
theorem test_decode_gets : decode 0b01000110_00000000000000000000_1000#32 0 = .ok (.gets 8) := by decide
theorem test_decode_clre : decode 0b01000111_000000000000000000000000#32 0 = .ok .clre := by decide

/-- The illegal encodings of 95_test_vectors 2.3, 2.4 and 2.6. -/
theorem test_decode_refuses_illegal :
    decode 0x20000006#32 0 = .error .reservedVariant ∧ decode 0x20000101#32 0 = .error .reservedBits ∧
      decode 0x2000000A#32 0 = .error .reservedBits ∧ decode 0x20000014#32 0 = .error .reservedBits ∧
      decode 0x31000000#32 0x10000000000000000 = .error .reservedOperand ∧ decode 0x32000001#32 0 = .error .reservedBits ∧
      decode 0x30000006#32 0 = .error .reservedVariant ∧ decode 0x46000009#32 0 = .error .reservedSelector ∧
      decode 0x05000000#32 0 = .error .unassignedOpcode := by decide

/-- A command given as one number is the next command of the step. -/
theorem test_table_word : decodeTableWord 160 (0x3FF * 2 ^ 32 + 0x0200000B) = some (.wrbits 11 0x3FF) ∧
    decodeTableWord 32 0x47000000 = some .clre ∧
    (stepped (State.reset.withFetchWord 32 0x43000030)).cur = 48 := by decide

/-! ### One step per command: the rows of 95_test_vectors -/

/-- R170. -/
theorem test_nop : answer (after .nop State.reset) = some (0, 0) := by decide
/-- 2.1: `A5 3C F0 0F`, CUR 12, RDBITS 12. -/
theorem test_rdbits_crosses_bytes : answer (after (.rdbits 12) (holding [0xA5, 0x3C, 0xF0, 0x0F] 12)) = some (0, 0xCF0) := by
  decide
/-- 2.1: RDBITS 33 on four bytes truncates, RDBITS 129 is OperandError. -/
theorem test_rdbits_errors : answer (after (.rdbits 33) (holding [0xA5, 0x3C, 0xF0, 0x0F] 0)) = some (1, 0) ∧
    answer (after (.rdbits 129) (holding [0xA5, 0x3C, 0xF0, 0x0F] 0)) = some (5, 0) := by decide
/-- 2.1: `FF FF FF`, CUR 6, WRBITS 5, 0. -/
theorem test_wrbits_keeps_neighbours : bytesOf (after (.wrbits 5 0) (holding [0xFF, 0xFF, 0xFF] 6)) = [0xFC, 0x1F, 0xFF] := by
  decide
/-- 2.1: `FF`, CUR 20, WRBITS 4, 0xF zero-fills the gap. -/
theorem test_wrbits_grows : bytesOf (after (.wrbits 4 0xF) (holding [0xFF] 20)) = [0xFF, 0x00, 0x0F] := by decide
/-- 2.1: `12 34 56 78 9A`, CUR 4, RDBYTES 2. -/
theorem test_rdbytes_unaligned : answer (after (.rdbytes 2) (holding [0x12, 0x34, 0x56, 0x78, 0x9A] 4)) = some (0, 0x2345) := by
  decide
/-- 2.1: `12 34 56`, CUR 4, WRBYTES 1, 0xFF. -/
theorem test_wrbytes_unaligned : bytesOf (after (.wrbytes 1 0xFF) (holding [0x12, 0x34, 0x56] 4)) = [0x1F, 0xF4, 0x56] := by
  decide
/-- 2.1: WRBYTES 2, 0x10000 is RangeError. -/
theorem test_wrbytes_range : answer (after (.wrbytes 2 0x10000) (holding [0x12, 0x34, 0x56] 24)) = some (2, 0) := by decide
/-- 2.2: `08 01 C0 00 00 36`, the order of the fields. -/
theorem test_phdec_order : valid (after .phdec (holding [0x08, 0x01, 0xC0, 0x00, 0x00, 0x36] 0)) =
    [(0, 0), (1, 0), (2, 1), (3, 1), (4, 3), (5, 0), (6, 0x36)] := by decide
/-- 2.2: PHENC at CUR 4 of seven bytes FF. -/
theorem test_phenc_unaligned : bytesOf (after .phenc (withF (holding [0xFF, 0xFF, 0xFF, 0xFF, 0xFF, 0xFF, 0xFF] 4)
    [(0, 0), (1, 1), (2, 1), (3, 0x3FF), (4, 3), (5, 0x1AAA), (6, 100)])) =
    [0xF1, 0xBF, 0xFD, 0xAA, 0xA0, 0x06, 0x4F] := by decide +kernel
/-- 2.2: an invalid register is found before a value out of range. -/
theorem test_phenc_priority : answer (after .phenc (withF State.reset
    [(0, 0), (1, 1), (2, 1), (4, 3), (5, 0x1AAA), (6, 0x10000)])) = some (5, 0) := by decide
/-- R131: every register becomes invalid. -/
theorem test_tcdecNone : valid (after .tcdecNone (withF State.reset [(6, 1)])) = [] := by decide
/-- 2.3: an extended CUC time code, `94 24 01 02 03 AA BB`. -/
theorem test_tcdecCuc_extended : valid (after .tcdecCuc (holding [0x94, 0x24, 0x01, 0x02, 0x03, 0xAA, 0xBB] 0)) =
    [(0, 1), (1, 1), (2, 1), (3, 0), (4, 0), (5, 1), (6, 1), (7, 0), (8, 0x10203), (9, 0xAABB)] := by decide
/-- 2.3: `94 24 01 02 03 AA` truncates. -/
theorem test_tcdecCuc_truncates : answer (after .tcdecCuc (holding [0x94, 0x24, 0x01, 0x02, 0x03, 0xAA] 0)) = some (1, 0) := by
  decide
/-- 2.3: `45 01 02 03 05 26 5C 00 01 F4`. -/
theorem test_tcdecCds : valid (after .tcdecCds (holding [0x45, 0x01, 0x02, 0x03, 0x05, 0x26, 0x5C, 0x00, 0x01, 0xF4] 0)) =
    [(0, 0), (1, 4), (2, 0), (3, 1), (4, 1), (8, 0x10203), (9, 0x5265C00), (10, 0x1F4)] := by decide
/-- 2.3: `47` alone is EncodingError. -/
theorem test_tcdecCds_encoding : answer (after .tcdecCds (holding [0x47] 0)) = some (4, 0) := by decide
/-- 2.3: `52 07 E8 0B 0B 0C 22 38 12 34`, month and day of month with sub-seconds. -/
theorem test_tcdecCcs_month : valid (after .tcdecCcs (holding [0x52, 0x07, 0xE8, 0x0B, 0x0B, 0x0C, 0x22, 0x38, 0x12, 0x34] 0)) =
    [(0, 0), (1, 5), (2, 0), (3, 2), (8, 2024), (9, 11), (10, 11), (12, 12), (13, 34), (14, 56), (15, 0x1234)] := by decide
/-- 2.3: `58 07 E8 C8 0C 22 38`, day of year. -/
theorem test_tcdecCcs_day : valid (after .tcdecCcs (holding [0x58, 0x07, 0xE8, 0xC8, 0x0C, 0x22, 0x38] 0)) =
    [(0, 0), (1, 5), (2, 1), (3, 0), (8, 2024), (11, 200), (12, 12), (13, 34), (14, 56)] := by decide
/-- 2.3: 22 bytes at CUR 8, ASCA 1, 0; and 21 bytes FF, ASCA 0, 1. -/
theorem test_tcdecAsca : valid (after (.tcdecAsca 1 false) (holding (List.replicate 22 0x31) 8)) =
      [(8, 8), (9, 20), (10, 168), (11, 1)] ∧
    valid (after (.tcdecAsca 0 true) (holding (List.replicate 21 0xFF) 0)) =
      [(8, 0), (9, 20), (10, 160), (11, 0), (12, 0xFF)] := by decide
/-- 2.3: 22 bytes, ASCB 3, 1 reads the terminator, ASCB 4, 1 truncates. -/
theorem test_tcdecAscb : valid (after (.tcdecAscb 3 true) (holding (List.replicate 21 0x31 ++ [0x5A]) 0)) =
      [(8, 0), (9, 18), (10, 144), (11, 3), (12, 0x5A)] ∧
    answer (after (.tcdecAscb 4 true) (holding (List.replicate 22 0x31) 0)) = some (1, 0) := by decide
/-- 2.4. -/
theorem test_ovhd : [0, 1, 2, 3, 4, 5, 6].map (fun v => answer (after (.ovhd v) State.reset)) =
    [some (0, 0), some (0, 3), some (0, 7), some (0, 8), some (0, 20), some (0, 18), some (5, 0)] := by decide
/-- 2.4: PAYLEN 54, 20, 23 and PAYLEN 42, 20, 23. -/
theorem test_paylen : answer (after (.paylen 54 20 23) State.reset) = some (0, 11) ∧
    answer (after (.paylen 42 20 23) State.reset) = some (3, 0) := by decide
/-- 2.4: PAYEXT 10, 0, 0 at CUR 235 of 40 bytes; 11 bytes truncate. -/
theorem test_payext : (after (.payext 10 0 0) (holding (List.replicate 40 1) 235)).cur = 315 ∧
    (after (.payext 10 0 0) (holding (List.replicate 40 1) 235)).poff = 235 ∧
    answer (after (.payext 11 0 0) (holding (List.replicate 40 1) 235)) = some (1, 0) := by decide
/-- 2.5: `1B`, BUFWR 3, 0xAA clears the gap; the whole of V is tested. -/
theorem test_bufwr : bytesOf (after (.bufwr 3 0xAA) (holding [0x1B] 0)) = [0x1B, 0, 0, 0xAA] ∧
    answer (after (.bufwr 0 0x100) (holding [0x1B] 0)) = some (5, 0) := by decide
/-- 2.5. -/
theorem test_bufrd : answer (after (.bufrd 3) (holding [0x1B, 0xFF, 0x00, 0xAA] 0)) = some (0, 0xAA) ∧
    answer (after (.bufrd 4) (holding [0x1B, 0xFF, 0x00, 0xAA] 0)) = some (5, 0) := by decide
/-- 2.5: SETLEN 1 then SETLEN 3 clears what it brings back. -/
theorem test_setlen : bytesOf (after (.setlen 3) (after (.setlen 1) (holding [0x12, 0x34, 0x56] 24))) = [0x12, 0, 0] := by
  decide
/-- 2.5: 524336 is a position, 524337 is not. -/
theorem test_seek : (after (.seek 524336) (holding [0x12] 0)).cur = 524336 ∧
    answer (after (.seek 524337) (holding [0x12] 0)) = some (5, 0) := by decide
/-- 2.5: GETF 0 from reset. -/
theorem test_getf : answer (after (.getf 0) State.reset) = some (5, 0) ∧
    answer (after (.getf 9) (withF State.reset [(9, 0xABCD)])) = some (0, 0xABCD) := by decide
/-- 2.5: SETF 9, 0xABCD. -/
theorem test_setf : valid (after (.setf 9 0xABCD) State.reset) = [(9, 0xABCD)] ∧
    (after (.setf 9 0xABCD) State.reset).fv = 0x0200 := by decide
/-- 2.5: GETS ID. -/
theorem test_gets : answer (after (.gets 8) State.reset) = some (0, 0x42464301) := by decide
/-- R179: the mask is cleared. -/
theorem test_clre : (after .clre (raise .range State.reset)).erracc = 0 ∧
    (raise .range State.reset).erracc = 0b00010 := by decide
/-- 30_encoding R77: an illegal command sets only bit 4 of ERRACC. -/
theorem test_illegal_step : stepped (State.reset.withFetchWord 32 0x47000001) = raise .operand State.reset := by decide

/-! ### Witnesses: the hypotheses of each statement hold somewhere, each clause at a boundary -/

/-- NOP presented to the block after reset. -/
def nopPresented : State := presentCommand State.reset 0x00000000#32 0
/-- RDBITS 1 presented to the block after reset: it truncates. -/
def readPresented : State := presentCommand State.reset 0x01000001#32 0
/-- An illegal command presented to the block after reset. -/
def illegalPresented : State := presentCommand State.reset 0x05000000#32 0
/-- CLRE presented to the block with a mask that is not 0. -/
def clrePresented : State := presentCommand (raise .range State.reset) 0x47000000#32 0

/-- The seven values of 41_primary_header R124. -/
def golden : List (BitVec 4 × Word) := [(0, 0), (1, 1), (2, 1), (3, 0x3FF), (4, 3), (5, 0x1AAA), (6, 100)]

theorem witness_stepRunsDecodedCommand :
    nopPresented.inputs = [.command 0x00000000#32 0] ∧ decode 0x00000000#32 0 = .ok .nop := by decide

theorem witness_illegalCommand : ¬ illegal 0x00000000#32 0 ∧ illegal 0x05000000#32 0 ∧
    illegalPresented.inputs = [.command 0x05000000#32 0] := by
  unfold illegal illegalFields assignedOpcodes
  decide

theorem witness_encodedCommand : (Instr.ovhd 5).wellFormed = true ∧ (Instr.gets 8).wellFormed = true := by decide

theorem witness_decodedCommand : decode 0x32000000#32 0xFFFFFFFFFFFFFFFF = .ok (.payext 0xFFFF 0xFFFF 0xFFFFFFFF) ∧
    usesData (.payext 0xFFFF 0xFFFF 0xFFFFFFFF) = true ∧ decode 0x10000000#32 9 = .ok .phdec ∧
    usesData .phdec = false := by decide

theorem witness_resetInput : (nopPresented.setInputs [.reset]).inputs = .reset :: [] := by decide

theorem witness_idle : State.reset.inputs = [] := by decide

theorem witness_firstCommand : 1 ≤ (1 : BitVec 24).toNat ∧ (128 : BitVec 24).toNat ≤ 128 ∧ (7 : BitVec 4).toNat < 8 := by
  decide

theorem witness_failingCommand : readPresented.inputs = [.command 0x01000001#32 0] ∧
    step readPresented = .next (stepped readPresented) ∧
    (stepped readPresented).rsp = some { err := some .truncatedInput, val := 0 } := ⟨rfl, rfl, rfl⟩

theorem witness_erracc : exec (.rdbits 1) State.reset = .next (after (.rdbits 1) State.reset) ∧
    (after (.rdbits 1) State.reset).rsp = some { err := some .truncatedInput, val := 0 } ∧
    (after .nop State.reset).rsp = some { err := none, val := 0 } ∧ Instr.nop ≠ .clre :=
  ⟨exec_after _ _, by decide, by decide, by decide⟩

theorem witness_oneResponse : readPresented.inputs = [.command 0x01000001#32 0] ∧
    (stepped readPresented).rsp.map Response.errCode = some 1 := by decide

theorem witness_matrix : exec .phdec State.reset = .next (after .phdec State.reset) ∧
    (after .phdec State.reset).rsp = some { err := some .truncatedInput, val := 0 } := ⟨exec_after _ _, by decide⟩

theorem witness_operandError : step illegalPresented = .next (stepped illegalPresented) ∧
    step (illegalPresented.setBuf [(0, 1)]) = .next (stepped (illegalPresented.setBuf [(0, 1)])) := ⟨rfl, rfl⟩

theorem witness_errAny : step clrePresented = .next (stepped clrePresented) ∧ clrePresented.errAny = true ∧
    (stepped clrePresented).errAny = false := ⟨rfl, by decide, by decide⟩

theorem witness_invariant : (holding [0x12] 524336).Inv ∧
    step (holding [0x12] 524336) = .next (stepped (holding [0x12] 524336)) :=
  ⟨by unfold State.Inv; decide, rfl⟩

/-- Two states that differ in a byte above LEN and in a register that holds no value. -/
theorem witness_sameVisible : SameVisible nopPresented ((nopPresented.setBuf [(0, 1)]).setF (Vector.replicate 16 1)) ∧
    step nopPresented = .next (stepped nopPresented) := by
  refine ⟨⟨fun p hp => ?_, fun a ha => absurd ha (Nat.not_lt_zero a), by decide⟩, rfl⟩
  cases p <;> first | rfl | exact absurd hp (by decide)

theorem witness_onlyStores : writesBuffer .nop = false ∧ exec .nop State.reset = .next (after .nop State.reset) :=
  ⟨rfl, exec_after _ _⟩

theorem witness_validMask :
    Succeeds .phdec (holding [1, 2, 3, 4, 5, 6] 0) (after .phdec (holding [1, 2, 3, 4, 5, 6] 0)) ∧
    Succeeds .tcdecNone State.reset (after .tcdecNone State.reset) ∧
    Succeeds .tcdecCuc (holding [0x20, 0x7F, 0x80] 0) (after .tcdecCuc (holding [0x20, 0x7F, 0x80] 0)) ∧
    Succeeds .tcdecCuc (holding [0x80, 3, 1, 2] 0) (after .tcdecCuc (holding [0x80, 3, 1, 2] 0)) ∧
    Succeeds .tcdecCds (holding [0x40, 1, 2, 3, 4, 5, 6] 0) (after .tcdecCds (holding [0x40, 1, 2, 3, 4, 5, 6] 0)) ∧
    Succeeds .tcdecCds (holding [0x41, 1, 2, 3, 4, 5, 6, 7, 8] 0) (after .tcdecCds (holding [0x41, 1, 2, 3, 4, 5, 6, 7, 8] 0)) ∧
    Succeeds .tcdecCcs (holding [0x50, 1, 2, 3, 4, 5, 6, 7] 0) (after .tcdecCcs (holding [0x50, 1, 2, 3, 4, 5, 6, 7] 0)) ∧
    Succeeds .tcdecCcs (holding [0x59, 1, 2, 3, 4, 5, 6, 7] 0) (after .tcdecCcs (holding [0x59, 1, 2, 3, 4, 5, 6, 7] 0)) ∧
    Succeeds (.tcdecAsca 0 false) (holding (List.replicate 20 1) 0) (after (.tcdecAsca 0 false) (holding (List.replicate 20 1) 0)) ∧
    Succeeds (.tcdecAscb 0 true) (holding (List.replicate 19 1) 0) (after (.tcdecAscb 0 true) (holding (List.replicate 19 1) 0)) ∧
    Succeeds (.setf 15 0) State.reset (after (.setf 15 0) State.reset) ∧
    Succeeds .nop State.reset (after .nop State.reset) := by
  refine ⟨?_, ?_, ?_, ?_, ?_, ?_, ?_, ?_, ?_, ?_, ?_, ?_⟩ <;> exact succeeds_after (by decide)

/-- RDBITS: 129, 0, one bit past four bytes, 128 bits of four bytes, all 32 bits, all 128 bits of sixteen bytes. -/
theorem witness_rdbits : 128 < (129 : BitVec 24).toNat ∧ (0 : BitVec 24).toNat = 0 ∧
    8 * (holding [1, 2, 3, 4] 32).len.toNat < (holding [1, 2, 3, 4] 32).cur.toNat + (1 : BitVec 24).toNat ∧
    8 * (holding [1, 2, 3, 4] 0).len.toNat < (holding [1, 2, 3, 4] 0).cur.toNat + (128 : BitVec 24).toNat ∧
    (holding [1, 2, 3, 4] 31).cur.toNat + (1 : BitVec 24).toNat ≤ 8 * (holding [1, 2, 3, 4] 31).len.toNat ∧
    (holding (List.replicate 16 1) 0).cur.toNat + (128 : BitVec 24).toNat ≤ 8 * (holding (List.replicate 16 1) 0).len.toNat := by
  decide

theorem witness_successiveReads : (8 : BitVec 24).toNat = (3 : BitVec 24).toNat + (5 : BitVec 24).toNat ∧
    Succeeds (.rdbits 3) (holding [0xA5] 0) (after (.rdbits 3) (holding [0xA5] 0)) ∧
    Succeeds (.rdbits 5) (after (.rdbits 3) (holding [0xA5] 0)) (after (.rdbits 5) (after (.rdbits 3) (holding [0xA5] 0))) :=
  ⟨by decide, succeeds_after (by decide), succeeds_after (by decide)⟩

/-- WRBITS: 129, one bit past the capacity, 0 at the capacity, a value of `2^n`, and the last bit of the capacity with the
largest value. -/
theorem witness_wrbits : 128 < (129 : BitVec 24).toNat ∧
    8 * Config.bufBytes < (holding [] 524336).cur.toNat + (1 : BitVec 24).toNat ∧
    ((0 : BitVec 24).toNat = 0 ∧ (holding [] 524336).cur.toNat ≤ 8 * Config.bufBytes) ∧
    2 ^ (3 : BitVec 24).toNat ≤ (8 : Word).toNat ∧
    ((holding [] 524335).cur.toNat + (1 : BitVec 24).toNat ≤ 8 * Config.bufBytes ∧
      (1 : Word).toNat < 2 ^ (1 : BitVec 24).toNat) := by decide

theorem witness_writeAndRead : Succeeds (.wrbits 3 5) State.reset (after (.wrbits 3 5) State.reset) ∧
    (holding [0xA5] 5).Inv ∧ Succeeds (.rdbits 3) (holding [0xA5] 5) (after (.rdbits 3) (holding [0xA5] 5)) :=
  ⟨succeeds_after (by decide), by unfold State.Inv; decide, succeeds_after (by decide)⟩

theorem witness_rdbytes : 16 < (17 : BitVec 24).toNat ∧ (0 : BitVec 24).toNat = 0 ∧
    8 * (holding [1, 2] 1).len.toNat < (holding [1, 2] 1).cur.toNat + 8 * (2 : BitVec 24).toNat ∧
    ((holding [1, 2] 0).cur.toNat + 8 * (2 : BitVec 24).toNat ≤ 8 * (holding [1, 2] 0).len.toNat ∧
      (holding [1, 2] 0).cur.toNat % 8 = 0) := by decide

theorem witness_wrbytes : 16 < (17 : BitVec 24).toNat ∧
    8 * Config.bufBytes < (holding [] 524329).cur.toNat + 8 * (1 : BitVec 24).toNat ∧
    ((0 : BitVec 24).toNat = 0 ∧ (holding [] 524336).cur.toNat ≤ 8 * Config.bufBytes) ∧
    2 ^ (8 * (2 : BitVec 24).toNat) ≤ (0x10000 : Word).toNat ∧
    ((holding [] 524328).cur.toNat + 8 * (1 : BitVec 24).toNat ≤ 8 * Config.bufBytes ∧
      (0xFF : Word).toNat < 2 ^ (8 * (1 : BitVec 24).toNat)) := by decide

theorem witness_secondWrite : Succeeds (.wrbits 11 0x3FF) (holding [0xB0] 4) (after (.wrbits 11 0x3FF) (holding [0xB0] 4)) :=
  succeeds_after (by decide)

/-- Short operands that are not 0 for the Z and P formats, and the first illegal ones of the S formats. -/
theorem witness_rejectsOperandFrom :
    (0x00000001#32).toNat / 2 ^ 24 = 0x00 ∧ (0x10000001#32).toNat / 2 ^ 24 = 0x10 ∧ (0x11800000#32).toNat / 2 ^ 24 = 0x11 ∧
    (0x31000001#32).toNat / 2 ^ 24 = 0x31 ∧ (0x32000001#32).toNat / 2 ^ 24 = 0x32 ∧ (0x47000001#32).toNat / 2 ^ 24 = 0x47 ∧
    1 ≤ (0x47000001#32).toNat % 2 ^ 24 ∧
    ((0x30000006#32).toNat / 2 ^ 24 = 0x30 ∧ 6 ≤ (0x30000006#32).toNat % 2 ^ 24) ∧
    ((0x44000010#32).toNat / 2 ^ 24 = 0x44 ∧ 16 ≤ (0x44000010#32).toNat % 2 ^ 24) ∧
    ((0x45000010#32).toNat / 2 ^ 24 = 0x45 ∧ 16 ≤ (0x45000010#32).toNat % 2 ^ 24) ∧
    ((0x46000009#32).toNat / 2 ^ 24 = 0x46 ∧ 9 ≤ (0x46000009#32).toNat % 2 ^ 24) := by decide

theorem witness_phdec : 8 * (holding [1, 2, 3, 4, 5, 6] 1).len.toNat < (holding [1, 2, 3, 4, 5, 6] 1).cur.toNat + 48 ∧
    (holding [1, 2, 3, 4, 5, 6] 0).cur.toNat + 48 ≤ 8 * (holding [1, 2, 3, 4, 5, 6] 0).len.toNat := by decide

/-- PHENC: F6 invalid, 47 bits left, F0 of four bits, and the golden values with 48 bits left. -/
theorem witness_phenc :
    (¬ ∀ i : BitVec 4, i.toNat < 7 → fvValid (withF State.reset (golden.take 6)).fv i = true) ∧
    8 * Config.bufBytes < (withF (holding [] 524289) golden).cur.toNat + 48 ∧
    ((∀ i : BitVec 4, i.toNat < 7 → fvValid (withF State.reset ((0, 8) :: golden.drop 1)).fv i = true) ∧
      (withF State.reset ((0, 8) :: golden.drop 1)).cur.toNat + 48 ≤ 8 * Config.bufBytes ∧
      ¬ headerFits (withF State.reset ((0, 8) :: golden.drop 1)).f) ∧
    ((∀ i : BitVec 4, i.toNat < 7 → fvValid (withF (holding [] 524288) golden).fv i = true) ∧
      (withF (holding [] 524288) golden).cur.toNat + 48 ≤ 8 * Config.bufBytes ∧
      headerFits (withF (holding [] 524288) golden).f) := by decide

theorem witness_headerRoundTrip : (holding [1, 2, 3, 4, 5, 6] 0).Inv ∧
    Succeeds .phdec (holding [1, 2, 3, 4, 5, 6] 0) (after .phdec (holding [1, 2, 3, 4, 5, 6] 0)) ∧
    Succeeds .phenc (withF State.reset golden) (after .phenc (withF State.reset golden)) :=
  ⟨by unfold State.Inv; decide, succeeds_after (by decide), succeeds_after (by decide)⟩

/-- CUC: three bytes are enough without an extension, four bytes with a second-octet count are not. -/
theorem witness_cuc : errorOf .tcdecCuc (holding [0x20, 0x7F, 0x80] 0) = none ∧
    errorOf .tcdecCuc (holding [0x80, 0x03, 0x11, 0x22] 0) = none ∧
    errorOf .tcdecCuc (holding [0x14, 0x12, 0x34] 0) = some .truncatedInput ∧
    errorOf .tcdecCuc (holding [0x94] 0) = some .truncatedInput := by decide

/-- A layout of the extension byte that is not BFC-1's. -/
theorem witness_cucLayout : CucxLayout.valid { ext := 2, basic := 1, frac := 3, reserved := 2 } = true := by decide

/-- CDS: no byte, `ssl = 3` on one byte, six of seven bytes, all seven, and eleven with four of sub-milliseconds. -/
theorem witness_cds : errorOf .tcdecCds (holding [] 0) = some .truncatedInput ∧
    errorOf .tcdecCds (holding [0x43] 0) = some .encoding ∧
    errorOf .tcdecCds (holding [0x40, 1, 2, 3, 4, 5] 0) = some .truncatedInput ∧
    errorOf .tcdecCds (holding [0x40, 1, 2, 3, 4, 5, 6] 0) = none ∧
    errorOf .tcdecCds (holding [0x42, 1, 2, 3, 4, 5, 6, 7, 8, 9, 10] 0) = none := by decide

/-- CCS: seven of eight bytes, both branches with exactly their bytes, and a sub-second field. -/
theorem witness_ccs : errorOf .tcdecCcs (holding [0x50, 1, 2, 3, 4, 5, 6] 0) = some .truncatedInput ∧
    errorOf .tcdecCcs (holding [0x50, 1, 2, 3, 4, 5, 6, 7] 0) = none ∧
    errorOf .tcdecCcs (holding [0x58, 1, 2, 3, 4, 5, 6] 0) = none ∧
    errorOf .tcdecCcs (holding [0x59, 1, 2, 3, 4, 5, 6, 7] 0) = none := by decide

theorem witness_ccsBranches :
    Succeeds .tcdecCcs (holding [0x50, 1, 2, 3, 4, 5, 6, 7] 0) (after .tcdecCcs (holding [0x50, 1, 2, 3, 4, 5, 6, 7] 0)) ∧
    Succeeds .tcdecCcs (holding [0x58, 1, 2, 3, 4, 5, 6] 0) (after .tcdecCcs (holding [0x58, 1, 2, 3, 4, 5, 6] 0)) ∧
    (after .tcdecCcs (holding [0x50, 1, 2, 3, 4, 5, 6, 7] 0)).result 3 =
      (after .tcdecCcs (holding [0x58, 1, 2, 3, 4, 5, 6] 0)).result 3 ∧
    (after .tcdecCcs (holding [0x50, 1, 2, 3, 4, 5, 6, 7] 0)).result 2 = some 0 ∧
    (after .tcdecCcs (holding [0x58, 1, 2, 3, 4, 5, 6] 0)).result 2 = some 1 :=
  ⟨succeeds_after (by decide), succeeds_after (by decide), by decide, by decide, by decide⟩

/-- ASCA and ASCB: one byte too few, exactly enough, and the largest decimal count. -/
theorem witness_ascii : errorOf (.tcdecAsca 0 false) (holding (List.replicate 19 1) 0) = some .truncatedInput ∧
    errorOf (.tcdecAsca 0 true) (holding (List.replicate 21 1) 0) = none ∧
    errorOf (.tcdecAsca 65535 true) (holding (List.replicate 21 1) 0) = some .truncatedInput ∧
    errorOf (.tcdecAscb 0 false) (holding (List.replicate 17 1) 0) = some .truncatedInput ∧
    errorOf (.tcdecAscb 0 true) (holding (List.replicate 19 1) 0) = none := by decide

theorem witness_decimalCount : (3 : BitVec 16).toNat ≤ (5 : BitVec 16).toNat ∧
    Succeeds (.tcdecAsca 5 false) (holding (List.replicate 25 1) 0) (after (.tcdecAsca 5 false) (holding (List.replicate 25 1) 0)) ∧
    Succeeds (.tcdecAscb 5 false) (holding (List.replicate 25 1) 0) (after (.tcdecAscb 5 false) (holding (List.replicate 25 1) 0)) :=
  ⟨by decide, succeeds_after (by decide), succeeds_after (by decide)⟩

/-- The same three bytes at another position of another buffer. -/
theorem witness_consumedBits : isTimeCode .tcdecCuc = true ∧
    Succeeds .tcdecCuc (holding [0x20, 0x7F, 0x80] 0) (after .tcdecCuc (holding [0x20, 0x7F, 0x80] 0)) ∧
    (after .tcdecCuc (holding [0x20, 0x7F, 0x80] 0)).bcnt = 3 ∧
    (holding [9, 0x20, 0x7F, 0x80] 8).cur.toNat + 8 * 3 ≤ 8 * (holding [9, 0x20, 0x7F, 0x80] 8).len.toNat ∧
    ∀ k < 8 * 3, streamBit (holding [9, 0x20, 0x7F, 0x80] 8) (8 + k) = streamBit (holding [0x20, 0x7F, 0x80] 0) k :=
  ⟨rfl, succeeds_after (by decide), by decide, by decide, by unfold streamBit; decide⟩

theorem witness_timeCodeReplaces : isTimeCode .tcdecNone = true ∧ Instr.tcdecNone ≠ .tcdecCuc ∧
    Succeeds .tcdecNone State.reset (after .tcdecNone State.reset) ∧
    Succeeds .tcdecCuc (holding [0x80, 3, 1, 2] 0) (after .tcdecCuc (holding [0x80, 3, 1, 2] 0)) ∧
    streamField (holding [0x80, 3, 1, 2] 0) 0 1 = 1 ∧ streamField (holding [0x20, 0x7F, 0x80] 0) 0 1 = 0 :=
  ⟨rfl, by decide, succeeds_after (by decide), succeeds_after (by decide), by unfold streamField streamBit; decide,
    by unfold streamField streamBit; decide⟩

theorem witness_ovhd : (5 : BitVec 3).toNat < 6 ∧ 6 ≤ (6 : BitVec 3).toNat := by decide

/-- PAYLEN and PAYEXT: bit 64 of V, a difference of -1, of 0 at the last bit of LEN and one bit past it. -/
theorem witness_payload : (0x31000000#32).toNat / 2 ^ 24 = 0x31 ∧ (0x32000000#32).toNat / 2 ^ 24 = 0x32 ∧
    2 ^ 64 ≤ (0x10000000000000000#128).toNat ∧ payloadInt 42 20 23 < 0 ∧ 0 ≤ payloadInt 43 20 23 ∧
    (((holding [1] 8).cur.toNat : Int) + 8 * payloadInt 43 20 23 ≤ 8 * (holding [1] 8).len.toNat) ∧
    ((8 * (holding [1] 9).len.toNat : Int) < (holding [1] 9).cur.toNat + 8 * payloadInt 43 20 23) := by decide

theorem witness_payloadLaws : Succeeds (.paylen 54 20 23) (holding [1] 0) (after (.paylen 54 20 23) (holding [1] 0)) ∧
    Succeeds (.paylen 54 20 25) (holding [1] 0) (after (.paylen 54 20 25) (holding [1] 0)) ∧
    (25 : BitVec 32).toNat = (23 : BitVec 32).toNat + 2 ∧
    Succeeds (.payext 1 0 0) (holding [1] 0) (after (.payext 1 0 0) (holding [1] 0)) ∧
    Aborts (.payext 0 1 0) (holding [1] 0) .corruptPacket :=
  ⟨succeeds_after (by decide), succeeds_after (by decide), by decide, succeeds_after (by decide), aborts_iff.mpr (by decide)⟩

theorem witness_bufwr : Config.bufBytes ≤ (65542 : BitVec 24).toNat ∧ 256 ≤ (256 : Word).toNat ∧
    ((65541 : BitVec 24).toNat < Config.bufBytes ∧ (255 : Word).toNat < 256) := by decide

theorem witness_bufrd : (holding [1] 0).len.toNat ≤ (1 : BitVec 24).toNat ∧ (0 : BitVec 24).toNat < (holding [1] 0).len.toNat := by
  decide

theorem witness_setlen : Config.bufBytes < (65543 : BitVec 24).toNat ∧ (65542 : BitVec 24).toNat ≤ Config.bufBytes := by decide

theorem witness_seek : 8 * Config.bufBytes < (524337 : BitVec 24).toNat ∧ (524336 : BitVec 24).toNat ≤ 8 * Config.bufBytes := by
  decide

theorem witness_getf : State.reset.fv.getLsbD (15 : BitVec 4).toNat = false ∧
    (withF State.reset [(15, 1)]).fv.getLsbD (15 : BitVec 4).toNat = true := by decide

theorem witness_gets : (8 : BitVec 4).toNat < 9 ∧ 9 ≤ (9 : BitVec 4).toNat := by decide

theorem witness_clre : (presentCommand State.reset 0x47000001#32 0).inputs = [.command 0x47000001#32 0] ∧
    (0x47000001#32).toNat / 2 ^ 24 = 0x47 ∧ (0x47000001#32).toNat % 2 ^ 24 ≠ 0 := by decide

theorem witness_hostAccess : isHostAccess (.seek 48) = true ∧ exec (.seek 48) State.reset = .next (after (.seek 48) State.reset) ∧
    (after (.seek 48) State.reset).cur ≠ State.reset.cur ∧ (after (.setlen 3) State.reset).len ≠ State.reset.len ∧
    (after (.setf 3 7) State.reset).result 3 ≠ State.reset.result 3 :=
  ⟨rfl, exec_after _ _, by decide, by decide, by decide⟩

end Sys2Proof.Tests
end

section
/-! The obligations of 10_state: reset, the invariant of R30, what the host can see, which commands touch BUF, LEN, F and FV. -/

namespace Sys2Proof.Machine

/-! ### Reset -/

theorem reset_result (i : BitVec 4) : State.reset.result i = none :=
  if_neg (by simp [State.reset, fvValid])

/-- Settles O6: every register by evaluation, and at LEN 0 the bound of BUFRD fails for every index. -/
theorem resetStateHoldsSpecValues : Obligations.ResetStateHoldsSpecValues := by
  refine ⟨rfl, rfl, rfl, rfl, rfl, rfl, rfl, rfl, rfl, rfl, rfl, reset_result, fun idx => aborts_iff.mpr ?_⟩
  simp [errorOf, State.reset]

theorem reset_inv : State.reset.Inv :=
  ⟨Nat.zero_le _, Nat.zero_le _, Nat.zero_le _, ⟨List.Pairwise.nil, by simp [State.reset]⟩, by simp [State.reset]⟩

/-- Settles O17: the registers are 0 and no cell is listed. -/
theorem resetMeetsInvariant : Obligations.ResetMeetsInvariant := reset_inv

/-! ### The invariant of 10_state R30 -/

/-- The invariant speaks of LEN, CUR, POFF and BUF only. -/
theorem State.Inv.congr {s t : State} (h : s.Inv) (hl : t.len = s.len) (hc : t.cur = s.cur) (hp : t.poff = s.poff)
    (hb : t.buf = s.buf) : t.Inv := by
  unfold State.Inv
  rw [hl, hc, hp, hb]
  exact h

theorem State.Inv.moveTo {s : State} (h : s.Inv) {q : Nat} (hq : q ≤ 8 * Config.bufBytes) : (s.moveTo q).Inv := by
  obtain ⟨hlen, -, hrest⟩ := h
  exact ⟨hlen, (Nat.mod_le q (2 ^ 24)).trans hq, hrest⟩

/-- Inside the valid bits is inside the capacity. -/
theorem State.Inv.le_capacity {s : State} (h : s.Inv) {q : Nat} (hq : q ≤ s.validBits) : q ≤ 8 * Config.bufBytes :=
  hq.trans (Nat.mul_le_mul_left 8 h.1)

/-- Another buffer and LEN keep the invariant when LEN is in bounds and the buffer is canonical and inside its capacity. -/
theorem State.Inv.store {s t : State} (h : s.Inv) (hc : t.cur = s.cur) (hp : t.poff = s.poff)
    (hl : t.len.toNat ≤ Config.bufBytes) (hw : Memory.wf t.buf) (hb : ∀ c ∈ t.buf, c.1 < Config.bufBytes) : t.Inv := by
  obtain ⟨-, hcur, hpoff, -⟩ := h
  exact ⟨hl, hc ▸ hcur, hp ▸ hpoff, hw, hb⟩

theorem State.Inv.grow {s : State} (h : s.Inv) {n : Nat} (hn : n ≤ Config.bufBytes) : (s.grow n).Inv := by
  have hs := h
  obtain ⟨hlen, -, -, hwf, hbelow⟩ := h
  have hg := State.grow_len n s (lt_of_le_of_lt hn (by decide))
  refine hs.store (by simp) (by simp) (by omega) ?_ ?_
  all_goals unfold State.grow; split
  · exact Memory.wf_zeroRange hwf _ _
  · exact hwf
  · exact fun c hc => hbelow c (List.mem_filter.mp hc).1
  · exact hbelow

theorem State.Inv.memWrite {s : State} (h : s.Inv) {q n v : Nat} (hq : q + n ≤ capacityBits) :
    (s.memWrite q n v).Inv := by
  unfold capacityBits at hq
  obtain ⟨hlen, -, -, hwf, hbelow⟩ := h.grow (n := (q + n + 7) / 8) (by omega)
  refine h.store (by simp) (by simp) hlen (Memory.wf_writeBits hwf _ _ _) fun c hc => ?_
  rcases Memory.writeBits_lists hc with ⟨i, hi, he⟩ | hc
  · omega
  · exact hbelow c hc

theorem State.Inv.storeByte {s : State} (h : s.Inv) {idx : Nat} {b : Byte} (hi : idx < Config.bufBytes) :
    (s.storeByte idx b).Inv := by
  obtain ⟨hlen, -, -, hwf, hbelow⟩ := h.grow (n := idx + 1) hi
  refine h.store (by simp) (by simp) hlen (Memory.wf_write hwf _ _) fun c hc => ?_
  rcases Memory.write_lists hc with he | hc
  · omega
  · exact hbelow c hc

theorem State.Inv.resize {s : State} (h : s.Inv) {n : Nat} (hn : n ≤ Config.bufBytes) : (s.resize n).Inv := by
  obtain ⟨-, -, -, hwf, hbelow⟩ := h.grow hn
  exact h.store (by simp) (by simp) (by rw [State.resize_len n s (lt_of_le_of_lt hn (by decide))]; exact hn) hwf hbelow

/-- A test in front of the rest of a command's tests: no error when it passes and the rest reports none. -/
@[simp] theorem test_eq_none {p : Prop} [Decidable p] {e : ErrorKind} {rest : Option ErrorKind} :
    (if p then some e else rest) = none ↔ ¬ p ∧ rest = none := by
  split <;> simp [*]

@[simp] theorem truncatedBelow_eq_none {bits : Nat} {s : State} :
    truncatedBelow bits s = none ↔ s.cur.toNat + bits ≤ s.validBits := by
  simp [truncatedBelow]

@[simp] theorem readError_eq_none {n : Nat} {s : State} :
    readError n s = none ↔ n ≠ 0 ∧ s.cur.toNat + n ≤ s.validBits := by
  simp [readError]

@[simp] theorem writeError_eq_none {n v : Nat} {s : State} :
    writeError n v s = none ↔ s.cur.toNat + n ≤ capacityBits ∧ n ≠ 0 ∧ v < 2 ^ n := by
  simp [writeError]

/-- PAYEXT's POFF is the cursor, which is in bounds (43_payload R163). -/
theorem State.Inv.markSlice {s : State} (h : s.Inv) (len : BitVec 16) : ((s.setPoff s.cur).setPlen len).Inv := by
  obtain ⟨hlen, hcur, -, hbuf⟩ := h
  exact ⟨hlen, hcur, hcur, hbuf⟩

theorem State.Inv.readCommit {s : State} (h : s.Inv) {n : Nat} (hn : s.cur.toNat + n ≤ s.validBits) :
    (readCommit n s).1.Inv :=
  (h.congr (t := s.setRval _) rfl rfl rfl rfl).moveTo (h.le_capacity hn)

theorem State.Inv.writeCommit {s : State} (h : s.Inv) {n v : Nat} (hn : s.cur.toNat + n ≤ capacityBits) :
    (writeCommit n v s).1.Inv :=
  (h.memWrite hn).moveTo hn

theorem State.Inv.timeCodeCommit {s : State} (h : s.Inv) {rs : List (BitVec 4 × Word)} {fv : BitVec 16} {bytes : Nat}
    (hn : s.cur.toNat + 8 * bytes ≤ s.validBits) : (timeCodeCommit s rs fv bytes).1.Inv :=
  (h.congr (t := (s.populate rs fv).setBcnt _) rfl rfl rfl rfl).moveTo (h.le_capacity hn)

/-- What a successful command commits meets the invariant: each cursor and LEN is bounded by the command's own tests. -/
theorem State.Inv.commit {s : State} (h : s.Inv) {i : Instr} (he : errorOf i s = none) : (commitOf i s).1.Inv := by
  cases i <;> simp only [errorOf, test_eq_none, truncatedBelow_eq_none, readError_eq_none, writeError_eq_none, not_lt] at he
  case nop | ovhd | bufrd | getf | gets => exact h
  case setf | clre | paylen => exact h.congr rfl rfl rfl rfl
  case rdbits | rdbytes => exact h.readCommit he.2.2
  case wrbits | wrbytes => exact h.writeCommit he.2.1
  case phenc => exact h.writeCommit he.2.1
  case phdec => exact (h.congr (t := s.populate _ _) rfl rfl rfl rfl).moveTo (h.le_capacity he)
  case tcdecNone => exact (h.congr (t := (s.populate [] 0).setBcnt _) rfl rfl rfl rfl).moveTo h.2.1
  case tcdecCuc | tcdecCcs | tcdecAsca | tcdecAscb => exact h.timeCodeCommit he
  case tcdecCds => exact h.timeCodeCommit he.2.2
  case payext => exact (h.markSlice _).moveTo (h.le_capacity he.2)
  case bufwr => exact h.storeByte (by omega)
  case setlen => exact h.resize he.1
  case seek => exact h.moveTo he.1

theorem State.Inv.exec_next {s t : State} (h : s.Inv) {i : Instr} (hx : exec i s = .next t) : t.Inv := by
  rcases exec_cases hx with ⟨e, -, rfl⟩ | ⟨he, rfl⟩
  · exact h.congr rfl rfl rfl rfl
  · exact (h.commit he).congr rfl rfl rfl rfl

/-- Everything a step can do, by the host's oldest input. -/
theorem step_cases {s t : State} (h : step s = .next t) :
    (s.inputs = [] ∧ t = idle s) ∨ (∃ later, s.inputs = .reset :: later ∧ t = applyReset later) ∨
      ∃ c v later, s.inputs = .command c v :: later ∧
        ((∃ i, decode c v = .ok i ∧ exec i (s.setInputs later) = .next t) ∨
          ((∃ e, decode c v = .error e) ∧ t = raise .operand (s.setInputs later))) := by
  unfold step at h
  split at h
  next hi => exact .inl ⟨hi, (Host.Outcome.next.inj h).symm⟩
  next later hi => exact .inr (.inl ⟨later, hi, (Host.Outcome.next.inj h).symm⟩)
  next c v later hi =>
    refine .inr (.inr ⟨c, v, later, hi, ?_⟩)
    split at h
    next i hd => exact .inl ⟨i, hd, h⟩
    next e hd => exact .inr ⟨⟨e, hd⟩, (Host.Outcome.next.inj h).symm⟩

/-- Settles O18: a step idles, resets, aborts or runs a command, and each keeps the invariant. -/
theorem stepKeepsInvariant : Obligations.StepKeepsInvariant := by
  intro s t h hs
  rcases step_cases hs with ⟨-, rfl⟩ | ⟨later, -, rfl⟩ | ⟨c, v, later, -, ⟨i, -, hx⟩ | ⟨-, rfl⟩⟩
  · exact h.congr rfl rfl rfl rfl
  · exact reset_inv.congr rfl rfl rfl rfl
  · exact (h.congr (t := s.setInputs later) rfl rfl rfl rfl).exec_next hx
  · exact h.congr rfl rfl rfl rfl

/-! ### Commands that leave the buffer or the registers alone -/

theorem commitOf_keepsBuffer {i : Instr} (h : writesBuffer i = false) (s : State) :
    (commitOf i s).1.len = s.len ∧ (commitOf i s).1.buf = s.buf := by
  cases i
  case wrbits | wrbytes | phenc | bufwr | setlen => cases h
  all_goals exact ⟨rfl, rfl⟩

/-- Settles O20: an abort keeps the buffer, and so does the commit of every command that stores nothing. -/
theorem onlyStoresChangeTheBuffer : Obligations.OnlyStoresChangeTheBuffer := by
  intro i s t h hx
  rcases exec_cases hx with ⟨e, -, rfl⟩ | ⟨-, rfl⟩
  · exact ⟨rfl, fun _ => rfl⟩
  · obtain ⟨hl, hb⟩ := commitOf_keepsBuffer h s
    exact ⟨hl, fun a => congrArg (Memory.read · a) hb⟩

theorem fvCuc_streamField (s : State) (q : Nat) :
    fvCuc (Memory.bit s.buf q) = if streamField s q 1 = 1 then 0x03FF#16 else 0x030F#16 := by
  rw [streamField_eq, readBits_one]
  cases Memory.bit s.buf q <;> rfl

theorem fvCds_streamField (s : State) (q : Nat) :
    fvCds (decide (0 < 2 * Memory.readBits s.buf q 2)) = if streamField s q 2 = 0 then 0x031F#16 else 0x071F#16 := by
  rw [streamField_eq]
  cases Memory.readBits s.buf q 2 <;> rfl

theorem fvCcs_streamField (s : State) (q r : Nat) :
    fvCcs (Memory.bit s.buf q) (decide (0 < Memory.readBits s.buf r 3)) =
      0x710F#16 ||| (if streamField s q 1 = 0 then 0x0600#16 else 0x0800#16) |||
        (if streamField s r 3 = 0 then 0#16 else 0x8000#16) := by
  rw [streamField_eq, streamField_eq, readBits_one]
  cases Memory.bit s.buf q <;> cases Memory.readBits s.buf r 3 <;> rfl

/-- Settles O21: FV and F of the commit, command by command; the three masks that depend on the stream are compared with the
field that 10_state R28 tests. -/
theorem decodesRewriteTheValidMask : Obligations.DecodesRewriteTheValidMask := by
  intro i s t h
  obtain ⟨-, rfl⟩ := succeeds_iff.mp h
  cases i
  case phdec | tcdecNone | tcdecAsca | tcdecAscb => rfl
  case tcdecCuc => exact fvCuc_streamField s _
  case tcdecCds => exact fvCds_streamField s _
  case tcdecCcs => exact fvCcs_streamField s _ _
  case setf k v => exact fvValid_fvSet s.fv k
  case wrbits | wrbytes | phenc | bufwr | setlen => constructor <;> simp [commitOf, writeCommit]
  all_goals exact ⟨rfl, fun _ => rfl⟩

end Sys2Proof.Machine
end

section
/-! What the host cannot see is never observable (10_state R22, R24, R26, R27): a state and its twin with another buffer above LEN
and other contents of invalid registers report the same error, and otherwise commit twins and the same value. -/

namespace Sys2Proof.Machine

/-! ### States that differ in what the host cannot see -/

/-- `s` with BUF and F replaced. -/
def State.withHidden (s : State) (m : List Host.Cell) (f : Vector Word 16) : State := (s.setBuf m).setF f

section
variable (s : State) (m : List Host.Cell) (f : Vector Word 16)
@[simp] theorem State.withHidden_buf : (s.withHidden m f).buf = m := rfl
@[simp] theorem State.withHidden_f : (s.withHidden m f).f = f := rfl
@[simp] theorem State.withHidden_cur : (s.withHidden m f).cur = s.cur := rfl
@[simp] theorem State.withHidden_len : (s.withHidden m f).len = s.len := rfl
@[simp] theorem State.withHidden_fv : (s.withHidden m f).fv = s.fv := rfl
@[simp] theorem State.withHidden_validBits : (s.withHidden m f).validBits = s.validBits := rfl
@[simp] theorem State.withHidden_result (i : BitVec 4) :
    (s.withHidden m f).result i = if fvValid s.fv i then some (regGet f i) else none := rfl
end

/-- Replacing BUF by `m` and F by `f` shows nowhere: the valid bytes and the valid registers are those of `s`. -/
def State.Shows (s : State) (m : List Host.Cell) (f : Vector Word 16) : Prop :=
  (∀ a < s.len.toNat, Memory.read m a = Memory.read s.buf a) ∧
    ∀ i, fvValid s.fv i = true → regGet f i = regGet s.f i

theorem sameVisible_withHidden {s : State} {m : List Host.Cell} {f : Vector Word 16} (h : s.Shows m f) :
    SameVisible s (s.withHidden m f) := by
  obtain ⟨hm, hf⟩ := h
  refine ⟨fun p hp => ?_, hm, fun i => ?_⟩
  · cases p
    case buf | f => simp at hp
    all_goals rfl
  · rw [State.withHidden_result, State.result]
    exact if_ctx_congr Iff.rfl (fun hv => congrArg some (hf i hv)) fun _ => rfl

/-- Every state the host cannot tell from `s` is `s` with BUF and F replaced. -/
theorem SameVisible.exists_withHidden {s s' : State} (h : SameVisible s s') :
    ∃ m f, s' = s.withHidden m f ∧ s.Shows m f := by
  obtain ⟨hk, hm, hr⟩ := h
  refine ⟨s'.buf, s'.f, ?_, hm, fun i hv => ?_⟩
  · obtain ⟨buf, len, cur, f, fv, erracc, bcnt, plen, poff, rval, rsp, inputs⟩ := s
    obtain ⟨rfl, rfl, rfl, rfl, rfl, rfl, rfl, rfl, rfl, rfl⟩ : s'.len = len ∧ s'.cur = cur ∧ s'.fv = fv ∧
        s'.erracc = erracc ∧ s'.bcnt = bcnt ∧ s'.plen = plen ∧ s'.poff = poff ∧ s'.rval = rval ∧ s'.rsp = rsp ∧
        s'.inputs = inputs :=
      ⟨hk .len (by decide), hk .cur (by decide), hk .fv (by decide), hk .erracc (by decide), hk .bcnt (by decide),
        hk .plen (by decide), hk .poff (by decide), hk .rval (by decide), hk .rsp (by decide), hk .inputs (by decide)⟩
    rfl
  · have hv' : fvValid s'.fv i = true := (hk .fv (by decide) : s'.fv = s.fv) ▸ hv
    simpa [State.result, hv, hv'] using hr i

/-- A command truncates in both states when either count of bits passes LEN or the two counts are one. -/
theorem truncatedBelow_withHidden {s : State} {m : List Host.Cell} {f : Vector Word 16} {bits bits' : Nat}
    (hb : (s.validBits < s.cur.toNat + bits' ∧ s.validBits < s.cur.toNat + bits) ∨ bits' = bits) :
    truncatedBelow bits' (s.withHidden m f) = truncatedBelow bits s := by
  rcases hb with ⟨h1, h2⟩ | rfl
  · exact (if_pos h1).trans (if_pos h2).symm
  · rfl

theorem seven_le_ccsBytes (s : State) : 7 ≤ ccsBytes s := by
  unfold ccsBytes
  split <;> omega

section
variable {s : State} {m : List Host.Cell} {f : Vector Word 16} (h : s.Shows m f)
include h

/-! ### Reads inside LEN and of valid registers -/

theorem State.Shows.bit {p : Nat} (hp : p < s.validBits) : Memory.bit m p = Memory.bit s.buf p :=
  Memory.bit_congr (h.1 _ (by unfold State.validBits at hp; omega))

theorem State.Shows.readBits {q n : Nat} (hq : q + n ≤ s.validBits) :
    Memory.readBits m q n = Memory.readBits s.buf q n :=
  Memory.readBits_congr fun i hi => h.bit (by omega)

theorem State.Shows.take (p k : Nat) : take (s.withHidden m f) p k = take s p k := by
  rw [Machine.take, Machine.take]
  refine if_ctx_congr Iff.rfl (fun _ => rfl) fun hp => ?_
  rw [State.withHidden_buf, h.readBits (not_lt.mp hp)]

theorem State.Shows.takeIf (c : Bool) (p k : Nat) : takeIf c (s.withHidden m f) p k = takeIf c s p k := by
  cases c
  · rfl
  · exact h.take p k

theorem State.Shows.headerRegs (hv : ∀ i : BitVec 4, i.toNat < 7 → fvValid s.fv i = true) :
    headerOf f = headerOf s.f ∧ (headerFits f ↔ headerFits s.f) := by
  have hr (i : BitVec 4) (hi : i.toNat < 7) : regGet f i = regGet s.f i := h.2 i (hv i hi)
  simp only [headerOf, headerFits, hr 0 (by decide), hr 1 (by decide), hr 2 (by decide), hr 3 (by decide),
    hr 4 (by decide), hr 5 (by decide), hr 6 (by decide), and_self]

theorem State.Shows.takeCuc (lay : CucxLayout) : takeCuc lay (s.withHidden m f) = takeCuc lay s := by
  simp only [Machine.takeCuc, h.take, h.takeIf]
  rfl

/-- A CUC time code truncates in both states or is the same in both. -/
theorem State.Shows.cucAt (lay : CucxLayout) :
    (s.validBits < s.cur.toNat + 8 * cucBytes (cucAt lay m s.cur.toNat) ∧
      s.validBits < s.cur.toNat + 8 * cucBytes (cucAt lay s.buf s.cur.toNat)) ∨
    cucAt lay m s.cur.toNat = cucAt lay s.buf s.cur.toNat := by
  have ht := h.takeCuc lay
  simp only [takeCuc_eq, State.withHidden_buf, State.withHidden_cur, State.withHidden_validBits] at ht
  by_cases hm : s.validBits < s.cur.toNat + 8 * cucBytes (Machine.cucAt lay m s.cur.toNat) <;>
    by_cases hs : s.validBits < s.cur.toNat + 8 * cucBytes (Machine.cucAt lay s.buf s.cur.toNat)
  · exact .inl ⟨hm, hs⟩
  · cases (if_pos hm).symm.trans (ht.trans (if_neg hs))
  · cases (if_neg hm).symm.trans (ht.trans (if_pos hs))
  · exact .inr (Except.ok.inj ((if_neg hm).symm.trans (ht.trans (if_neg hs))))

/-- The fields of a p-field inside LEN are the same in both states. -/
theorem State.Shows.pField (hq : s.cur.toNat + 8 ≤ s.validBits) {k n : Nat} (hk : k + n ≤ 8) :
    Memory.readBits m (s.cur.toNat + k) n = Memory.readBits s.buf (s.cur.toNat + k) n :=
  h.readBits (by omega)

theorem State.Shows.cdsBytes (hq : s.cur.toNat + 8 ≤ s.validBits) :
    cdsBytes (s.withHidden m f) = cdsBytes s := by
  simp only [Machine.cdsBytes, State.withHidden_buf, State.withHidden_cur, h.pField hq (k := 5) (n := 1) (by decide),
    h.pField hq (k := 6) (n := 2) (by decide)]

theorem State.Shows.ccsBytes (hq : s.cur.toNat + 8 ≤ s.validBits) :
    ccsBytes (s.withHidden m f) = ccsBytes s := by
  simp only [Machine.ccsBytes, State.withHidden_buf, State.withHidden_cur, h.pField hq (k := 5) (n := 3) (by decide),
    h.bit (p := s.cur.toNat + 4) (by omega)]

/-- Both states report the same error. -/
theorem State.Shows.errorOf (i : Instr) : errorOf i (s.withHidden m f) = errorOf i s := by
  cases i
  case phenc =>
    by_cases hv : ∀ i : BitVec 4, i.toNat < 7 → fvValid s.fv i = true
    · simp only [Machine.errorOf, State.withHidden_fv, State.withHidden_cur, State.withHidden_f, (h.headerRegs hv).2]
    · exact (if_pos hv).trans (if_pos hv).symm
  case tcdecCuc =>
    exact truncatedBelow_withHidden ((h.cucAt _).imp_right fun hc => by rw [State.withHidden_buf, State.withHidden_cur, hc])
  case tcdecCds =>
    by_cases hq : s.validBits < s.cur.toNat + 8
    · exact (if_pos hq).trans (if_pos hq).symm
    · have hq := not_lt.mp hq
      simp only [Machine.errorOf, State.withHidden_buf, State.withHidden_cur, State.withHidden_validBits,
        h.pField hq (k := 6) (n := 2) (by decide), h.cdsBytes hq]
      rfl
  case tcdecCcs =>
    refine truncatedBelow_withHidden ?_
    by_cases hq : s.validBits < s.cur.toNat + 8
    · have := seven_le_ccsBytes s
      have := seven_le_ccsBytes (s.withHidden m f)
      exact .inl (by omega)
    · exact .inr (by rw [h.ccsBytes (not_lt.mp hq)])
  all_goals rfl

end

/-! ### Commits -/

/-- A register that is written, or that held the same value before, holds the same value after. -/
theorem regGet_regSetAll_congr {f f' : Vector Word 16} {rs : List (BitVec 4 × Word)} {i : BitVec 4}
    (h : i ∈ rs.map Prod.fst ∨ regGet f' i = regGet f i) : regGet (regSetAll f' rs) i = regGet (regSetAll f rs) i := by
  induction rs generalizing f f' with
  | nil => simpa [regSetAll] using h
  | cons r rs ih =>
    refine ih ?_
    rw [regGet_regSet, regGet_regSet]
    by_cases hi : i = r.1
    · exact .inr (by rw [if_pos hi, if_pos hi])
    · simpa [hi] using h

/-- The registers `rs` writes include all that `fv` makes valid (10_state R27). -/
abbrev Populates (rs : List (BitVec 4 × Word)) (fv : BitVec 16) : Prop := ∀ i, fvValid fv i = true → i ∈ rs.map Prod.fst

theorem headerFields_populates (x : BitVec 48) : Populates (headerFields x) fvHeader := by
  show ∀ i, fvValid fvHeader i = true → i ∈ ([0, 1, 2, 3, 4, 5, 6] : List (BitVec 4))
  decide

theorem cucFields_populates (c : CucCode) : Populates (cucFields c) (fvCuc c.ext) := by
  obtain ⟨ext⟩ := c
  cases ext
  · show ∀ i, fvValid 0x030F#16 i = true → i ∈ ([0, 1, 2, 3, 8, 9] : List (BitVec 4))
    decide
  · show ∀ i, fvValid 0x03FF#16 i = true → i ∈ ([0, 1, 2, 3, 4, 5, 6, 7, 8, 9] : List (BitVec 4))
    decide

theorem cdsFields_populates (m : List Host.Cell) (q dsl ssl : Nat) :
    Populates (cdsFields m q dsl ssl) (fvCds (decide (0 < 2 * ssl))) := by
  cases ssl
  · show ∀ i, fvValid 0x031F#16 i = true → i ∈ ([0, 1, 2, 3, 4, 8, 9] : List (BitVec 4))
    decide
  · show ∀ i, fvValid 0x071F#16 i = true → i ∈ ([0, 1, 2, 3, 4, 8, 9, 10] : List (BitVec 4))
    decide

theorem ccsFields_populates (m : List Host.Cell) (q res : Nat) (cv : Bool) :
    Populates (ccsFields m q res cv) (fvCcs cv (decide (0 < res))) := by
  cases cv <;> cases res
  · show ∀ i, fvValid 0x770F#16 i = true → i ∈ ([0, 1, 2, 3, 8, 9, 10, 12, 13, 14] : List (BitVec 4))
    decide
  · rw [decide_eq_true (Nat.succ_pos _)]
    show ∀ i, fvValid 0xF70F#16 i = true → i ∈ ([0, 1, 2, 3, 8, 9, 10, 12, 13, 14, 15] : List (BitVec 4))
    decide
  · show ∀ i, fvValid 0x790F#16 i = true → i ∈ ([0, 1, 2, 3, 8, 11, 12, 13, 14] : List (BitVec 4))
    decide
  · rw [decide_eq_true (Nat.succ_pos _)]
    show ∀ i, fvValid 0xF90F#16 i = true → i ∈ ([0, 1, 2, 3, 8, 11, 12, 13, 14, 15] : List (BitVec 4))
    decide

theorem asciiFields_populates (s : State) (fixed : Nat) (dec : BitVec 16) (term : Bool) :
    Populates (asciiFields s fixed dec term) (fvAscii term) := by
  cases term
  · show ∀ i, fvValid 0x0F00#16 i = true → i ∈ ([8, 9, 10, 11] : List (BitVec 4))
    decide
  · show ∀ i, fvValid 0x1F00#16 i = true → i ∈ ([8, 9, 10, 11, 12] : List (BitVec 4))
    decide

/-- Two commits that the host cannot tell apart and that answer the same value. -/
def Alike (p p' : State × Word) : Prop := SameVisible p.1 p'.1 ∧ p'.2 = p.2

section
variable {s : State} {m : List Host.Cell} {f : Vector Word 16} (h : s.Shows m f)
include h

/-- A commit that leaves BUF, LEN, F and FV alone. -/
theorem State.Shows.frame {t : State} (hb : t.buf = s.buf) (hl : t.len = s.len) (hf : t.f = s.f) (hv : t.fv = s.fv) :
    SameVisible t (t.withHidden m f) :=
  sameVisible_withHidden (by rw [State.Shows, hb, hl, hf, hv]; exact h)

/-- A commit that populates registers and leaves BUF and LEN alone. -/
theorem State.Shows.populate {t : State} {rs : List (BitVec 4 × Word)} {fv : BitVec 16} (hp : Populates rs fv)
    (hb : t.buf = s.buf) (hl : t.len = s.len) (hf : t.f = regSetAll s.f rs) (hv : t.fv = fv) :
    SameVisible t (t.withHidden m (regSetAll f rs)) :=
  sameVisible_withHidden ⟨by rw [hb, hl]; exact h.1, fun i hi => by
    rw [hf]
    exact regGet_regSetAll_congr (.inl (hp i (hv ▸ hi)))⟩

theorem State.Shows.timeCodeCommit {rs : List (BitVec 4 × Word)} {fv : BitVec 16} (hp : Populates rs fv) (bytes : Nat) :
    Alike (timeCodeCommit s rs fv bytes) (timeCodeCommit (s.withHidden m f) rs fv bytes) :=
  ⟨h.populate hp rfl rfl rfl rfl, rfl⟩

theorem State.Shows.cdsFields {dsl ssl : Nat} (hq : s.cur.toNat + 8 * (1 + (2 + dsl) + 4 + 2 * ssl) ≤ s.validBits) :
    cdsFields m s.cur.toNat dsl ssl = cdsFields s.buf s.cur.toNat dsl ssl := by
  simp (disch := omega) only [Machine.cdsFields, h.readBits]

theorem State.Shows.ccsFields {res : Nat} {cv : Bool}
    (hq : s.cur.toNat + 8 * (6 + res + (if cv then 1 else 2)) ≤ s.validBits) :
    ccsFields m s.cur.toNat res cv = ccsFields s.buf s.cur.toNat res cv := by
  cases cv
  all_goals
    simp only [Bool.false_eq_true, if_true, if_false] at hq
    simp (disch := omega) only [Machine.ccsFields, Bool.false_eq_true, if_true, if_false, h.readBits]

theorem State.Shows.asciiFields {fixed : Nat} {dec : BitVec 16} {term : Bool}
    (hq : s.cur.toNat + 8 * (fixed + dec.toNat + term.toNat) ≤ s.validBits) :
    asciiFields (s.withHidden m f) fixed dec term = asciiFields s fixed dec term := by
  cases term
  · rfl
  · rw [Bool.toNat_true] at hq
    rw [Machine.asciiFields, State.withHidden_buf, State.withHidden_cur, h.readBits (by omega)]
    rfl

theorem State.Shows.readCommit {n : Nat} (hn : s.cur.toNat + n ≤ s.validBits) :
    Alike (readCommit n s) (readCommit n (s.withHidden m f)) := by
  simp only [Machine.readCommit, State.withHidden_buf, State.withHidden_cur, h.readBits hn]
  exact ⟨h.frame rfl rfl rfl rfl, rfl⟩

/-- SETF makes one register the same in both states and keeps the others (44_host_access R177). -/
theorem State.Shows.setReg (k : BitVec 4) (v : Word) :
    ((s.setF (regSet s.f k v)).setFv (fvSet s.fv k)).Shows m (regSet f k v) := by
  refine ⟨h.1, fun i hi => ?_⟩
  rw [State.setFv_f, State.setF_f, regGet_regSet, regGet_regSet]
  by_cases hk : i = k
  · rw [if_pos hk, if_pos hk]
  · rw [if_neg hk, if_neg hk]
    rw [State.setFv_fv, fvValid_fvSet, decide_eq_false hk, Bool.false_or] at hi
    exact h.2 i hi

/-- Growth clears what it brings inside LEN, so the bytes inside the new LEN agree (20_memory R54). -/
theorem State.Shows.grow {n : Nat} (hn : n < 2 ^ 21) :
    ∃ m', (s.withHidden m f).grow n = (s.grow n).withHidden m' f ∧ (s.grow n).Shows m' f := by
  refine ⟨((s.withHidden m f).grow n).buf, ?_, fun a ha => ?_, by simpa using h.2⟩
  · unfold State.grow
    rw [State.withHidden_len]
    split <;> rfl
  · rw [State.grow_len n s hn] at ha
    rw [State.read_grow, State.read_grow, State.withHidden_len, State.withHidden_buf]
    by_cases hc : s.len.toNat ≤ a ∧ a < n
    · rw [if_pos hc, if_pos hc]
    · rw [if_neg hc, if_neg hc, h.1 a (by omega)]

/-- Storing the same byte keeps the bytes inside LEN alike. -/
theorem State.Shows.write (idx : Nat) (b : Byte) : (s.setBuf (Memory.write s.buf idx b)).Shows (Memory.write m idx b) f := by
  refine ⟨fun a ha => ?_, h.2⟩
  rw [State.setBuf_buf, Memory.read_write, Memory.read_write, h.1 a ha]

/-- Inserting the same field keeps the bytes inside LEN alike. -/
theorem State.Shows.writeBits (q n v : Nat) :
    (s.setBuf (Memory.writeBits s.buf q n v)).Shows (Memory.writeBits m q n v) f := by
  refine ⟨fun a ha => Memory.read_ext fun p hp => ?_, h.2⟩
  have hb : Memory.bit m p = Memory.bit s.buf p := Memory.bit_congr (h.1 (p / 8) (hp ▸ ha))
  rw [State.setBuf_buf, Memory.bit_writeBits, Memory.bit_writeBits, hb]

theorem State.Shows.memWrite {q n v : Nat} (hq : q + n ≤ capacityBits) :
    ∃ m', (s.withHidden m f).memWrite q n v = (s.memWrite q n v).withHidden m' f ∧ (s.memWrite q n v).Shows m' f := by
  obtain ⟨m', he, hs⟩ := h.grow (n := (q + n + 7) / 8) (by unfold capacityBits Config.bufBytes at hq; omega)
  refine ⟨Memory.writeBits m' q n v, ?_, hs.writeBits q n v⟩
  rw [State.memWrite, he]
  rfl

theorem State.Shows.storeByte {idx : Nat} {b : Byte} (hi : idx < Config.bufBytes) :
    ∃ m', (s.withHidden m f).storeByte idx b = (s.storeByte idx b).withHidden m' f ∧ (s.storeByte idx b).Shows m' f := by
  obtain ⟨m', he, hs⟩ := h.grow (n := idx + 1) (by unfold Config.bufBytes at hi; omega)
  refine ⟨Memory.write m' idx b, ?_, hs.write idx b⟩
  rw [State.storeByte, he]
  rfl

theorem State.Shows.resize {n : Nat} (hn : n ≤ Config.bufBytes) :
    ∃ m', (s.withHidden m f).resize n = (s.resize n).withHidden m' f ∧ (s.resize n).Shows m' f := by
  have hn : n < 2 ^ 21 := lt_of_le_of_lt hn (by decide)
  obtain ⟨m', he, hm, hf⟩ := h.grow hn
  refine ⟨m', by rw [State.resize, he]; rfl, fun a ha => hm a ?_, hf⟩
  rw [State.resize_len n s hn] at ha
  rw [State.grow_len n s hn]
  omega

theorem State.Shows.writeCommit {n v : Nat} (hn : s.cur.toNat + n ≤ capacityBits) :
    Alike (writeCommit n v s) (writeCommit n v (s.withHidden m f)) := by
  obtain ⟨m', he, hs⟩ := h.memWrite (v := v) hn
  rw [Machine.writeCommit, Machine.writeCommit, State.withHidden_cur, he]
  exact ⟨hs.frame rfl rfl rfl rfl, rfl⟩

/-- A command that reports no error commits states the host cannot tell apart, and the same value. -/
theorem State.Shows.commitOf {i : Instr} (he : Machine.errorOf i s = none) :
    Alike (commitOf i s) (commitOf i (s.withHidden m f)) := by
  cases i <;> simp only [Machine.errorOf, test_eq_none, truncatedBelow_eq_none, readError_eq_none, writeError_eq_none,
    not_lt, not_not] at he
  case nop | ovhd | gets | seek | clre | paylen | payext => exact ⟨h.frame rfl rfl rfl rfl, rfl⟩
  case rdbits | rdbytes => exact h.readCommit he.2.2
  case wrbits | wrbytes => exact h.writeCommit he.2.1
  case phenc =>
    obtain ⟨hv, hq, -⟩ := he
    simp only [Machine.commitOf, State.withHidden_f, (h.headerRegs hv).1]
    exact h.writeCommit hq
  case phdec =>
    simp only [Machine.commitOf, State.withHidden_buf, State.withHidden_cur, h.readBits he]
    exact ⟨h.populate (headerFields_populates _) rfl rfl rfl rfl, rfl⟩
  case tcdecNone => exact ⟨h.populate (rs := []) (fv := 0) (by decide) rfl rfl rfl rfl, rfl⟩
  case tcdecCuc =>
    rcases h.cucAt Config.cucxLayout with ⟨-, ht⟩ | hc
    · omega
    · have hx : Memory.bit m s.cur.toNat = Memory.bit s.buf s.cur.toNat := congrArg CucCode.ext hc
      simp only [Machine.commitOf, State.withHidden_buf, State.withHidden_cur, hc, hx]
      exact h.timeCodeCommit (cucFields_populates _) _
  case tcdecCds =>
    obtain ⟨hp, -, hq⟩ := he
    simp only [Machine.commitOf, State.withHidden_buf, State.withHidden_cur, h.cdsBytes hp,
      h.pField hp (k := 5) (n := 1) (by decide), h.pField hp (k := 6) (n := 2) (by decide), h.cdsFields hq]
    exact h.timeCodeCommit (cdsFields_populates _ _ _ _) _
  case tcdecCcs =>
    have hlow := seven_le_ccsBytes s
    have hp : s.cur.toNat + 8 ≤ s.validBits := by omega
    simp only [Machine.commitOf, State.withHidden_buf, State.withHidden_cur, h.ccsBytes hp,
      h.pField hp (k := 5) (n := 3) (by decide), h.bit (p := s.cur.toNat + 4) (by omega), h.ccsFields he]
    exact h.timeCodeCommit (ccsFields_populates _ _ _ _) _
  case tcdecAsca | tcdecAscb =>
    simp only [Machine.commitOf, h.asciiFields he]
    exact h.timeCodeCommit (asciiFields_populates _ _ _ _) _
  case bufwr idx v =>
    obtain ⟨m', hm, hs⟩ := h.storeByte (idx := idx.toNat) (b := v.extractLsb' 0 8) (by omega)
    simp only [Machine.commitOf, hm]
    exact ⟨sameVisible_withHidden hs, rfl⟩
  case setlen n =>
    obtain ⟨m', hm, hs⟩ := h.resize he.1
    simp only [Machine.commitOf, hm]
    exact ⟨sameVisible_withHidden hs, rfl⟩
  case bufrd idx => exact ⟨h.frame rfl rfl rfl rfl, congrArg zext (h.1 _ (by omega))⟩
  case getf k => exact ⟨h.frame rfl rfl rfl rfl, h.2 k (by simpa using he)⟩
  case setf k v => exact ⟨sameVisible_withHidden (h.setReg k v), rfl⟩

end

/-! ### Steps -/

theorem SameVisible.refl (s : State) : SameVisible s s :=
  sameVisible_withHidden (m := s.buf) (f := s.f) ⟨fun _ _ => rfl, fun _ _ => rfl⟩

/-- An update of neither BUF, LEN, F nor FV that does not read BUF and F keeps two states alike. -/
theorem SameVisible.map {s s' : State} (h : SameVisible s s') (g : State → State)
    (hg : ∀ s m f, g (State.withHidden s m f) = (g s).withHidden m f)
    (hk : ∀ s : State, (g s).buf = s.buf ∧ (g s).len = s.len ∧ (g s).f = s.f ∧ (g s).fv = s.fv) :
    SameVisible (g s) (g s') := by
  obtain ⟨m, f, rfl, hs⟩ := h.exists_withHidden
  obtain ⟨hb, hl, hf, hv⟩ := hk s
  exact hg s m f ▸ hs.frame hb hl hf hv

theorem SameVisible.raise {s s' : State} (h : SameVisible s s') (e : ErrorKind) : SameVisible (raise e s) (raise e s') :=
  h.map (Machine.raise e) (fun _ _ _ => rfl) fun _ => ⟨rfl, rfl, rfl, rfl⟩

theorem SameVisible.respond {s s' : State} (h : SameVisible s s') (v : Word) : SameVisible (respond v s) (respond v s') :=
  h.map (Machine.respond v) (fun _ _ _ => rfl) fun _ => ⟨rfl, rfl, rfl, rfl⟩

theorem SameVisible.idle {s s' : State} (h : SameVisible s s') : SameVisible (idle s) (idle s') :=
  h.map Machine.idle (fun _ _ _ => rfl) fun _ => ⟨rfl, rfl, rfl, rfl⟩

theorem SameVisible.setInputs {s s' : State} (h : SameVisible s s') (later : List HostInput) :
    SameVisible (s.setInputs later) (s'.setInputs later) :=
  h.map (State.setInputs · later) (fun _ _ _ => rfl) fun _ => ⟨rfl, rfl, rfl, rfl⟩

/-- Every command answers states that the host cannot tell apart alike. -/
theorem SameVisible.exec {s s' t : State} (h : SameVisible s s') {i : Instr} (hx : exec i s = .next t) :
    ∃ t', exec i s' = .next t' ∧ SameVisible t t' := by
  obtain ⟨m, f, rfl, hs⟩ := h.exists_withHidden
  rw [exec_eq_settle, hs.errorOf]
  rcases exec_cases hx with ⟨e, he, rfl⟩ | ⟨he, rfl⟩
  · exact ⟨_, by rw [he]; rfl, h.raise e⟩
  · obtain ⟨hc, hv⟩ := hs.commitOf he
    exact ⟨Machine.respond (commitOf i s).2 _, by rw [he, ← hv]; rfl, hc.respond _⟩

/-- Settles O19: both states take the same input, and idling, a reset, an abort and a command each keep them alike. -/
theorem unspecifiedStateIsUnobservable : Obligations.UnspecifiedStateIsUnobservable := by
  intro s s' t h hstep
  have hin : s'.inputs = s.inputs := h.1 .inputs (by decide)
  unfold step
  rw [hin]
  rcases step_cases hstep with ⟨hi, rfl⟩ | ⟨later, hi, rfl⟩ | ⟨c, v, later, hi, ⟨i, hd, hx⟩ | ⟨⟨e, hd⟩, rfl⟩⟩ <;> rw [hi]
  · exact ⟨_, rfl, h.idle⟩
  · exact ⟨_, rfl, SameVisible.refl _⟩
  · dsimp only
    rw [hd]
    exact (h.setInputs later).exec hx
  · dsimp only
    rw [hd]
    exact ⟨_, rfl, (h.setInputs later).raise .operand⟩

end Sys2Proof.Machine
end

section
/-! Storing again what is already stored (20_memory R54, R57). -/

namespace Sys2Proof.Machine

/-! ### MemWrite of the field that is already there -/

/-- The stream holds `v` as the `n` bits at `q`, and LEN covers them: what MemWrite(q, n, v) establishes (20_memory R54). -/
def State.HoldsField (s : State) (q n v : Nat) : Prop :=
  (q + n + 7) / 8 ≤ s.len.toNat ∧ ∀ i < n, Memory.bit s.buf (q + i) = v.testBit (n - 1 - i)

theorem State.holdsField_memWrite (q n v : Nat) (s : State) (h : q + n ≤ capacityBits) :
    (s.memWrite q n v).HoldsField q n v := by
  refine ⟨?_, fun i hi => ?_⟩
  · rw [State.memWrite_len q n v s h]
    exact le_max_right _ _
  · rw [State.bit_memWrite, if_pos (by omega), Nat.add_sub_cancel_left]

/-- A field is held in BUF inside LEN, whatever the other parts of the state. -/
theorem State.HoldsField.congr {s t : State} {q n v : Nat} (h : s.HoldsField q n v) (hl : t.len = s.len)
    (hb : t.buf = s.buf) : t.HoldsField q n v := by
  unfold State.HoldsField
  rw [hl, hb]
  exact h

/-- LEN is never lowered by growth, and nothing is cleared below it. -/
theorem State.grow_of_le {s : State} {n : Nat} (h : n ≤ s.len.toNat) : s.grow n = s := if_neg (Nat.not_lt.mpr h)

theorem State.HoldsField.memWrite_len {s : State} {q n v : Nat} (h : s.HoldsField q n v) :
    (s.memWrite q n v).len = s.len := by
  change (s.grow _).len = s.len
  rw [State.grow_of_le h.1]

/-- A bit of the field is written with the value it has; no byte is grown over; every other bit is kept. -/
theorem State.HoldsField.read_memWrite {s : State} {q n v : Nat} (h : s.HoldsField q n v) (a : Nat) :
    Memory.read (s.memWrite q n v).buf a = Memory.read s.buf a := by
  obtain ⟨hlen, hbits⟩ := h
  refine Memory.read_ext fun p _ => ?_
  rw [State.bit_memWrite]
  by_cases hp : q ≤ p ∧ p < q + n
  · rw [if_pos hp, ← hbits (p - q) (by omega), Nat.add_sub_cancel' hp.1]
  · rw [if_neg hp, if_neg (by omega)]

/-! ### The second WRBITS -/

/-- The tests of WRBITS look at the cursor alone. -/
theorem errorOf_wrbits_congr {s t : State} (h : t.cur = s.cur) (n : BitVec 24) (v : Word) :
    errorOf (.wrbits n v) t = errorOf (.wrbits n v) s := by
  simp only [errorOf, writeError, h]

/-- A write of the field that is there already answers what moving the cursor over it would. -/
theorem State.HoldsField.keeps_writeCommit {s : State} {n v : Nat} (h : s.HoldsField s.cur.toNat n v) :
    KeepsAllBut [] (respond 0 (s.moveTo (s.cur.toNat + n))) (respond 0 (writeCommit n v s).1) := by
  rintro p -
  cases p
  case buf => exact h.read_memWrite
  case len => exact h.memWrite_len
  all_goals simp [Part.same, Machine.writeCommit]

/-- Settles O28: the first write leaves its field in the stream and inside LEN, SEEK puts the cursor back on it, so the second
write passes the same tests and stores what is there. -/
theorem secondWriteOfSameFieldChangesNothing : Obligations.SecondWriteOfSameFieldChangesNothing := by
  intro n v s t h
  obtain ⟨he, ht⟩ := succeeds_iff.mp h
  have hq : s.cur.toNat + n.toNat ≤ capacityBits := by
    simp only [errorOf, test_eq_none, writeError_eq_none] at he
    exact he.2.1
  have hseek : errorOf (.seek s.cur) t = none := if_neg (by omega)
  obtain ⟨u, hu⟩ : ∃ u, u = respond 0 (t.moveTo s.cur.toNat) := ⟨_, rfl⟩
  have hcur : u.cur = s.cur := by simp [hu]
  have hfield : u.HoldsField u.cur.toNat n.toNat v.toNat :=
    hcur ▸ (s.holdsField_memWrite _ _ _ hq).congr (by rw [hu, ht]; rfl) (by rw [hu, ht]; rfl)
  have hend : t = respond 0 (u.moveTo (u.cur.toNat + n.toNat)) := by
    rw [hcur, hu, ht]
    rfl
  refine ⟨u, _, succeeds_iff.mpr ⟨hseek, hu⟩, succeeds_iff.mpr ⟨(errorOf_wrbits_congr hcur n v).trans he, rfl⟩, ?_⟩
  rw [hend]
  exact hfield.keeps_writeCommit

end Sys2Proof.Machine
end

section
/-! The decoder read off its formats (30_encoding R71, R72): the operands that each format accepts, with the instruction it reads
from them, and the operands that it rejects. -/

namespace Sys2Proof

open Sys2Proof.Machine

/-! ### A test in front of a format's operands -/

theorem ite_error_eq_ok {p : Prop} [Decidable p] {x : Except DecodeError Instr} {r : DecodeError} {i : Instr} :
    (if p then x else .error r) = .ok i ↔ p ∧ x = .ok i := by
  split
  next hp => simp [hp]
  next hp => simp [hp]

theorem ite_error_rejects {p : Prop} [Decidable p] {x : Except DecodeError Instr} {r : DecodeError} :
    (∃ e, (if p then x else .error r) = .error e) ↔ (p → ∃ e, x = .error e) := by
  split
  next hp => simp [hp]
  next hp => simp [hp]

theorem not_ok_rejects {i : Instr} : ¬ ∃ e : DecodeError, Except.ok i = .error e := nofun

/-! ### What each format accepts -/

theorem formatZ_eq_ok {a : BitVec 24} {i j : Instr} : formatZ a i = .ok j ↔ a = 0 ∧ i = j := by
  rw [formatZ, ite_error_eq_ok, Except.ok.injEq]

/-- An operand whose high field must be 0 is that field above its low field. -/
theorem zero_append_iff {m n : Nat} {a : BitVec (m + n)} {P : BitVec n → Prop} :
    a.extractLsb' n m = 0#m ∧ P (a.extractLsb' 0 n) ↔ ∃ k, 0#m ++ k = a ∧ P k := by
  constructor
  · rintro ⟨h, hp⟩
    exact ⟨_, h ▸ BitVec.extractLsb'_append_extractLsb', hp⟩
  · rintro ⟨k, rfl, hp⟩
    rw [BitVec.extractLsb'_append_eq_left, BitVec.extractLsb'_append_eq_right]
    exact ⟨rfl, hp⟩

theorem formatS_eq_ok {a : BitVec 24} {f : BitVec 4 → Instr} {j : Instr} :
    formatS a f = .ok j ↔ ∃ k : BitVec 4, 0#20 ++ k = a ∧ f k = j := by
  rw [formatS, ite_error_eq_ok, Except.ok.injEq]
  exact zero_append_iff (m := 20) (P := fun k => f k = j)

theorem formatGets_eq_ok {a : BitVec 24} {j : Instr} :
    formatGets a = .ok j ↔ ∃ k : BitVec 4, 0#20 ++ k = a ∧ k.toNat < 9 ∧ .gets k = j := by
  rw [formatGets, ite_error_eq_ok, ite_error_eq_ok, Except.ok.injEq]
  exact zero_append_iff (m := 20) (P := fun k => k.toNat < 9 ∧ .gets k = j)

theorem formatOvhd_eq_ok {a : BitVec 24} {j : Instr} :
    formatOvhd a = .ok j ↔ ∃ k : BitVec 3, 0#21 ++ k = a ∧ k.toNat < 6 ∧ .ovhd k = j := by
  rw [formatOvhd, ite_error_eq_ok, ite_error_eq_ok, Except.ok.injEq]
  exact zero_append_iff (m := 21) (P := fun k => k.toNat < 6 ∧ .ovhd k = j)

/-- A data operand whose upper half is 0 is its three fields of format P. -/
theorem encodeP_fields {v : Word} (h : v.extractLsb' 64 64 = 0#64) :
    encodeP (v.extractLsb' 0 16) (v.extractLsb' 16 16) (v.extractLsb' 32 32) = v := by
  rw [encodeP, ← h, BitVec.extractLsb'_append_extractLsb'_eq_extractLsb' (by rfl),
    BitVec.extractLsb'_append_extractLsb'_eq_extractLsb' (by rfl)]
  exact BitVec.extractLsb'_append_extractLsb' (w := 112) (len := 16)

theorem formatP_eq_ok {a : BitVec 24} {v : Word} {f : BitVec 16 → BitVec 16 → BitVec 32 → Instr} {j : Instr} :
    formatP a v f = .ok j ↔ a = 0 ∧ ∃ dl ovh cons, encodeP dl ovh cons = v ∧ f dl ovh cons = j := by
  rw [formatP, ite_error_eq_ok, ite_error_eq_ok, Except.ok.injEq]
  refine and_congr_right fun _ => ⟨fun ⟨hz, hj⟩ => ⟨_, _, _, encodeP_fields hz, hj⟩, ?_⟩
  rintro ⟨dl, ovh, cons, rfl, rfl⟩
  obtain ⟨hz, hdl, hovh, hcons⟩ := fields_encodeP dl ovh cons
  rw [hdl, hovh, hcons]
  exact ⟨hz, rfl⟩

/-- A short operand whose bits 7 to 4 are 0 is its three fields of format T. -/
theorem encodeT_fields {a : BitVec 24} (h : a.extractLsb' 4 4 = 0#4) :
    encodeT (a.extractLsb' 0 3) (a.extractLsb' 8 16) (a.getLsbD 3) = a := by
  have hterm : BitVec.ofBool (a.getLsbD 3) = a.extractLsb' 3 1 := by
    rw [BitVec.getLsbD_eq_extractLsb']
    generalize a.extractLsb' 3 1 = x
    decide +revert
  rw [encodeT, hterm, ← h, BitVec.extractLsb'_append_extractLsb'_eq_extractLsb' (by rfl),
    BitVec.extractLsb'_append_extractLsb'_eq_extractLsb' (by rfl)]
  exact BitVec.extractLsb'_append_extractLsb' (w := 21) (len := 3)

theorem formatTPlain_eq_ok {a : BitVec 24} {i j : Instr} :
    formatTPlain a i = .ok j ↔ (a.getLsbD 3 = false ∧ a.extractLsb' 8 16 = 0) ∧ i = j := by
  rw [formatTPlain, ite_error_eq_ok, Except.ok.injEq]

/-- Format T reads the time-code command that has `a` as its short operand. -/
theorem formatT_eq_ok {a : BitVec 24} {j : Instr} :
    formatT a = .ok j ↔ isTimeCode j = true ∧ j.shortOperand = a := by
  constructor
  · intro h
    obtain ⟨hz, h⟩ := ite_error_eq_ok.mp h
    have ha := encodeT_fields hz
    split at h
    case' h_1 hv | h_2 hv | h_3 hv | h_4 hv =>
      obtain ⟨⟨hterm, hdec⟩, rfl⟩ := formatTPlain_eq_ok.mp h
      rw [hv, hterm, hdec] at ha
    case' h_5 hv | h_6 hv =>
      obtain rfl := Except.ok.inj h
      rw [hv] at ha
    case h_7 => cases h
    all_goals exact ⟨rfl, ha⟩
  · rintro ⟨ht, rfl⟩
    cases j
    case tcdecNone | tcdecCuc | tcdecCds | tcdecCcs => rfl
    case tcdecAsca dec term | tcdecAscb dec term =>
      simp only [Instr.shortOperand, formatT, fields_encodeT]
      rfl
    all_goals cases ht

/-- What the six time-code commands share (30_encoding R76). -/
theorem fields_of_isTimeCode {i : Instr} (h : isTimeCode i = true) :
    i.wellFormed = true ∧ i.opcode = 0x20#8 ∧ usesData i = false := by
  cases i
  case tcdecNone | tcdecCuc | tcdecCds | tcdecCcs | tcdecAsca | tcdecAscb => exact ⟨rfl, rfl, rfl⟩
  all_goals cases h

/-- The decoder reads the one instruction that has these fields (30_encoding R70 to R73). -/
theorem decodeFields_eq_ok {op : BitVec 8} {a : BitVec 24} {v : Word} {i : Instr} :
    decodeFields op a v = .ok i ↔
      i.wellFormed = true ∧ i.opcode = op ∧ i.shortOperand = a ∧ (usesData i = true → i.dataOperand = v) := by
  constructor
  · intro h
    unfold decodeFields at h
    split at h
    case h_1 | h_6 | h_7 | h_19 => -- format Z
      obtain ⟨rfl, rfl⟩ := formatZ_eq_ok.mp h
      exact ⟨rfl, rfl, rfl, nofun⟩
    case h_2 | h_4 | h_13 | h_14 | h_15 => -- format N
      obtain rfl := Except.ok.inj h
      exact ⟨rfl, rfl, rfl, nofun⟩
    case h_3 | h_5 | h_12 => -- format NV
      obtain rfl := Except.ok.inj h
      exact ⟨rfl, rfl, rfl, fun _ => rfl⟩
    case h_8 => -- format T
      obtain ⟨ht, ha⟩ := formatT_eq_ok.mp h
      obtain ⟨hw, hop, hd⟩ := fields_of_isTimeCode ht
      exact ⟨hw, hop, ha, by simp [hd]⟩
    case h_9 => -- OVHD
      obtain ⟨k, rfl, hk, rfl⟩ := formatOvhd_eq_ok.mp h
      exact ⟨decide_eq_true hk, rfl, rfl, nofun⟩
    case h_10 | h_11 => -- format P
      obtain ⟨rfl, dl, ovh, cons, rfl, rfl⟩ := formatP_eq_ok.mp h
      exact ⟨rfl, rfl, rfl, fun _ => rfl⟩
    case h_16 => -- GETF
      obtain ⟨k, rfl, rfl⟩ := formatS_eq_ok.mp h
      exact ⟨rfl, rfl, rfl, nofun⟩
    case h_17 => -- SETF
      obtain ⟨k, rfl, rfl⟩ := formatS_eq_ok.mp h
      exact ⟨rfl, rfl, rfl, fun _ => rfl⟩
    case h_18 => -- GETS
      obtain ⟨k, rfl, hk, rfl⟩ := formatGets_eq_ok.mp h
      exact ⟨decide_eq_true hk, rfl, rfl, nofun⟩
    case h_20 => cases h -- unassigned
  · rintro ⟨hw, rfl, rfl, hv⟩
    cases i
    case nop | phdec | phenc | clre | rdbits | rdbytes | bufrd | setlen | seek => rfl
    case wrbits | wrbytes | bufwr =>
      obtain rfl := hv rfl
      rfl
    case tcdecNone | tcdecCuc | tcdecCds | tcdecCcs | tcdecAsca | tcdecAscb => exact formatT_eq_ok.mpr ⟨rfl, rfl⟩
    case ovhd k => exact formatOvhd_eq_ok.mpr ⟨k, rfl, of_decide_eq_true hw, rfl⟩
    case paylen dl ovh cons | payext dl ovh cons => exact formatP_eq_ok.mpr ⟨rfl, dl, ovh, cons, hv rfl, rfl⟩
    case getf k => exact formatS_eq_ok.mpr ⟨k, rfl, rfl⟩
    case setf k w =>
      obtain rfl := hv rfl
      exact (formatS_eq_ok (f := fun k => .setf k w)).mpr ⟨k, rfl, rfl⟩
    case gets k => exact formatGets_eq_ok.mpr ⟨k, rfl, of_decide_eq_true hw, rfl⟩

/-- A control word is known by its opcode and its short operand. -/
theorem encodeControl_eq_iff {i : Instr} {c : ControlWord} :
    encodeControl i = c ↔ i.opcode = opField c ∧ i.shortOperand = aField c := by
  constructor
  · rintro rfl
    exact ⟨(opField_append _ _).symm, (aField_append _ _).symm⟩
  · rintro ⟨hop, ha⟩
    rw [encodeControl, hop, ha, fields_append]

/-- Decoding is the inverse of encoding: the pairs that decode to `i` are its control word with its data operand, or with any
data operand when its format uses none. -/
theorem decode_eq_ok_iff {c : ControlWord} {v : Word} {i : Instr} :
    decode c v = .ok i ↔
      i.wellFormed = true ∧ encodeControl i = c ∧ (usesData i = true → i.dataOperand = v) := by
  rw [decode, decodeFields_eq_ok, encodeControl_eq_iff, and_assoc]

/-! ### What each format rejects, on the numbers of 30_encoding R77 -/

theorem extractLsb'_eq_zero_iff {w : Nat} (x : BitVec w) (k n : Nat) :
    x.extractLsb' k n = 0 ↔ x.toNat / 2 ^ k % 2 ^ n = 0 := by
  change _ = 0#n ↔ _
  rw [← BitVec.toNat_inj, BitVec.extractLsb'_toNat, Nat.shiftRight_eq_div_pow, BitVec.toNat_ofNat, Nat.zero_mod]

/-- A field that reaches up to the top bit is 0 when the number below it is all there is. -/
theorem extractLsb'_top_eq_zero_iff {w : Nat} (x : BitVec w) (k n : Nat) (h : k + n = w) :
    x.extractLsb' k n = 0 ↔ x.toNat / 2 ^ k = 0 := by
  have hlt : x.toNat / 2 ^ k < 2 ^ n := Nat.div_lt_of_lt_mul (by rw [← pow_add, h]; exact x.isLt)
  rw [extractLsb'_eq_zero_iff, Nat.mod_eq_of_lt hlt]

theorem formatZ_rejects {a : BitVec 24} {i : Instr} : (∃ e, formatZ a i = .error e) ↔ a.toNat ≠ 0 := by
  simp only [formatZ, ite_error_rejects, not_ok_rejects, imp_false, ← BitVec.toNat_inj]
  rfl

theorem formatS_rejects {a : BitVec 24} {f : BitVec 4 → Instr} :
    (∃ e, formatS a f = .error e) ↔ a.toNat / 2 ^ 4 ≠ 0 := by
  simp only [formatS, ite_error_rejects, not_ok_rejects, imp_false, extractLsb'_top_eq_zero_iff a 4 20 rfl, ne_eq]

theorem formatGets_rejects {a : BitVec 24} :
    (∃ e, formatGets a = .error e) ↔ a.toNat / 2 ^ 4 ≠ 0 ∨ 9 ≤ a.toNat % 16 := by
  simp only [formatGets, ite_error_rejects, not_ok_rejects, imp_false, extractLsb'_top_eq_zero_iff a 4 20 rfl,
    BitVec.extractLsb'_toNat, Nat.shiftRight_zero]
  omega

theorem formatOvhd_rejects {a : BitVec 24} :
    (∃ e, formatOvhd a = .error e) ↔ a.toNat / 2 ^ 3 ≠ 0 ∨ 6 ≤ a.toNat % 8 := by
  simp only [formatOvhd, ite_error_rejects, not_ok_rejects, imp_false, extractLsb'_top_eq_zero_iff a 3 21 rfl,
    BitVec.extractLsb'_toNat, Nat.shiftRight_zero]
  omega

theorem formatP_rejects {a : BitVec 24} {v : Word} {f : BitVec 16 → BitVec 16 → BitVec 32 → Instr} :
    (∃ e, formatP a v f = .error e) ↔ a.toNat ≠ 0 ∨ v.toNat / 2 ^ 64 ≠ 0 := by
  simp only [formatP, ite_error_rejects, not_ok_rejects, imp_false, extractLsb'_top_eq_zero_iff v 64 64 rfl,
    ← BitVec.toNat_inj]
  exact imp_iff_not_or

theorem formatTPlain_rejects {a : BitVec 24} {i : Instr} :
    (∃ e, formatTPlain a i = .error e) ↔ a.toNat / 2 ^ 3 % 2 ≠ 0 ∨ a.toNat / 2 ^ 8 ≠ 0 := by
  have hterm : a.getLsbD 3 = false ↔ a.toNat / 2 ^ 3 % 2 = 0 := by
    rw [← BitVec.testBit_toNat, Nat.testBit_eq_decide_div_mod_eq, decide_eq_false_iff_not]
    omega
  simp only [formatTPlain, ite_error_rejects, not_ok_rejects, imp_false, extractLsb'_top_eq_zero_iff a 8 16 rfl, hterm]
  omega

theorem formatT_rejects {a : BitVec 24} :
    (∃ e, formatT a = .error e) ↔ a.toNat / 2 ^ 4 % 2 ^ 4 ≠ 0 ∨ 6 ≤ a.toNat % 8 ∨
      (a.toNat % 8 < 4 ∧ (a.toNat / 2 ^ 3 % 2 ≠ 0 ∨ a.toNat / 2 ^ 8 ≠ 0)) := by
  have hvar : (a.extractLsb' 0 3).toNat = a.toNat % 8 := BitVec.extractLsb'_toNat 0 3 a
  rw [formatT, ite_error_rejects, extractLsb'_eq_zero_iff, imp_iff_not_or]
  refine or_congr_right ?_
  split
  case h_1 hv | h_2 hv | h_3 hv | h_4 hv =>
    rw [hv] at hvar
    rw [formatTPlain_rejects, ← hvar]
    simp
  case h_5 hv | h_6 hv =>
    rw [hv] at hvar
    rw [← hvar]
    simp
  case h_7 h0 h1 h2 h3 h4 h5 =>
    simp only [imp_false, ← BitVec.toNat_inj, hvar, BitVec.toNat_ofNat] at h0 h1 h2 h3 h4 h5
    exact iff_of_true ⟨_, rfl⟩ (.inl (by omega))

/-- The decoder rejects exactly the illegal encodings of 30_encoding R72 and R77. -/
theorem decodeFields_rejects {op : BitVec 8} {a : BitVec 24} {v : Word} :
    (∃ e, decodeFields op a v = .error e) ↔ illegalFields op.toNat a.toNat v.toNat := by
  unfold decodeFields
  split
  case h_1 | h_6 | h_7 | h_19 => simp [formatZ_rejects, illegalFields, assignedOpcodes]
  case h_2 | h_3 | h_4 | h_5 | h_12 | h_13 | h_14 | h_15 => simp [illegalFields, assignedOpcodes]
  case h_8 => simp [formatT_rejects, illegalFields, assignedOpcodes]
  case h_9 => simp [formatOvhd_rejects, illegalFields, assignedOpcodes]
  case h_10 | h_11 => simp [formatP_rejects, illegalFields, assignedOpcodes]
  case h_16 | h_17 => simp [formatS_rejects, illegalFields, assignedOpcodes]
  case h_18 => simp [formatGets_rejects, illegalFields, assignedOpcodes]
  case h_20 =>
    have hop : op.toNat ∉ assignedOpcodes := by
      simp_all [assignedOpcodes, ← BitVec.toNat_inj]
    exact iff_of_true ⟨_, rfl⟩ (.inl hop)

theorem decode_rejects {c : ControlWord} {v : Word} : (∃ e, decode c v = .error e) ↔ illegal c v := by
  rw [decode, decodeFields_rejects, opField_toNat, aField_toNat, illegal]

end Sys2Proof
end

section
/-! The obligations of 30_encoding: the round trips, the rows of the opcode map, illegal commands. -/

namespace Sys2Proof.Machine

/-! ### The round trips -/

/-- Settles O3: the words of `i` meet the condition under which they decode to `i`. -/
theorem encodedCommandDecodesBack : Obligations.EncodedCommandDecodesBack := fun _ hw =>
  decode_eq_ok_iff.mpr ⟨hw, rfl, fun _ => rfl⟩

/-- Settles O4: the condition under which a pair decodes to `i`, which is none on V when the format uses no data. -/
theorem decodedCommandAccountsForEveryBit : Obligations.DecodedCommandAccountsForEveryBit := by
  intro c v i h
  obtain ⟨hw, hc, hv⟩ := decode_eq_ok_iff.mp h
  exact ⟨hw, hc, hv, fun hn v' => decode_eq_ok_iff.mpr ⟨hw, hc, fun hu => absurd hu (by simp [hn])⟩⟩

/-- Settles O5: each pair is what the encoder gives for its instruction, so it decodes back. -/
theorem writtenOutWordsDecode : Obligations.WrittenOutWordsDecode :=
  ⟨encodedCommandDecodesBack (.tcdecAsca 3 true) rfl, encodedCommandDecodesBack (.payext 54 20 23) rfl,
    encodedCommandDecodesBack (.tcdecAscb 3 true) rfl, encodedCommandDecodesBack (.seek 48) rfl,
    encodedCommandDecodesBack (.setf 3 0x3FF) rfl, encodedCommandDecodesBack (.ovhd 3) rfl,
    encodedCommandDecodesBack (.wrbits 11 0x3FF) rfl, encodedCommandDecodesBack .phdec rfl⟩

/-! ### The rows of the opcode map -/

/-- Every instruction has one of the 24 rows, whatever its operands. -/
theorem row_mem_opcodeRows (i : Instr) : i.row ∈ opcodeRows := by
  cases i <;> simp [opcodeRows, Instr.row]

/-- The control word of a well-formed instruction selects its own row. -/
theorem selectsRow_encodeControl {i : Instr} (hw : i.wellFormed = true) :
    selectsRow (encodeControl i) i.row = true := by
  suffices h : Laws.EncodedRow.Statement i from h hw
  cases i
  open Laws.EncodedRow in
  exacts [nop, rdbits _, wrbits _ _, rdbytes _, wrbytes _ _, phdec, phenc, tcdecNone, tcdecCuc, tcdecCds, tcdecCcs,
    tcdecAsca _ _, tcdecAscb _ _, ovhd _, paylen _ _ _, payext _ _ _, bufwr _ _, bufrd _, setlen _, seek _, getf _,
    setf _ _, gets _, clre]

/-- A word that selects two rows matches each on the bits that the other fixes. -/
theorem selectsRow_agree {c : ControlWord} {r r' : ControlWord × ControlWord} (h : selectsRow c r = true)
    (h' : selectsRow c r' = true) : r.1 &&& r'.2 = r'.1 &&& r.2 := by
  rw [← eq_of_beq h, ← eq_of_beq h', BitVec.and_assoc, BitVec.and_assoc, BitVec.and_comm r.2]

/-- No two rows agree on the bits that both fix. -/
theorem opcodeRows_disjoint : ∀ r ∈ opcodeRows, ∀ r' ∈ opcodeRows, r.1 &&& r'.2 = r'.1 &&& r.2 → r = r' := by
  simp [opcodeRows, Instr.row]

/-! ### Illegal commands -/

theorem step_of_decode_error {s : State} {c : ControlWord} {v : Word} {later : List HostInput} {e : DecodeError}
    (hs : s.inputs = .command c v :: later) (hd : decode c v = .error e) :
    step s = .next (raise .operand (s.setInputs later)) := by
  unfold step
  rw [hs]
  dsimp only
  rw [hd]

/-- A pair that is not illegal decodes to a well-formed instruction, and only that instruction's row is selected. -/
theorem legal_selects_one_row {c : ControlWord} {v : Word} (h : ¬ illegal c v) :
    ∃ i, decode c v = .ok i ∧ i.wellFormed = true ∧ i.row ∈ opcodeRows ∧ selectsRow c i.row = true ∧
      ∀ r ∈ opcodeRows, selectsRow c r = true → r = i.row := by
  cases hd : decode c v with
  | error e => exact absurd (decode_rejects.mp ⟨e, hd⟩) h
  | ok i =>
    obtain ⟨hw, rfl, -⟩ := decode_eq_ok_iff.mp hd
    have hrow := selectsRow_encodeControl hw
    exact ⟨i, rfl, hw, row_mem_opcodeRows i, hrow, fun r hr hs =>
      opcodeRows_disjoint r hr _ (row_mem_opcodeRows i) (selectsRow_agree hs hrow)⟩

/-- Settles O2: the rejections format by format, the one row of a legal pair, and the abort of an illegal command. -/
theorem illegalCommandRaisesOperandError : Obligations.IllegalCommandRaisesOperandError := by
  refine ⟨fun c v => decode_rejects.symm, fun c v => legal_selects_one_row, fun s c v later hs hi => ?_⟩
  obtain ⟨e, hd⟩ := decode_rejects.mpr hi
  exact step_of_decode_error hs hd

end Sys2Proof.Machine
end

section
/-! Reading and writing a field at the cursor (40_bitfield R101, R104), for RDBITS and WRBITS, for RDBYTES and WRBYTES, and for
whatever else stores a field: what each answers, and what MemRead and MemWrite say of the stream. -/

namespace Sys2Proof.Machine

/-! ### The stream -/

/-- The eight stream bits of an aligned byte are the byte (00_scope R10). -/
theorem Memory.readBits_byte (m : List Host.Cell) (a : Nat) : Memory.readBits m (8 * a) 8 = (Memory.read m a).toNat := by
  refine Nat.eq_of_testBit_eq fun i => ?_
  by_cases hi : i < 8
  · rw [Memory.testBit_readBits _ _ _ _ hi, Memory.bit, BitVec.testBit_toNat]
    congr 2 <;> omega
  · have high (x : Nat) (hx : x < 2 ^ 8) : x.testBit i = false :=
      Nat.testBit_lt_two_pow (hx.trans_le (Nat.pow_le_pow_right (by decide) (by omega)))
    rw [high _ (Memory.readBits_lt _ _ _), high _ (Memory.read m a).isLt]

/-- An aligned MemRead of whole bytes is the big-endian number they spell (40_bitfield R107). -/
theorem Memory.readBits_bytes (m : List Host.Cell) (a n : Nat) :
    Memory.readBits m (8 * a) (8 * n) =
      ∑ j ∈ Finset.range n, (Memory.read m (a + j)).toNat * 256 ^ (n - 1 - j) := by
  induction n with
  | zero => rfl
  | succ n ih =>
    have shift : ∀ j ∈ Finset.range n, (Memory.read m (a + j)).toNat * 256 ^ (n + 1 - 1 - j) =
        (Memory.read m (a + j)).toNat * 256 ^ (n - 1 - j) * 2 ^ 8 := fun j hj => by
      have hj := Finset.mem_range.mp hj
      rw [show n + 1 - 1 - j = n - 1 - j + 1 by omega, pow_succ, ← mul_assoc]
      rfl
    rw [Nat.mul_succ, Memory.readBits_append, ← Nat.mul_add, Memory.readBits_byte, ih, Finset.sum_range_succ,
      Finset.sum_congr rfl shift, Finset.sum_mul]
    simp

theorem State.readBits_memWrite {q n v : Nat} (s : State) (hv : v < 2 ^ n) :
    Memory.readBits (s.memWrite q n v).buf q n = v := Memory.readBits_writeBits _ _ _ _ hv

theorem State.holdsField_readBits {q n : Nat} {s : State} (h : q + n ≤ s.validBits) :
    s.HoldsField q n (Memory.readBits s.buf q n) := by
  unfold State.validBits at h
  refine ⟨by omega, fun i hi => ?_⟩
  rw [Memory.testBit_readBits _ _ _ _ (by omega), show n - 1 - (n - 1 - i) = i by omega]

/-- A field that is held lies inside the valid bits. -/
theorem State.HoldsField.le_validBits {s : State} {q n v : Nat} (h : s.HoldsField q n v) : q + n ≤ s.validBits := by
  have := h.1
  unfold State.validBits
  omega

/-- `Inserts` speaks of LEN and BUF only. -/
theorem Inserts.congr {s t u : State} {q n v : Nat} (h : Inserts s t q n v) (hl : u.len = t.len) (hb : u.buf = t.buf) :
    Inserts s u q n v := by
  unfold Inserts streamBit at *
  rw [hl, hb]
  exact h

/-- MemWrite is the insertion of 20_memory R54. -/
theorem inserts_memWrite (s : State) {q n : Nat} (v : Nat) (hn : 0 < n) (hq : q + n ≤ capacityBits) :
    Inserts s (s.memWrite q n v) q n v := by
  refine ⟨s.memWrite_len q n v hq, fun i hi => ?_, fun p hp => ?_, fun a ha => ?_⟩
  · rw [streamBit_eq, State.bit_memWrite, if_pos (by omega), Nat.add_sub_cancel_left, Nat.toNat_testBit]
  · rw [streamBit_eq, State.bit_memWrite, if_neg (by omega), streamBit_eq]
    split <;> rfl
  · exact s.read_memWrite q n v a fun i hi => by omega

/-! ### The state after a read and after a write -/

/-- The state that a successful read of `n` bits answers. -/
def afterRead (n : Nat) (s : State) : State := respond (readCommit n s).2 (readCommit n s).1

/-- The state that a successful write of `v` as `n` bits answers. -/
def afterWrite (n v : Nat) (s : State) : State := respond (writeCommit n v s).2 (writeCommit n v s).1

section
variable (n v : Nat) (s : State)
@[simp] theorem afterRead_buf : (afterRead n s).buf = s.buf := rfl
@[simp] theorem afterRead_len : (afterRead n s).len = s.len := rfl
@[simp] theorem afterRead_validBits : (afterRead n s).validBits = s.validBits := rfl
@[simp] theorem afterRead_rval : (afterRead n s).rval = wordOf (Memory.readBits s.buf s.cur.toNat n) := rfl
@[simp] theorem afterWrite_buf : (afterWrite n v s).buf = (s.memWrite s.cur.toNat n v).buf := rfl
@[simp] theorem afterWrite_len : (afterWrite n v s).len = (s.memWrite s.cur.toNat n v).len := rfl

theorem afterRead_responds : Responds (afterRead n s) (afterRead n s).rval := rfl

theorem afterWrite_responds : Responds (afterWrite n v s) 0 := rfl

theorem afterRead_keeps : KeepsAllBut [.rval, .cur, .rsp] s (afterRead n s) := by
  intro p hp
  cases p
  case rval | cur | rsp => exact absurd (by decide) hp
  case buf | f => exact fun _ => rfl
  all_goals exact rfl

theorem afterWrite_keeps : KeepsAllBut [.buf, .len, .cur, .rsp] s (afterWrite n v s) := by
  intro p hp
  cases p
  case buf | len | cur | rsp => exact absurd (by decide) hp
  all_goals simp [Part.same, afterWrite, writeCommit]
end

theorem wordOf_toNat {x n : Nat} (hx : x < 2 ^ n) (hn : n ≤ 128) : (wordOf x).toNat = x := by
  rw [wordOf, BitVec.toNat_ofNat, Nat.mod_eq_of_lt (hx.trans_le (Nat.pow_le_pow_right (by decide) hn))]

theorem afterRead_responds_of {n : Nat} {v : Word} {s : State} (h : Memory.readBits s.buf s.cur.toNat n = v.toNat) :
    Responds (afterRead n s) v := by
  have hv : (afterRead n s).rval = v := by simp [wordOf, h]
  exact hv ▸ afterRead_responds n s

theorem afterRead_rval_toNat {n : Nat} (hn : n ≤ 128) (s : State) :
    (afterRead n s).rval.toNat = Memory.readBits s.buf s.cur.toNat n := wordOf_toNat (Memory.readBits_lt _ _ _) hn

/-- The cursor never wraps: LEN has 21 bits and CUR 24. -/
theorem afterRead_cur_toNat {n : Nat} {s : State} (h : s.cur.toNat + n ≤ s.validBits) :
    (afterRead n s).cur.toNat = s.cur.toNat + n :=
  Nat.mod_eq_of_lt (by have := s.len.isLt; unfold State.validBits at h; omega)

theorem afterWrite_cur_toNat {n v : Nat} {s : State} (h : s.cur.toNat + n ≤ capacityBits) :
    (afterWrite n v s).cur.toNat = s.cur.toNat + n :=
  Nat.mod_eq_of_lt (by unfold capacityBits Config.bufBytes at h; omega)

theorem afterWrite_inserts {n : Nat} (v : Nat) {s : State} (hn : 0 < n) (h : s.cur.toNat + n ≤ capacityBits) :
    Inserts s (afterWrite n v s) s.cur.toNat n v :=
  (inserts_memWrite s v hn h).congr rfl rfl

/-! ### The tests, in their order -/

/-- An instruction that reports no error answers its commit. -/
theorem exec_of_errorOf_none {i : Instr} {s : State} (h : errorOf i s = none) :
    exec i s = .next (respond (commitOf i s).2 (commitOf i s).1) := (succeeds_iff.mpr ⟨h, rfl⟩).1

section
variable {s : State} {n v : Nat}

theorem readError_encoding (h : n = 0) : readError n s = some .encoding := if_pos h

theorem readError_truncated (hn : 0 < n) (h : s.validBits < s.cur.toNat + n) : readError n s = some .truncatedInput :=
  (if_neg (by omega)).trans (if_pos h)

theorem writeError_operand (h : capacityBits < s.cur.toNat + n) : writeError n v s = some .operand := if_pos h

theorem writeError_encoding (hn : n = 0) (h : s.cur.toNat ≤ capacityBits) : writeError n v s = some .encoding :=
  (if_neg (by omega)).trans (if_pos hn)

theorem writeError_range (hn : 0 < n) (h : s.cur.toNat + n ≤ capacityBits) (hv : 2 ^ n ≤ v) :
    writeError n v s = some .range :=
  (if_neg (by omega)).trans ((if_neg (by omega)).trans (if_pos hv))
end

section
variable {n : BitVec 24} {v : Word} {s : State}

/-! Below its own limit each command reports what the field it reads or writes reports. -/

theorem errorOf_rdbits (h : n.toNat ≤ 128) : errorOf (.rdbits n) s = readError n.toNat s := if_neg (by omega)

theorem errorOf_rdbytes (h : n.toNat ≤ 16) : errorOf (.rdbytes n) s = readError (8 * n.toNat) s := if_neg (by omega)

theorem errorOf_wrbits (h : n.toNat ≤ 128) : errorOf (.wrbits n v) s = writeError n.toNat v.toNat s := if_neg (by omega)

theorem errorOf_wrbytes (h : n.toNat ≤ 16) : errorOf (.wrbytes n v) s = writeError (8 * n.toNat) v.toNat s :=
  if_neg (by omega)

/-- What a successful RDBITS needs and answers. -/
theorem succeeds_rdbits_iff {t : State} : Succeeds (.rdbits n) s t ↔
    (n.toNat ≤ 128 ∧ n.toNat ≠ 0 ∧ s.cur.toNat + n.toNat ≤ s.validBits) ∧ t = afterRead n.toNat s := by
  rw [succeeds_iff]
  simp only [errorOf, test_eq_none, readError_eq_none, not_lt]
  rfl

/-- What a successful WRBITS needs and answers. -/
theorem succeeds_wrbits_iff {t : State} : Succeeds (.wrbits n v) s t ↔
    (n.toNat ≤ 128 ∧ s.cur.toNat + n.toNat ≤ capacityBits ∧ n.toNat ≠ 0 ∧ v.toNat < 2 ^ n.toNat) ∧
      t = afterWrite n.toNat v.toNat s := by
  rw [succeeds_iff]
  simp only [errorOf, test_eq_none, writeError_eq_none, not_lt]
  rfl
end

/-- SEEK to a position inside the capacity sets the cursor alone (44_host_access R174). -/
theorem succeeds_seek {q : BitVec 24} (h : q.toNat ≤ capacityBits) (t : State) :
    Succeeds (.seek q) t (respond 0 (t.setCur q)) :=
  succeeds_iff.mpr ⟨if_neg (by omega), by simp [commitOf, State.moveTo]⟩

/-- A control word given as its opcode and its short operand or-ed below it. -/
theorem decode_or_operand (op : BitVec 8) (a : BitVec 24) (v : Word) :
    decode (op.setWidth 32 <<< 24 ||| a.setWidth 32) v = decodeFields op a v := by
  rw [or_setWidth_eq_append op a le_rfl, BitVec.setWidth_eq, decode_append]

end Sys2Proof.Machine
end

section
/-! The obligations of 40_bitfield: RDBITS, WRBITS, RDBYTES, WRBYTES, and the laws between them. -/

namespace Sys2Proof.Machine

/-- Settles O22: the tests in order, and the state after the read. -/
theorem rdbitsReadsField : Obligations.RdbitsReadsField := by
  refine fun n s => ⟨decode_or_operand 0x01 n, fun h => aborts_iff.mpr (if_pos h), fun h => aborts_iff.mpr ?_,
    fun h0 hn h => aborts_iff.mpr ?_, fun h0 hn h => ⟨afterRead n.toNat s, ?_, ?_, afterRead_responds _ _,
      afterRead_cur_toNat h, afterRead_keeps _ _⟩⟩
  · rw [errorOf_rdbits (by omega), readError_encoding h]
  · rw [errorOf_rdbits hn, readError_truncated h0 h]
  · exact (succeeds_rdbits_iff.mpr ⟨⟨hn, h0.ne', h⟩, rfl⟩).1
  · rw [streamField_eq, afterRead_rval_toNat hn]

/-- Settles O23: the second read starts where the first ended, on the same buffer, so the composition law of 20_memory R53 puts
the two values together. -/
theorem successiveReadsCompose : Obligations.SuccessiveReadsCompose := by
  intro n₁ n₂ n s t₁ t₂ hn hle h₁ h₂
  obtain ⟨⟨hle₁, hpos₁, hin₁⟩, rfl⟩ := succeeds_rdbits_iff.mp h₁
  obtain ⟨⟨hle₂, -, hin₂⟩, rfl⟩ := succeeds_rdbits_iff.mp h₂
  have hcur₁ := afterRead_cur_toNat hin₁
  have hcur₂ := afterRead_cur_toNat hin₂
  have hin : s.cur.toNat + n.toNat ≤ s.validBits := by
    rw [hcur₁, afterRead_validBits] at hin₂
    omega
  refine ⟨hcur₁, afterRead n.toNat s, succeeds_rdbits_iff.mpr ⟨⟨hle, by omega, hin⟩, rfl⟩, ?_, ?_⟩
  · rw [afterRead_rval_toNat hle, afterRead_rval_toNat hle₁, afterRead_rval_toNat hle₂, hcur₁, afterRead_buf, hn,
      Memory.readBits_append]
  · refine BitVec.eq_of_toNat_eq ?_
    rw [afterRead_cur_toNat hin, hcur₂, hcur₁, hn, Nat.add_assoc]

/-- Settles O24: the tests in order, and the state after the write. -/
theorem wrbitsInsertsField : Obligations.WrbitsInsertsField := by
  refine fun n v s => ⟨decode_or_operand 0x02 n v, fun h => aborts_iff.mpr ?_, fun h0 h => aborts_iff.mpr ?_,
    fun h0 hn h hv => aborts_iff.mpr ?_, fun h0 hn h hv => ⟨afterWrite n.toNat v.toNat s, ?_,
      afterWrite_inserts _ h0 h, afterWrite_responds _ _ _, afterWrite_cur_toNat h, afterWrite_keeps _ _ _⟩⟩
  · by_cases hn : 128 < n.toNat
    · exact if_pos hn
    · rw [errorOf_wrbits (by omega), writeError_operand (h.resolve_left hn)]
  · rw [errorOf_wrbits (by omega), writeError_encoding h0 h]
  · rw [errorOf_wrbits hn, writeError_range h0 h hv]
  · exact (succeeds_wrbits_iff.mpr ⟨⟨hn, h, h0.ne', hv⟩, rfl⟩).1

/-- What was written is read back: the write leaves its field inside LEN, and SEEK leaves BUF and LEN alone. -/
theorem read_after_write {n : BitVec 24} {v : Word} {s t : State} (h : Succeeds (.wrbits n v) s t) :
    streamField t s.cur.toNat n.toNat = v.toNat ∧
      ∃ u w, Succeeds (.seek s.cur) t u ∧ exec (.rdbits n) u = .next w ∧ Responds w v := by
  obtain ⟨⟨hn, hq, h0, hv⟩, rfl⟩ := succeeds_wrbits_iff.mp h
  have hread : Memory.readBits (afterWrite n.toNat v.toNat s).buf s.cur.toNat n.toNat = v.toNat :=
    s.readBits_memWrite hv
  have hin := (s.holdsField_memWrite _ _ v.toNat hq).le_validBits
  exact ⟨(streamField_eq _ _ _).trans hread, _, _, succeeds_seek (by omega) _,
    (succeeds_rdbits_iff.mpr ⟨⟨hn, h0, hin⟩, rfl⟩).1, afterRead_responds_of hread⟩

/-- What was read is there already, so writing it back changes nothing; its end lies in the capacity by 10_state R30. -/
theorem write_after_read {n : BitVec 24} {s t : State} (hs : s.Inv) (h : Succeeds (.rdbits n) s t) :
    ∃ u w, Succeeds (.seek s.cur) t u ∧ Succeeds (.wrbits n t.rval) u w ∧ w.len = s.len ∧
      ∀ a, Memory.read w.buf a = Memory.read s.buf a := by
  obtain ⟨⟨hn, h0, hin⟩, rfl⟩ := succeeds_rdbits_iff.mp h
  have hcap : s.cur.toNat + n.toNat ≤ capacityBits := hs.le_capacity hin
  have hval := afterRead_rval_toNat hn s
  obtain ⟨u, hu⟩ : ∃ u, u = respond 0 ((afterRead n.toNat s).setCur s.cur) := ⟨_, rfl⟩
  have hfield : u.HoldsField s.cur.toNat n.toNat (afterRead n.toNat s).rval.toNat :=
    (hval ▸ State.holdsField_readBits hin).congr (by rw [hu]; rfl) (by rw [hu]; rfl)
  have hcur : u.cur = s.cur := by rw [hu]; rfl
  refine ⟨u, _, hu ▸ succeeds_seek (by omega) _,
    succeeds_wrbits_iff.mpr ⟨⟨hn, hcur ▸ hcap, h0, hval ▸ Memory.readBits_lt _ _ _⟩, rfl⟩, ?_, fun a => ?_⟩
  · rw [afterWrite_len, hcur, hfield.memWrite_len, hu]
    rfl
  · rw [afterWrite_buf, hcur, hfield.read_memWrite, hu]
    rfl

/-- Settles O25: reading back what was written, and writing back what was read. -/
theorem writeAndReadAreInverse : Obligations.WriteAndReadAreInverse :=
  ⟨fun _ _ _ _ => read_after_write, fun _ _ _ => write_after_read⟩

/-- Settles O26: the tests in order, and the state after a read of `8*n` bits, whose bytes at an aligned cursor are whole. -/
theorem rdbytesReadsWholeBytes : Obligations.RdbytesReadsWholeBytes := by
  refine fun n s => ⟨decode_or_operand 0x03 n, fun h => aborts_iff.mpr (if_pos h), fun h => aborts_iff.mpr ?_,
    fun h0 hn h => aborts_iff.mpr ?_, fun h0 hn h => ?_⟩
  · rw [errorOf_rdbytes (by omega), readError_encoding (by omega)]
  · rw [errorOf_rdbytes hn, readError_truncated (by omega) h]
  · have hval := afterRead_rval_toNat (show 8 * n.toNat ≤ 128 by omega) s
    refine ⟨afterRead (8 * n.toNat) s, exec_of_errorOf_none ?_, hval.trans (streamField_eq _ _ _).symm, fun ha => ?_,
      afterRead_responds _ _, afterRead_cur_toNat h, afterRead_keeps _ _⟩
    · rw [errorOf_rdbytes hn, readError_eq_none]
      exact ⟨by omega, h⟩
    · rw [hval, ← Memory.readBits_bytes, Nat.mul_div_cancel' (Nat.dvd_of_mod_eq_zero ha)]

/-- Settles O27: the tests in order, and the state after a write of `8*n` bits. -/
theorem wrbytesInsertsWholeBytes : Obligations.WrbytesInsertsWholeBytes := by
  refine fun n v s => ⟨decode_or_operand 0x04 n v, fun h => aborts_iff.mpr ?_, fun h0 h => aborts_iff.mpr ?_,
    fun h0 hn h hv => aborts_iff.mpr ?_, fun h0 hn h hv => ⟨afterWrite (8 * n.toNat) v.toNat s,
      exec_of_errorOf_none ?_, afterWrite_inserts _ (by omega) h, afterWrite_responds _ _ _, afterWrite_cur_toNat h,
      afterWrite_keeps _ _ _⟩⟩
  · by_cases hn : 16 < n.toNat
    · exact if_pos hn
    · rw [errorOf_wrbytes (by omega), writeError_operand (h.resolve_left hn)]
  · rw [errorOf_wrbytes (by omega), writeError_encoding (by omega) h]
  · rw [errorOf_wrbytes hn, writeError_range (by omega) h hv]
  · rw [errorOf_wrbytes hn, writeError_eq_none]
    exact ⟨h, by omega, hv⟩

end Sys2Proof.Machine
end

section
/-! The primary header (41_primary_header R120): its 48 bits as seven fields and as one number, and what PHDEC and PHENC answer. -/

namespace Sys2Proof.Machine

/-! ### Rejected short operands -/

/-- An opcode rejects the short operands from `lo` on when R77 calls every one of them illegal. -/
theorem rejectsOperandFrom_of_illegal {op lo : Nat} (h : ∀ a v, lo ≤ a → illegalFields op a v) :
    RejectsOperandFrom op lo :=
  fun c v hop ha => decode_rejects.mpr (by rw [illegal, hop]; exact h _ _ ha)

/-- The opcodes of formats Z and P (30_encoding R71, R72) reject every short operand but 0. -/
theorem rejectsOperand_of_zeroOperand {op : Nat} (h : op ∈ [0x00, 0x10, 0x11, 0x47, 0x31, 0x32]) :
    RejectsOperandFrom op 1 :=
  rejectsOperandFrom_of_illegal fun _ _ ha => .inr (.inl ⟨h, by omega⟩)

/-! ### Packing and unpacking -/

theorem setWidth_zext {w : Nat} (x : BitVec w) (h : w ≤ 128) : (zext x).setWidth w = x := by
  rw [zext, BitVec.setWidth_setWidth_of_le _ h, BitVec.setWidth_eq]

theorem zext_setWidth {w : Nat} {x : Word} (h : x.toNat < 2 ^ w) : zext (x.setWidth w) = x := by
  rw [zext_eq_wordOf, BitVec.toNat_setWidth, Nat.mod_eq_of_lt h, wordOf, BitVec.ofNat_toNat, BitVec.setWidth_eq]

theorem zext_toNat_lt {w : Nat} (x : BitVec w) : (zext x).toNat < 2 ^ w := by
  rw [zext, BitVec.toNat_setWidth]
  exact (Nat.mod_le _ _).trans_lt x.isLt

/-- An appended value is the high part shifted over the low part. -/
theorem toNat_append_eq_add {m n : Nat} (x : BitVec m) (y : BitVec n) : (x ++ y).toNat = x.toNat * 2 ^ n + y.toNat := by
  rw [BitVec.toNat_append, ← Nat.shiftLeft_add_eq_or_of_lt y.isLt, Nat.shiftLeft_eq]

/-- The seven registers of the header. -/
def headerRegs : List (BitVec 4) := [0, 1, 2, 3, 4, 5, 6]

/-- FV after PHDEC marks exactly these (41_primary_header R121). -/
theorem fvValid_fvHeader : ∀ i, fvValid fvHeader i = headerRegs.contains i := by decide

/-- Writing into registers what they hold changes nothing. -/
theorem regSetAll_regGet (f : Vector Word 16) (is : List (BitVec 4)) :
    regSetAll f (is.map fun i => (i, regGet f i)) = f := by
  induction is with
  | nil => rfl
  | cons i is ih =>
    have hi : regSet f i (regGet f i) = f := Vector.set_getElem_self i.isLt
    rw [List.map_cons, regSetAll, hi, ih]

theorem regGet_regSetAll_headerFields (f : Vector Word 16) (h : BitVec 48) (i : BitVec 4) :
    regGet (regSetAll f (headerFields h)) i = ((headerFields h).lookup i).getD (regGet f i) :=
  regGet_regSetAll f (headerFields h) (show headerRegs.Nodup by decide) i

/-- Packing the fields of a header value gives the value. -/
theorem headerOf_headerFields (f : Vector Word 16) (h : BitVec 48) : headerOf (regSetAll f (headerFields h)) = h := by
  have hpack : headerOf (regSetAll f (headerFields h)) =
      headerValue (zext (h.extractLsb' 45 3)) (zext (h.extractLsb' 44 1)) (zext (h.extractLsb' 43 1))
        (zext (h.extractLsb' 32 11)) (zext (h.extractLsb' 30 2)) (zext (h.extractLsb' 16 14))
        (zext (h.extractLsb' 0 16)) := by
    simp only [headerOf, regGet_regSetAll_headerFields]
    rfl
  rw [hpack, headerValue]
  simp (disch := decide) only [setWidth_zext]
  simp (disch := decide) only [BitVec.extractLsb'_append_extractLsb'_eq_extractLsb']
  exact BitVec.extractLsb'_eq_self

/-- The fields of a header value fit their widths. -/
theorem headerFits_headerFields (f : Vector Word 16) (h : BitVec 48) : headerFits (regSetAll f (headerFields h)) := by
  simp only [headerFits, regGet_regSetAll_headerFields]
  exact ⟨zext_toNat_lt _, zext_toNat_lt _, zext_toNat_lt _, zext_toNat_lt _, zext_toNat_lt _, zext_toNat_lt _,
    zext_toNat_lt _⟩

/-- Unpacking the header value of registers that fit gives the registers. -/
theorem headerFields_headerOf {f : Vector Word 16} (h : headerFits f) :
    headerFields (headerOf f) = headerRegs.map fun i => (i, regGet f i) := by
  obtain ⟨h0, h1, h2, h3, h4, h5, h6⟩ := h
  simp (disch := decide) only [headerFields, headerOf, headerValue, BitVec.extractLsb'_append_eq_of_le,
    BitVec.extractLsb'_append_eq_of_add_le, Nat.reduceSub, BitVec.extractLsb'_eq_self]
  rw [zext_setWidth h0, zext_setWidth h1, zext_setWidth h2, zext_setWidth h3, zext_setWidth h4, zext_setWidth h5,
    zext_setWidth h6]
  rfl

/-- The header value of registers that fit is the sum of 41_primary_header R120. -/
theorem headerOf_toNat {f : Vector Word 16} (h : headerFits f) :
    (headerOf f).toNat = (regGet f 0).toNat * 2 ^ 45 + (regGet f 1).toNat * 2 ^ 44 + (regGet f 2).toNat * 2 ^ 43 +
      (regGet f 3).toNat * 2 ^ 32 + (regGet f 4).toNat * 2 ^ 30 + (regGet f 5).toNat * 2 ^ 16 + (regGet f 6).toNat := by
  obtain ⟨h0, h1, h2, h3, h4, h5, h6⟩ := h
  simp only [headerOf, headerValue, toNat_append_eq_add, BitVec.toNat_setWidth, Nat.mod_eq_of_lt, h0, h1, h2, h3, h4, h5,
    h6]
  omega

/-- The seven fields at `q`, by register (41_primary_header R120). -/
def headerAt (s : State) (q : Nat) : List (BitVec 4 × Nat) :=
  [(0, streamField s q 3), (1, streamField s (q + 3) 1), (2, streamField s (q + 4) 1), (3, streamField s (q + 5) 11),
    (4, streamField s (q + 16) 2), (5, streamField s (q + 18) 14), (6, streamField s (q + 32) 16)]

/-- Unpacking the 48 bits at `q` gives the fields at their places. -/
theorem headerFields_readBits (s : State) (q : Nat) :
    headerFields (BitVec.ofNat 48 (Memory.readBits s.buf q 48)) = (headerAt s q).map fun p => (p.1, wordOf p.2) := by
  simp (disch := decide) only [headerFields, headerAt, zext_eq_wordOf, slice_toNat, streamField_eq, Nat.reduceSub,
    Nat.add_zero, List.map]

/-! ### PHDEC -/

/-- The state that a successful PHDEC answers. -/
def afterPhdec (s : State) : State := respond (commitOf .phdec s).2 (commitOf .phdec s).1

section
variable (s : State)
@[simp] theorem afterPhdec_buf : (afterPhdec s).buf = s.buf := rfl
@[simp] theorem afterPhdec_len : (afterPhdec s).len = s.len := rfl
@[simp] theorem afterPhdec_fv : (afterPhdec s).fv = fvHeader := rfl
@[simp] theorem afterPhdec_f : (afterPhdec s).f =
    regSetAll s.f (headerFields (BitVec.ofNat 48 (Memory.readBits s.buf s.cur.toNat 48))) := rfl

theorem afterPhdec_responds : Responds (afterPhdec s) 0 := rfl

theorem afterPhdec_keeps : KeepsAllBut [.f, .fv, .cur, .rsp] s (afterPhdec s) := by
  intro p hp
  cases p
  case f | fv | cur | rsp => exact absurd (by decide) hp
  case buf => exact fun _ => rfl
  all_goals exact rfl

theorem afterPhdec_holdsExactly : HoldsExactly (afterPhdec s) (headerAt s s.cur.toNat) :=
  holdsExactly_populated (f := s.f) (by rw [afterPhdec_f, headerFields_readBits])
    (show headerRegs.Nodup by decide) fvValid_fvHeader
end

/-- The cursor never wraps: LEN has 21 bits and CUR 24. -/
theorem afterPhdec_cur_toNat {s : State} (h : s.cur.toNat + 48 ≤ s.validBits) :
    (afterPhdec s).cur.toNat = s.cur.toNat + 48 := afterRead_cur_toNat h

/-- What a successful PHDEC needs and answers. -/
theorem succeeds_phdec_iff {s t : State} : Succeeds .phdec s t ↔ s.cur.toNat + 48 ≤ s.validBits ∧ t = afterPhdec s := by
  rw [succeeds_iff, errorOf, truncatedBelow_eq_none]
  rfl

/-! ### PHENC -/

/-- All of F0 to F6 hold values. -/
abbrev HeaderValid (s : State) : Prop := ∀ i : BitVec 4, i.toNat < 7 → fvValid s.fv i = true

theorem fvHeader_valid : ∀ i : BitVec 4, i.toNat < 7 → fvValid fvHeader i = true := by decide

@[simp] theorem afterWrite_f (n v : Nat) (s : State) : (afterWrite n v s).f = s.f := State.memWrite_f _ n v s

section
variable {s : State}

theorem errorOf_phenc_invalid (h : ¬ HeaderValid s) : errorOf .phenc s = some .operand := if_pos h

theorem errorOf_phenc_noRoom (h : capacityBits < s.cur.toNat + 48) : errorOf .phenc s = some .operand := by
  by_cases hv : HeaderValid s
  · exact (if_neg (not_not_intro hv)).trans (if_pos h)
  · exact errorOf_phenc_invalid hv

theorem errorOf_phenc_range (hv : HeaderValid s) (hq : s.cur.toNat + 48 ≤ capacityBits) (h : ¬ headerFits s.f) :
    errorOf .phenc s = some .range :=
  (if_neg (not_not_intro hv)).trans ((if_neg (not_lt.mpr hq)).trans (if_pos h))

/-- What a successful PHENC needs and answers: it writes the header value as a field of 48 bits. -/
theorem succeeds_phenc_iff {t : State} : Succeeds .phenc s t ↔
    (HeaderValid s ∧ s.cur.toNat + 48 ≤ capacityBits ∧ headerFits s.f) ∧ t = afterWrite 48 (headerOf s.f).toNat s := by
  rw [succeeds_iff]
  simp only [errorOf, test_eq_none, not_not, not_lt, and_true]
  rfl
end

end Sys2Proof.Machine
end

section
/-! The obligations of 41_primary_header: PHDEC, PHENC, the golden vector and the round trip. -/

namespace Sys2Proof.Machine

/-- Settles O29: the truncation test, and the state after the fields are unpacked. -/
theorem phdecUnpacksHeader : Obligations.PhdecUnpacksHeader :=
  ⟨fun _ => decode_eq_ok_iff.mpr ⟨rfl, rfl, nofun⟩, rejectsOperand_of_zeroOperand (by decide), fun s =>
    ⟨fun h => aborts_iff.mpr (if_pos h), fun h => ⟨afterPhdec s, (succeeds_phdec_iff.mpr ⟨h, rfl⟩).1,
      afterPhdec_responds s, afterPhdec_holdsExactly s, rfl, afterPhdec_cur_toNat h, afterPhdec_keeps s⟩⟩⟩

/-- Settles O30: the tests in order, and the state after a write of the header value, which is the weighted sum of the fields
when they fit. -/
theorem phencPacksHeader : Obligations.PhencPacksHeader := by
  refine ⟨fun _ => decode_eq_ok_iff.mpr ⟨rfl, rfl, nofun⟩, rejectsOperand_of_zeroOperand (by decide), fun s =>
    ⟨fun h => aborts_iff.mpr (errorOf_phenc_invalid h), fun h => aborts_iff.mpr (errorOf_phenc_noRoom h),
      fun hv hq hr => aborts_iff.mpr (errorOf_phenc_range hv hq hr), fun hv hq hr =>
      ⟨afterWrite 48 (headerOf s.f).toNat s, (succeeds_phenc_iff.mpr ⟨⟨hv, hq, hr⟩, rfl⟩).1, ?_,
        afterWrite_responds _ _ _, afterWrite_cur_toNat hq, afterWrite_keeps _ _ _⟩⟩⟩
  rw [headerOf_toNat hr]
  exact afterWrite_inserts _ (by decide) hq

/-- PHENC of a header that is there already changes neither LEN nor a byte. -/
theorem phenc_of_holdsField {s : State} (hv : HeaderValid s) (hq : s.cur.toNat + 48 ≤ capacityBits)
    (hf : headerFits s.f) (h : s.HoldsField s.cur.toNat 48 (headerOf s.f).toNat) :
    ∃ t, Succeeds .phenc s t ∧ t.len = s.len ∧ ∀ a, Memory.read t.buf a = Memory.read s.buf a :=
  ⟨_, succeeds_phenc_iff.mpr ⟨⟨hv, hq, hf⟩, rfl⟩, h.memWrite_len, h.read_memWrite⟩

/-- PHENC after PHDEC stores the 48 bits that are there already; they end in the capacity by 10_state R30. -/
theorem phenc_after_phdec {s t : State} (hs : s.Inv) (h : Succeeds .phdec s t) :
    ∃ u w, Succeeds (.seek s.cur) t u ∧ Succeeds .phenc u w ∧ w.len = s.len ∧
      ∀ a, Memory.read w.buf a = Memory.read s.buf a := by
  obtain ⟨hin, rfl⟩ := succeeds_phdec_iff.mp h
  have hcap : s.cur.toNat + 48 ≤ capacityBits := hs.le_capacity hin
  obtain ⟨u, hu⟩ : ∃ u, u = respond 0 ((afterPhdec s).setCur s.cur) := ⟨_, rfl⟩
  obtain ⟨hcur, hlen, hbuf, hfv, hf⟩ : u.cur = s.cur ∧ u.len = s.len ∧ u.buf = s.buf ∧ u.fv = fvHeader ∧
      u.f = regSetAll s.f (headerFields (BitVec.ofNat 48 (Memory.readBits s.buf s.cur.toNat 48))) := by simp [hu]
  have hvalid : HeaderValid u := fun i hi => hfv ▸ fvHeader_valid i hi
  have hfield : u.HoldsField u.cur.toNat 48 (headerOf u.f).toNat := by
    rw [hf, headerOf_headerFields, ofNat_readBits_toNat, hcur]
    exact (State.holdsField_readBits hin).congr hlen hbuf
  obtain ⟨w, hw, hwlen, hwbuf⟩ :=
    phenc_of_holdsField hvalid (hcur ▸ hcap) (hf ▸ headerFits_headerFields _ _) hfield
  exact ⟨u, w, hu ▸ succeeds_seek (by omega) _, hw, hwlen.trans hlen, hbuf ▸ hwbuf⟩

/-- PHDEC after PHENC unpacks the header value that was stored. -/
theorem phdec_after_phenc {s t : State} (h : Succeeds .phenc s t) :
    ∃ u w, Succeeds (.seek s.cur) t u ∧ Succeeds .phdec u w ∧
      ∀ i : BitVec 4, i.toNat < 7 → w.result i = s.result i := by
  obtain ⟨⟨hvalid, hcap, hfits⟩, rfl⟩ := succeeds_phenc_iff.mp h
  obtain ⟨u, hu⟩ : ∃ u, u = respond 0 ((afterWrite 48 (headerOf s.f).toNat s).setCur s.cur) := ⟨_, rfl⟩
  obtain ⟨hcur, hlen, hbuf, hf⟩ : u.cur = s.cur ∧ u.len = (s.memWrite s.cur.toNat 48 (headerOf s.f).toNat).len ∧
      u.buf = (s.memWrite s.cur.toNat 48 (headerOf s.f).toNat).buf ∧ u.f = s.f := by simp [hu]
  have hread : BitVec.ofNat 48 (Memory.readBits u.buf u.cur.toNat 48) = headerOf s.f := by
    rw [hbuf, hcur, s.readBits_memWrite (headerOf s.f).isLt, BitVec.ofNat_toNat, BitVec.setWidth_eq]
  have hin : u.cur.toNat + 48 ≤ u.validBits := by
    rw [hcur, State.validBits, hlen]
    exact (s.holdsField_memWrite _ _ _ hcap).le_validBits
  refine ⟨u, _, hu ▸ succeeds_seek (by omega) _, succeeds_phdec_iff.mpr ⟨hin, rfl⟩, fun i hi => ?_⟩
  have hregs : (afterPhdec u).f = s.f := by
    rw [afterPhdec_f, hread, headerFields_headerOf hfits, hf, regSetAll_regGet]
  rw [State.result, State.result, hregs, afterPhdec_fv, if_pos (fvHeader_valid i hi), if_pos (hvalid i hi)]

/-- Settles O32: storing back what was unpacked, and unpacking what was stored. -/
theorem headerRoundTrip : Obligations.HeaderRoundTrip :=
  ⟨fun _ _ => phenc_after_phdec, fun _ _ => phdec_after_phenc⟩

/-- Settles O31: the seven values fit, so PHENC writes their header value, and the six bytes are evaluated. -/
theorem goldenHeaderBytes : Obligations.GoldenHeaderBytes :=
  ⟨_, (succeeds_phenc_iff.mpr ⟨by decide, rfl⟩).1, by decide +kernel, by decide +kernel⟩

end Sys2Proof.Machine
end

section
/-! The time codes as the spec writes them (42_timecode R131 to R149): the registers that each one populates with the stream
fields they hold, its FV and its byte count; and that this is what the model's commands commit. -/

namespace Sys2Proof.Machine

/-- What a time-code command reports: the registers that hold values, FV and `bytesConsumed`. -/
structure TimeCode where
  regs  : List (BitVec 4 × Nat)
  fv    : BitVec 16
  bytes : Nat

/-- The commit of a time code. -/
def TimeCode.commit (c : TimeCode) (s : State) : State × Word :=
  timeCodeCommit s (c.regs.map fun p => (p.1, wordOf p.2)) c.fv c.bytes

/-- The mask names exactly the registers of the time code, each of them once (10_state R27). -/
def TimeCode.Marked (c : TimeCode) : Prop :=
  (c.regs.map Prod.fst).Nodup ∧ ∀ i, fvValid c.fv i = (c.regs.map Prod.fst).contains i

/-! ### The time codes at the cursor -/

/-- The CUC time code under a layout of the extension byte (42_timecode R132 to R135). -/
def cucCode (lay : CucxLayout) (s : State) : TimeCode :=
  let q := s.cur.toNat
  let ext := streamField s q 1
  let bo := streamField s (q + 4) 2
  let fo := streamField s (q + 6) 2
  let ab := if ext = 1 then streamField s (q + 8 + lay.ext) lay.basic else 0
  let af := if ext = 1 then streamField s (q + 8 + lay.ext + lay.basic) lay.frac else 0
  { regs := [(0, ext), (1, streamField s (q + 1) 3), (2, bo), (3, fo)] ++
      (if ext = 1 then [(4, streamField s (q + 8) lay.ext), (5, ab), (6, af),
        (7, streamField s (q + 8 + lay.ext + lay.basic + lay.frac) lay.reserved)] else []) ++
      [(8, streamField s (q + 8 + 8 * ext) (8 * (bo + 1 + ab))),
        (9, streamField s (q + 8 + 8 * ext + 8 * (bo + 1 + ab)) (8 * (fo + 1 + af)))]
    fv := if ext = 1 then 0x03FF#16 else 0x030F#16
    bytes := 1 + ext + (bo + 1 + ab) + (fo + 1 + af) }

/-- The CDS time code (42_timecode R138 to R140). -/
def cdsCode (s : State) : TimeCode :=
  let q := s.cur.toNat
  let dsl := streamField s (q + 5) 1
  let ssl := streamField s (q + 6) 2
  { regs := [(0, streamField s q 1), (1, streamField s (q + 1) 3), (2, streamField s (q + 4) 1), (3, dsl),
        (4, ssl), (8, streamField s (q + 8) (8 * (2 + dsl))), (9, streamField s (q + 8 + 8 * (2 + dsl)) 32)] ++
      (if ssl = 0 then [] else [(10, streamField s (q + 8 + 8 * (2 + dsl) + 32) (8 * (2 * ssl)))])
    fv := if ssl = 0 then 0x031F#16 else 0x071F#16
    bytes := 7 + dsl + 2 * ssl }

/-- The CCS time code (42_timecode R142 to R144). -/
def ccsCode (s : State) : TimeCode :=
  let q := s.cur.toNat
  let cv := streamField s (q + 4) 1
  let res := streamField s (q + 5) 3
  let day := if cv = 0 then 2 else 1
  { regs := [(0, streamField s q 1), (1, streamField s (q + 1) 3), (2, cv), (3, res), (8, streamField s (q + 8) 16)] ++
      (if cv = 0 then [(9, streamField s (q + 24) 8), (10, streamField s (q + 32) 8)]
        else [(11, streamField s (q + 24) 8)]) ++
      [(12, streamField s (q + 24 + 8 * day) 8), (13, streamField s (q + 32 + 8 * day) 8),
        (14, streamField s (q + 40 + 8 * day) 8)] ++
      (if res = 0 then [] else [(15, streamField s (q + 48 + 8 * day) (8 * res))])
    fv := 0x710F#16 ||| (if cv = 0 then 0x0600#16 else 0x0800#16) ||| (if res = 0 then 0#16 else 0x8000#16)
    bytes := 6 + res + day }

/-- The ASCII time codes, by the length of their fixed part (42_timecode R146 to R149). -/
def asciiCode (fixed : Nat) (dec : BitVec 16) (term : Bool) (s : State) : TimeCode :=
  let q := s.cur.toNat
  { regs := [(8, q), (9, fixed), (10, q + 8 * fixed), (11, dec.toNat)] ++
      (if term then [(12, streamField s (q + 8 * (fixed + dec.toNat)) 8)] else [])
    fv := if term then 0x1F00#16 else 0x0F00#16
    bytes := fixed + dec.toNat + term.toNat }

/-- The time code a command reports at the cursor; a command of another opcode reports none. -/
def timeCodeAt : Instr → State → TimeCode
  | .tcdecCuc, s => cucCode Config.cucxLayout s
  | .tcdecCds, s => cdsCode s
  | .tcdecCcs, s => ccsCode s
  | .tcdecAsca dec term, s => asciiCode 20 dec term s
  | .tcdecAscb dec term, s => asciiCode 18 dec term s
  | _, _ => { regs := [], fv := 0, bytes := 0 }

/-! ### The registers and the mask agree -/

/-- Once the register numbers and the mask are known, what `Marked` says of them is decided. -/
theorem TimeCode.marked_of_keys {c : TimeCode} {fv : BitVec 16} (ks : List (BitVec 4)) (hk : c.regs.map Prod.fst = ks)
    (hf : c.fv = fv) (hn : ks.Nodup := by decide) (hv : ∀ i, fvValid fv i = ks.contains i := by decide) : c.Marked := by
  subst hk hf
  exact ⟨hn, hv⟩

theorem cucCode_marked (lay : CucxLayout) (s : State) : (cucCode lay s).Marked := by
  by_cases hx : streamField s s.cur.toNat 1 = 1
  · exact TimeCode.marked_of_keys (fv := 0x03FF#16) [0, 1, 2, 3, 4, 5, 6, 7, 8, 9] (by simp [cucCode, hx]) (if_pos hx)
  · exact TimeCode.marked_of_keys (fv := 0x030F#16) [0, 1, 2, 3, 8, 9] (by simp [cucCode, hx]) (if_neg hx)

theorem cdsCode_marked (s : State) : (cdsCode s).Marked := by
  by_cases hs : streamField s (s.cur.toNat + 6) 2 = 0
  · exact TimeCode.marked_of_keys (fv := 0x031F#16) [0, 1, 2, 3, 4, 8, 9] (by simp [cdsCode, hs]) (if_pos hs)
  · exact TimeCode.marked_of_keys (fv := 0x071F#16) [0, 1, 2, 3, 4, 8, 9, 10] (by simp [cdsCode, hs]) (if_neg hs)

theorem ccsCode_marked (s : State) : (ccsCode s).Marked := by
  by_cases hc : streamField s (s.cur.toNat + 4) 1 = 0 <;> by_cases hr : streamField s (s.cur.toNat + 5) 3 = 0
  · exact TimeCode.marked_of_keys (fv := 0x770F#16) [0, 1, 2, 3, 8, 9, 10, 12, 13, 14] (by simp [ccsCode, hc, hr])
      (by simp [ccsCode, hc, hr])
  · exact TimeCode.marked_of_keys (fv := 0xF70F#16) [0, 1, 2, 3, 8, 9, 10, 12, 13, 14, 15] (by simp [ccsCode, hc, hr])
      (by simp [ccsCode, hc, hr])
  · exact TimeCode.marked_of_keys (fv := 0x790F#16) [0, 1, 2, 3, 8, 11, 12, 13, 14] (by simp [ccsCode, hc, hr])
      (by simp [ccsCode, hc, hr])
  · exact TimeCode.marked_of_keys (fv := 0xF90F#16) [0, 1, 2, 3, 8, 11, 12, 13, 14, 15] (by simp [ccsCode, hc, hr])
      (by simp [ccsCode, hc, hr])

theorem asciiCode_marked (fixed : Nat) (dec : BitVec 16) (term : Bool) (s : State) :
    (asciiCode fixed dec term s).Marked := by
  cases term
  · exact TimeCode.marked_of_keys (fv := 0x0F00#16) [8, 9, 10, 11] rfl rfl
  · exact TimeCode.marked_of_keys (fv := 0x1F00#16) [8, 9, 10, 11, 12] rfl rfl

theorem timeCodeAt_marked (i : Instr) (s : State) : (timeCodeAt i s).Marked := by
  cases i
  case tcdecCuc => exact cucCode_marked _ s
  case tcdecCds => exact cdsCode_marked s
  case tcdecCcs => exact ccsCode_marked s
  case tcdecAsca dec term | tcdecAscb dec term => exact asciiCode_marked _ dec term s
  all_goals exact TimeCode.marked_of_keys (fv := 0) [] rfl rfl

/-! ### What the model commits -/

/-- A field of the extension byte is a stream field at its place (42_timecode R135). -/
theorem extensionField_readBits (m : List Host.Cell) (q : Nat) {hi w : Nat} (h : hi + w ≤ 8) :
    extensionField (Memory.readBits m q 8) hi w = Memory.readBits m (q + hi) w := by
  rw [extensionField, Memory.slice_readBits _ _ _ _ _ (by omega)]
  congr 2
  omega

theorem extensionField_zero (hi w : Nat) : extensionField 0 hi w = 0 := by
  rw [extensionField, Nat.zero_div, Nat.zero_mod]

theorem CucxLayout.sum_of_valid {lay : CucxLayout} (h : lay.valid = true) :
    lay.ext + lay.basic + lay.frac + lay.reserved = 8 := by
  simp only [CucxLayout.valid, Bool.and_eq_true, beq_iff_eq] at h
  exact h.1

/-- The parts of a CUC time code, with its octet counts, are the fields of `cucCode`. -/
theorem cucCode_eq_cucAt {lay : CucxLayout} (h : lay.valid = true) (s : State) :
    cucFields (cucAt lay s.buf s.cur.toNat) = (cucCode lay s).regs.map (fun p => (p.1, wordOf p.2)) ∧
      fvCuc (Memory.bit s.buf s.cur.toNat) = (cucCode lay s).fv ∧
      cucBytes (cucAt lay s.buf s.cur.toNat) = (cucCode lay s).bytes := by
  have hsum := CucxLayout.sum_of_valid h
  cases hb : Memory.bit s.buf s.cur.toNat
  · simp [cucCode, cucFields, cucBytes, cucBasicWidth, cucFracWidth, fvCuc, cucAt, hb, streamField_eq, readBits_one,
      zext_eq_wordOf, ofNat_readBits_toNat, extensionField_zero, -BitVec.toNat_ofNat]
  · simp (disch := omega) [cucCode, cucFields, cucBytes, cucBasicWidth, cucFracWidth, fvCuc, cucAt, hb, streamField_eq,
      readBits_one, zext_eq_wordOf, ofNat_readBits_toNat, extensionField_readBits, Nat.add_assoc, -BitVec.toNat_ofNat]

theorem cdsBytes_eq (s : State) : cdsBytes s = (cdsCode s).bytes := by
  simp only [cdsBytes, cdsCode, streamField_eq]
  omega

theorem ccsBytes_eq (s : State) : ccsBytes s = (ccsCode s).bytes := by
  simp only [ccsBytes, ccsCode, streamField_eq, readBits_one]
  cases Memory.bit s.buf (s.cur.toNat + 4) <;> rfl

theorem cdsFields_eq (s : State) :
    cdsFields s.buf s.cur.toNat (Memory.readBits s.buf (s.cur.toNat + 5) 1) (Memory.readBits s.buf (s.cur.toNat + 6) 2) =
      (cdsCode s).regs.map fun p => (p.1, wordOf p.2) := by
  simp only [cdsFields, cdsCode, streamField_eq]
  cases Memory.readBits s.buf (s.cur.toNat + 6) 2 <;> rfl

theorem ccsFields_eq (s : State) :
    ccsFields s.buf s.cur.toNat (Memory.readBits s.buf (s.cur.toNat + 5) 3) (Memory.bit s.buf (s.cur.toNat + 4)) =
      (ccsCode s).regs.map fun p => (p.1, wordOf p.2) := by
  simp only [ccsFields, ccsCode, streamField_eq, readBits_one]
  cases Memory.bit s.buf (s.cur.toNat + 4) <;> cases Memory.readBits s.buf (s.cur.toNat + 5) 3 <;> rfl

theorem asciiFields_eq (s : State) (fixed : Nat) (dec : BitVec 16) (term : Bool) :
    asciiFields s fixed dec term = (asciiCode fixed dec term s).regs.map fun p => (p.1, wordOf p.2) := by
  simp only [asciiFields, asciiCode, streamField_eq, zext_eq_wordOf]
  cases term <;> rfl

/-- A time-code command commits its time code. -/
theorem commitOf_timeCode {i : Instr} (h : isTimeCode i = true) (s : State) : commitOf i s = (timeCodeAt i s).commit s := by
  cases i
  case tcdecNone => rfl
  case tcdecCuc =>
    obtain ⟨hr, hf, hb⟩ := cucCode_eq_cucAt (lay := Config.cucxLayout) rfl s
    rw [commitOf, hr, hf, hb]
    rfl
  case tcdecCds =>
    rw [commitOf, cdsFields_eq, cdsBytes_eq, fvCds_streamField]
    rfl
  case tcdecCcs =>
    rw [commitOf, ccsFields_eq, ccsBytes_eq, fvCcs_streamField]
    rfl
  case tcdecAsca | tcdecAscb =>
    rw [commitOf, asciiFields_eq]
    rfl
  all_goals cases h

/-- The commit of TCDEC.CUC under any layout (42_timecode R135). -/
theorem decodeCuc_cucCode {lay : CucxLayout} (h : lay.valid = true) (s : State) : decodeCuc lay s =
    if s.validBits < s.cur.toNat + 8 * (cucCode lay s).bytes then .error .truncatedInput
    else .ok ((cucCode lay s).commit s) := by
  obtain ⟨hr, hf, hb⟩ := cucCode_eq_cucAt h s
  rw [decodeCuc_eq, hr, hf, hb]
  rfl

/-! ### When a time-code command succeeds -/

/-- All its bytes are there, and a CDS time code has a known sub-millisecond width; TCDEC.NONE reads nothing. -/
theorem errorOf_timeCode_eq_none {i : Instr} (h : isTimeCode i = true) {s : State} : errorOf i s = none ↔
    (i = .tcdecNone ∨ s.cur.toNat + 8 * (timeCodeAt i s).bytes ≤ s.validBits) ∧
      (i = .tcdecCds → streamField s (s.cur.toNat + 6) 2 ≠ 3) := by
  cases i
  case tcdecNone => exact iff_of_true rfl ⟨.inl rfl, nofun⟩
  case tcdecCuc =>
    obtain ⟨-, -, hb⟩ := cucCode_eq_cucAt (lay := Config.cucxLayout) rfl s
    simp [errorOf, hb, timeCodeAt]
  case tcdecCds =>
    have : 1 ≤ (cdsCode s).bytes := by simp only [cdsCode]; omega
    simp only [errorOf, cdsBytes_eq, test_eq_none, truncatedBelow_eq_none, timeCodeAt, streamField_eq, reduceCtorEq,
      false_or, forall_const]
    omega
  case tcdecCcs => simp [errorOf, ccsBytes_eq, timeCodeAt]
  case tcdecAsca | tcdecAscb => simp [errorOf, timeCodeAt, asciiCode]
  all_goals cases h

/-! ### The state after a time code -/

section
variable {c : TimeCode} {s : State}

theorem TimeCode.commit_bcnt_toNat (h : s.cur.toNat + 8 * c.bytes < 2 ^ 24) : (c.commit s).1.bcnt.toNat = c.bytes :=
  Nat.mod_eq_of_lt (by omega)

theorem TimeCode.commit_cur_toNat (h : s.cur.toNat + 8 * c.bytes < 2 ^ 24) :
    (c.commit s).1.cur.toNat = s.cur.toNat + 8 * c.bytes := Nat.mod_eq_of_lt h

theorem TimeCode.commit_holdsExactly (h : c.Marked) : HoldsExactly (c.commit s).1 c.regs :=
  holdsExactly_populated (f := s.f) rfl h.1 h.2

end

/-- The state that a successful time-code command answers. -/
def afterTimeCode (c : TimeCode) (s : State) : State := respond (c.commit s).2 (c.commit s).1

section
variable (c : TimeCode) (s : State)

theorem afterTimeCode_responds : Responds (afterTimeCode c s) (wordOf c.bytes) := rfl

theorem afterTimeCode_keeps : KeepsAllBut [.f, .fv, .bcnt, .cur, .rsp] s (afterTimeCode c s) := by
  intro p hp
  cases p
  case f | fv | bcnt | cur | rsp => exact absurd (by decide) hp
  case buf => exact fun _ => rfl
  all_goals exact rfl

theorem afterTimeCode_holdsExactly {c : TimeCode} (h : c.Marked) : HoldsExactly (afterTimeCode c s) c.regs :=
  TimeCode.commit_holdsExactly h

end

/-- What a successful time-code command needs and answers. -/
theorem succeeds_timeCode_iff {i : Instr} (h : isTimeCode i = true) {s t : State} :
    Succeeds i s t ↔ errorOf i s = none ∧ t = afterTimeCode (timeCodeAt i s) s := by
  rw [succeeds_iff, commitOf_timeCode h]
  rfl

/-- A position inside LEN fits the cursor: LEN has 21 bits and CUR 24. -/
theorem State.lt_of_le_validBits {s : State} {p : Nat} (h : p ≤ s.validBits) : p < 2 ^ 24 := by
  have := s.len.isLt
  unfold State.validBits at h
  omega

/-- The cursor after a time code never wraps. -/
theorem timeCodeAt_end_lt {i : Instr} {s : State} (h : isTimeCode i = true) (he : errorOf i s = none) :
    s.cur.toNat + 8 * (timeCodeAt i s).bytes < 2 ^ 24 := by
  rcases ((errorOf_timeCode_eq_none h).mp he).1 with rfl | hin
  · exact s.cur.isLt
  · exact State.lt_of_le_validBits hin

section
variable {i : Instr} {s : State} (h : isTimeCode i = true) (he : errorOf i s = none)
include h he

/-- BCNT is the byte count (42_timecode R130). -/
theorem bcnt_timeCodeAt : (afterTimeCode (timeCodeAt i s) s).bcnt.toNat = (timeCodeAt i s).bytes :=
  TimeCode.commit_bcnt_toNat (timeCodeAt_end_lt h he)

/-- The cursor moves over the bytes counted (42_timecode R130). -/
theorem cur_timeCodeAt :
    (afterTimeCode (timeCodeAt i s) s).cur.toNat = s.cur.toNat + 8 * (timeCodeAt i s).bytes :=
  TimeCode.commit_cur_toNat (timeCodeAt_end_lt h he)

end

end Sys2Proof.Machine
end

section
/-! The consumption law (42_timecode R152): a time code is made of fields inside the bits it counts, and of the cursor for the ASCII
variants. -/

namespace Sys2Proof.Machine

/-- The `n` stream bits at the cursor are the same in both states. -/
def SameStream (n : Nat) (s s' : State) : Prop :=
  ∀ k < n, streamBit s' (s'.cur.toNat + k) = streamBit s (s.cur.toNat + k)

section
variable {s s' : State} {b : Nat} (h : SameStream b s s')
include h

theorem SameStream.field {k n : Nat} (hk : k + n ≤ b) :
    streamField s' (s'.cur.toNat + k) n = streamField s (s.cur.toNat + k) n :=
  Finset.sum_congr rfl fun j hj => by
    have := Finset.mem_range.mp hj
    rw [Nat.add_assoc, Nat.add_assoc, h (k + j) (by omega)]

theorem SameStream.first {n : Nat} (hn : n ≤ b) : streamField s' s'.cur.toNat n = streamField s s.cur.toNat n :=
  h.field (k := 0) (by omega)

end

theorem cucCode_congr {lay : CucxLayout} (hl : lay.valid = true) {s s' : State}
    (h : SameStream (8 * (cucCode lay s).bytes) s s') : cucCode lay s' = cucCode lay s := by
  have hsum := CucxLayout.sum_of_valid hl
  by_cases hx : streamField s s.cur.toNat 1 = 1
  · simp only [cucCode, hx, if_true, Nat.add_assoc] at h
    simp (disch := omega) only [cucCode, Nat.add_assoc, h.first, h.field, hx, if_true]
  · simp only [cucCode, hx, if_false] at h
    simp (disch := omega) only [cucCode, Nat.add_assoc, h.first, h.field, hx, if_false]

theorem cdsCode_congr {s s' : State} (h : SameStream (8 * (cdsCode s).bytes) s s') : cdsCode s' = cdsCode s := by
  simp only [cdsCode] at h
  simp (disch := omega) only [cdsCode, Nat.add_assoc, h.first, h.field]

theorem ccsCode_congr {s s' : State} (h : SameStream (8 * (ccsCode s).bytes) s s') : ccsCode s' = ccsCode s := by
  by_cases hc : streamField s (s.cur.toNat + 4) 1 = 0
  · simp only [ccsCode, hc, if_true] at h
    simp (disch := omega) only [ccsCode, Nat.add_assoc, h.first, h.field, hc, if_true]
  · simp only [ccsCode, hc, if_false] at h
    simp (disch := omega) only [ccsCode, Nat.add_assoc, h.first, h.field, hc, if_false]

/-- The ASCII variants report the cursor as well (42_timecode R152). -/
theorem asciiCode_congr {fixed : Nat} {dec : BitVec 16} {term : Bool} {s s' : State} (hc : s'.cur = s.cur)
    (h : SameStream (8 * (asciiCode fixed dec term s).bytes) s s') :
    asciiCode fixed dec term s' = asciiCode fixed dec term s := by
  cases term
  · simp only [asciiCode, hc, Bool.false_eq_true, if_false]
  · simp only [asciiCode, Bool.toNat_true] at h
    simp (disch := omega) only [asciiCode, h.field]
    rw [hc]

section
variable {i : Instr} {s s' : State} (h : SameStream (8 * (timeCodeAt i s).bytes) s s')
include h

theorem timeCodeAt_congr (hp : s'.cur = s.cur ∨ ∀ d b, i ≠ .tcdecAsca d b ∧ i ≠ .tcdecAscb d b) :
    timeCodeAt i s' = timeCodeAt i s := by
  cases i
  case tcdecCuc => exact cucCode_congr rfl h
  case tcdecCds => exact cdsCode_congr h
  case tcdecCcs => exact ccsCode_congr h
  case tcdecAsca d b => exact asciiCode_congr (hp.resolve_right fun hn => (hn d b).1 rfl) h
  case tcdecAscb d b => exact asciiCode_congr (hp.resolve_right fun hn => (hn d b).2 rfl) h
  all_goals rfl

/-- FV and the byte count do not depend on the cursor. -/
theorem timeCodeAt_congr_fv_bytes :
    (timeCodeAt i s').fv = (timeCodeAt i s).fv ∧ (timeCodeAt i s').bytes = (timeCodeAt i s).bytes := by
  cases i
  case tcdecAsca | tcdecAscb => exact ⟨rfl, rfl⟩
  all_goals
    rw [timeCodeAt_congr h (.inr (by simp))]
    exact ⟨rfl, rfl⟩

/-- The command succeeds wherever the bits it consumes are the same and inside LEN. -/
theorem errorOf_timeCode_congr (hi : isTimeCode i = true) (he : errorOf i s = none)
    (hin : s'.cur.toNat + 8 * (timeCodeAt i s).bytes ≤ s'.validBits) : errorOf i s' = none := by
  refine (errorOf_timeCode_eq_none hi).mpr ⟨.inr ((timeCodeAt_congr_fv_bytes h).2 ▸ hin), ?_⟩
  rintro rfl
  rw [h.field (k := 6) (by simp only [timeCodeAt, cdsCode]; omega)]
  exact ((errorOf_timeCode_eq_none hi).mp he).2 rfl

end

end Sys2Proof.Machine
end

section
/-! The obligations of 42_timecode: what each TCDEC reports, the extension byte under every layout, the consumption law, and which
registers hold values afterwards. -/

namespace Sys2Proof.Machine

/-! ### The control words of the ASCII variants (30_encoding R71) -/

/-- Format T is or-ed together field by field. -/
theorem or_append_encodeT (op op' : BitVec 8) (var var' : BitVec 3) (dec dec' : BitVec 16) (b b' : Bool) :
    (op ++ encodeT var dec b) ||| (op' ++ encodeT var' dec' b') =
      (op ||| op') ++ encodeT (var ||| var') (dec ||| dec') (b || b') := by
  have hhigh : (dec ++ 0#4 ++ BitVec.ofBool b) ||| (dec' ++ 0#4 ++ BitVec.ofBool b') =
      (dec ||| dec') ++ 0#4 ++ BitVec.ofBool (b || b') := by
    refine BitVec.or_append.trans ?_
    rw [BitVec.or_append]
    cases b <;> cases b' <;> rfl
  exact BitVec.or_append.trans (congrArg _ (BitVec.or_append.trans (congrArg (· ++ (var ||| var')) hhigh)))

/-- The decimal count alone in its place. -/
theorem shiftLeft_eq_encodeT (dec : BitVec 16) : dec.setWidth 32 <<< 8 = 0#8 ++ encodeT 0 dec false := by
  have := dec.isLt
  refine BitVec.eq_of_toNat_eq ?_
  rw [BitVec.toNat_shiftLeft, BitVec.toNat_setWidth, Nat.shiftLeft_eq, encodeT, toNat_append_eq_add,
    toNat_append_eq_add, toNat_append_eq_add, toNat_append_eq_add]
  simp only [BitVec.toNat_ofNat, BitVec.ofBool_false, BitVec.ofNat_eq_ofNat]
  omega

/-- `dec` and `term` or-ed into the word of a variant give its control word. -/
theorem or_operands_eq_encodeT (op : BitVec 8) (var : BitVec 3) (dec : BitVec 16) (term : Bool) :
    (op ++ encodeT var 0 false) ||| dec.setWidth 32 <<< 8 ||| (BitVec.ofBool term).setWidth 32 <<< 3 =
      op ++ encodeT var dec term := by
  have hterm : (BitVec.ofBool term).setWidth 32 <<< 3 = 0#8 ++ encodeT 0 0 term := by cases term <;> rfl
  rw [shiftLeft_eq_encodeT, hterm, or_append_encodeT, or_append_encodeT]
  simp

/-! ### What each TCDEC reports -/

/-- A time-code command that reports no error answers its time code and keeps everything else. -/
theorem timeCode_answers {i : Instr} {s : State} (h : isTimeCode i = true) (he : errorOf i s = none) :
    ∃ t, exec i s = .next t ∧ Responds t (wordOf (timeCodeAt i s).bytes) ∧ HoldsExactly t (timeCodeAt i s).regs ∧
      t.fv = (timeCodeAt i s).fv ∧ t.bcnt.toNat = (timeCodeAt i s).bytes ∧
      t.cur.toNat = s.cur.toNat + 8 * (timeCodeAt i s).bytes ∧ KeepsAllBut [.f, .fv, .bcnt, .cur, .rsp] s t :=
  ⟨afterTimeCode (timeCodeAt i s) s, ((succeeds_timeCode_iff h).mpr ⟨he, rfl⟩).1, afterTimeCode_responds _ s,
    afterTimeCode_holdsExactly s (timeCodeAt_marked i s), rfl, bcnt_timeCodeAt h he, cur_timeCodeAt h he,
    afterTimeCode_keeps _ s⟩

/-- TCDEC.CCS has one test: the bytes of its branch and resolution are there (42_timecode R143). -/
theorem errorOf_tcdecCcs (s : State) : errorOf .tcdecCcs s = truncatedBelow (8 * (ccsCode s).bytes) s :=
  congrArg (fun n => truncatedBelow (8 * n) s) (ccsBytes_eq s)

/-- Settles O33: the empty time code, at an unchanged cursor. -/
theorem tcdecNoneReadsNothing : Obligations.TcdecNoneReadsNothing := by
  refine ⟨fun _ => decode_eq_ok_iff.mpr ⟨rfl, rfl, nofun⟩, fun s => ?_⟩
  obtain ⟨t, hx, hr, hh, hf, hb, hc, hk⟩ := timeCode_answers (i := .tcdecNone) (s := s) rfl rfl
  refine ⟨t, hx, hr, hh, hf, BitVec.eq_of_toNat_eq hb, fun p hp => ?_⟩
  by_cases hcur : p = .cur
  · subst hcur
    exact BitVec.eq_of_toNat_eq hc
  · exact hk p (by simpa [hcur] using hp)

/-- F8 holds the basic unit (42_timecode R134). -/
theorem cucCode_lookup_eight (lay : CucxLayout) (s : State) : (cucCode lay s).regs.lookup 8 =
    some (streamField s (s.cur.toNat + 8 + 8 * streamField s s.cur.toNat 1) (8 * (streamField s (s.cur.toNat + 4) 2 + 1 +
      if streamField s s.cur.toNat 1 = 1 then streamField s (s.cur.toNat + 8 + lay.ext) lay.basic else 0))) := by
  by_cases hx : streamField s s.cur.toNat 1 = 1
  · simp only [cucCode, hx, if_true]
    rfl
  · simp only [cucCode, hx, if_false]
    rfl

/-- Settles O35: the decode under any layout, and F8 looked up in its registers. -/
theorem cucWidthsUnderEveryLayout : Obligations.CucWidthsUnderEveryLayout := by
  intro lay s hlay
  have hd := decodeCuc_cucCode hlay s
  refine ⟨fun h => hd.trans (if_pos h), fun h => ⟨((cucCode lay s).commit s).1, hd.trans (if_neg (not_lt.mpr h)),
    TimeCode.commit_bcnt_toNat (State.lt_of_le_validBits h), TimeCode.commit_cur_toNat (State.lt_of_le_validBits h), rfl,
    (TimeCode.commit_holdsExactly (cucCode_marked lay s) 8).trans ?_⟩⟩
  rw [cucCode_lookup_eight]
  rfl

/-- Settles O36: the three tests in order, and the CDS time code. -/
theorem tcdecCdsDecodes : Obligations.TcdecCdsDecodes := by
  refine ⟨fun _ => decode_eq_ok_iff.mpr ⟨rfl, rfl, nofun⟩, fun s => ⟨fun h => aborts_iff.mpr (if_pos h),
    fun h hs => aborts_iff.mpr ?_, fun h hs hl => aborts_iff.mpr ?_, fun hs h =>
    timeCode_answers rfl ((errorOf_timeCode_eq_none rfl).mpr ⟨.inr h, fun _ => hs⟩)⟩⟩
  · rw [streamField_eq] at hs
    exact (if_neg (not_lt.mpr h)).trans (if_pos hs)
  · rw [streamField_eq] at hs
    refine (if_neg (not_lt.mpr h)).trans ((if_neg hs).trans ?_)
    rw [cdsBytes_eq]
    exact if_pos hl

/-- Settles O37: the one test, and the CCS time code. -/
theorem tcdecCcsDecodes : Obligations.TcdecCcsDecodes :=
  ⟨fun _ => decode_eq_ok_iff.mpr ⟨rfl, rfl, nofun⟩, fun s =>
    ⟨fun h => aborts_iff.mpr ((errorOf_tcdecCcs s).trans (if_pos h)), fun h =>
      timeCode_answers rfl ((errorOf_timeCode_eq_none rfl).mpr ⟨.inr h, nofun⟩)⟩⟩

/-- Settles O39: the one test, and the ASCII time code with a fixed part of 20 bytes. -/
theorem tcdecAscaMeasures : Obligations.TcdecAscaMeasures := fun dec term _ =>
  ⟨fun _ => decode_eq_ok_iff.mpr ⟨rfl, (or_operands_eq_encodeT 0x20 4 dec term).symm, nofun⟩,
    fun h => aborts_iff.mpr (if_pos h), fun h =>
    timeCode_answers rfl ((errorOf_timeCode_eq_none rfl).mpr ⟨.inr h, nofun⟩)⟩

/-- Settles O40: as O39 with a fixed part of 18 bytes. -/
theorem tcdecAscbMeasures : Obligations.TcdecAscbMeasures := fun dec term _ =>
  ⟨fun _ => decode_eq_ok_iff.mpr ⟨rfl, (or_operands_eq_encodeT 0x20 5 dec term).symm, nofun⟩,
    fun h => aborts_iff.mpr (if_pos h), fun h =>
    timeCode_answers rfl ((errorOf_timeCode_eq_none rfl).mpr ⟨.inr h, nofun⟩)⟩

/-! ### Which registers hold values -/

theorem getf_aborts {t : State} {k : BitVec 4} (h : fvValid t.fv k = false) : Aborts (.getf k) t .operand :=
  aborts_iff.mpr (if_neg (by simp [h]))

theorem getf_responds {t : State} {k : BitVec 4} {v : Word} (h : t.result k = some v) :
    exec (.getf k) t = .next (respond v t) := by
  obtain ⟨hv, rfl⟩ := Option.ite_some_none_eq_some.mp h
  exact exec_of_errorOf_none (if_pos hv)

theorem afterCcs_result_two (s : State) :
    (afterTimeCode (ccsCode s) s).result 2 = some (wordOf (streamField s (s.cur.toNat + 4) 1)) :=
  afterTimeCode_holdsExactly s (ccsCode_marked s) 2

theorem afterCcs_result_three (s : State) :
    (afterTimeCode (ccsCode s) s).result 3 = some (wordOf (streamField s (s.cur.toNat + 5) 3)) :=
  afterTimeCode_holdsExactly s (ccsCode_marked s) 3

/-- The mask of the branch of month and day of month (42_timecode R143). -/
theorem ccsCode_valid_month {s : State} (h : streamField s (s.cur.toNat + 4) 1 = 0) :
    fvValid (ccsCode s).fv 9 = true ∧ fvValid (ccsCode s).fv 10 = true ∧ fvValid (ccsCode s).fv 11 = false := by
  simp only [ccsCode, h, if_true]
  split <;> decide

/-- The mask of the branch of day of year (42_timecode R143). -/
theorem ccsCode_valid_dayOfYear {s : State} (h : streamField s (s.cur.toNat + 4) 1 ≠ 0) :
    fvValid (ccsCode s).fv 9 = false ∧ fvValid (ccsCode s).fv 10 = false ∧ fvValid (ccsCode s).fv 11 = true := by
  simp only [ccsCode, h, if_false]
  split <;> decide

/-- Small numbers are known from the registers that hold them. -/
theorem eq_of_result_eq {x y n : Nat} (hx : x < 2 ^ n) (hy : y < 2 ^ n) (hn : n ≤ 128)
    (h : some (wordOf x) = some (wordOf y)) : x = y := by
  have := congrArg BitVec.toNat (Option.some.inj h)
  rwa [wordOf_toNat hx hn, wordOf_toNat hy hn] at this

/-- The calendar branch and the resolution that a successful TCDEC.CCS reports are those of its byte count. -/
theorem bcnt_of_succeeds_ccs {s t : State} (h : Succeeds .tcdecCcs s t) : ∃ cv < 2 ^ 1, ∃ res < 2 ^ 3,
    t.result 2 = some (wordOf cv) ∧ t.result 3 = some (wordOf res) ∧
      t.bcnt.toNat = 6 + res + if cv = 0 then 2 else 1 := by
  obtain ⟨he, rfl⟩ := (succeeds_timeCode_iff rfl).mp h
  exact ⟨_, streamField_lt _ _ _, _, streamField_lt _ _ _, afterCcs_result_two s, afterCcs_result_three s,
    bcnt_timeCodeAt rfl he⟩

/-- Settles O38: the calendar bit decides the mask and the length of the day, and both time codes count their resolution. -/
theorem ccsBranchesAreExclusive : Obligations.CcsBranchesAreExclusive := by
  refine ⟨fun s t h => ?_, fun s t s' t' h h' hres hc hc' => ?_⟩
  · obtain ⟨-, rfl⟩ := (succeeds_timeCode_iff rfl).mp h
    have hr := afterCcs_result_two s
    have hlt := streamField_lt s (s.cur.toNat + 4) 1
    by_cases hc : streamField s (s.cur.toNat + 4) 1 = 0
    · obtain ⟨h9, h10, h11⟩ := ccsCode_valid_month hc
      exact .inl ⟨by rw [hc] at hr; exact hr, h9, h10, h11, getf_aborts h11⟩
    · obtain ⟨h9, h10, h11⟩ := ccsCode_valid_dayOfYear hc
      have hc : streamField s (s.cur.toNat + 4) 1 = 1 := by omega
      exact .inr ⟨by rw [hc] at hr; exact hr, h9, h10, h11, getf_aborts h9, getf_aborts h10⟩
  · obtain ⟨cv, hcv, res, hr, h2, h3, hb⟩ := bcnt_of_succeeds_ccs h
    obtain ⟨cv', hcv', res', hr', h2', h3', hb'⟩ := bcnt_of_succeeds_ccs h'
    obtain rfl : res = res' := eq_of_result_eq hr hr' (by decide) (by rw [← h3, hres, h3'])
    obtain rfl : cv = 0 := eq_of_result_eq hcv (by decide) (by decide) (h2.symm.trans hc)
    obtain rfl : cv' = 1 := eq_of_result_eq hcv' (by decide) (by decide) (h2'.symm.trans hc')
    rw [hb, hb']
    rfl

/-- GETF 6 has nothing to return, but after a CUC time code with an extension byte (10_state R28). -/
theorem timeCodeAt_valid_six {i : Instr} {s : State} (h : i ≠ .tcdecCuc ∨ streamField s s.cur.toNat 1 = 0) :
    fvValid (timeCodeAt i s).fv 6 = false := by
  cases i
  case tcdecCuc =>
    have hx := h.resolve_left (not_not_intro rfl)
    simp only [timeCodeAt, cucCode, hx]
    decide
  case tcdecCds =>
    simp only [timeCodeAt, cdsCode]
    split <;> decide
  case tcdecCcs =>
    simp only [timeCodeAt, ccsCode]
    split <;> split <;> decide
  case tcdecAsca | tcdecAscb =>
    simp only [timeCodeAt, asciiCode]
    split <;> decide
  all_goals exact (by decide : fvValid 0 6 = false)

/-- F6 of an extended CUC time code is the additional fractional octets (42_timecode R134). -/
theorem afterCuc_result_six {s : State} (h : streamField s s.cur.toNat 1 = 1) :
    (afterTimeCode (cucCode Config.cucxLayout s) s).result 6 = some (wordOf (streamField s (s.cur.toNat + 11) 3)) := by
  rw [afterTimeCode_holdsExactly s (cucCode_marked _ s) 6]
  simp only [cucCode, h, if_true]
  rfl

/-- Settles O43: the mask without bit 6, and F6 of an extended CUC time code. -/
theorem timeCodeReplacesDataLength : Obligations.TimeCodeReplacesDataLength := by
  intro i s t hi h
  obtain ⟨-, rfl⟩ := (succeeds_timeCode_iff hi).mp h
  refine ⟨fun h6 => getf_aborts (timeCodeAt_valid_six h6), ?_⟩
  rintro rfl hx
  exact ⟨_, getf_responds (afterCuc_result_six hx), rfl⟩

/-! ### Decimal counts -/

/-- Two time-code commands that succeed on one state have byte counts that differ as their time codes do. -/
theorem bcnt_of_succeeds_both {i j : Instr} (hi : isTimeCode i = true) (hj : isTimeCode j = true) {s t : State} {d : Nat}
    (h : Succeeds i s t) (hje : errorOf j s = none) (hb : (timeCodeAt i s).bytes = (timeCodeAt j s).bytes + d) :
    ∃ u, Succeeds j s u ∧ t.bcnt.toNat = u.bcnt.toNat + d := by
  obtain ⟨he, rfl⟩ := (succeeds_timeCode_iff hi).mp h
  refine ⟨_, (succeeds_timeCode_iff hj).mpr ⟨hje, rfl⟩, ?_⟩
  rw [bcnt_timeCodeAt hi he, bcnt_timeCodeAt hj hje, hb]

/-- A smaller decimal count needs fewer bytes (42_timecode R147). -/
theorem truncatedBelow_of_le {s : State} {n n' : Nat} (h : n' ≤ n) (hn : truncatedBelow n s = none) :
    truncatedBelow n' s = none := by
  rw [truncatedBelow_eq_none] at hn ⊢
  omega

/-- Settles O41: the decimals are counted in the bytes of both variants. -/
theorem decimalCountMovesTheBoundary : Obligations.DecimalCountMovesTheBoundary := by
  intro dec dec' term s t t' hle
  have hbytes (fixed : Nat) : (asciiCode fixed dec term s).bytes =
      (asciiCode fixed dec' term s).bytes + (dec.toNat - dec'.toNat) := by
    simp only [asciiCode]
    omega
  exact ⟨fun h => bcnt_of_succeeds_both rfl rfl h (truncatedBelow_of_le (by omega) (succeeds_iff.mp h).1) (hbytes 20),
    fun h => bcnt_of_succeeds_both rfl rfl h (truncatedBelow_of_le (by omega) (succeeds_iff.mp h).1) (hbytes 18)⟩

/-! ### The consumption law -/

/-- Settles O42: the time code at the cursor, which is the same wherever the bits it counts are. -/
theorem timeCodeDependsOnConsumedBitsOnly : Obligations.TimeCodeDependsOnConsumedBitsOnly := by
  intro i s t hi hs
  obtain ⟨he, rfl⟩ := (succeeds_timeCode_iff hi).mp hs
  have hb := bcnt_timeCodeAt hi he
  rw [hb, zext_eq_wordOf, hb]
  refine ⟨cur_timeCodeAt hi he, rfl, fun s' hin h => ?_⟩
  obtain ⟨hfv, hbytes⟩ := timeCodeAt_congr_fv_bytes h
  refine ⟨_, (succeeds_timeCode_iff hi).mpr ⟨errorOf_timeCode_congr h hi he hin, rfl⟩,
    congrArg (BitVec.ofNat 32) hbytes, hfv, fun hp j => ?_⟩
  rw [afterTimeCode_holdsExactly s' (timeCodeAt_marked i s') j, afterTimeCode_holdsExactly s (timeCodeAt_marked i s) j,
    timeCodeAt_congr h hp]

end Sys2Proof.Machine
end

section
/-! The payload commands (43_payload R160 to R163): their words, the length in the integers, and what each needs and answers. -/

namespace Sys2Proof.Machine

/-! ### Frames, one update at a time

An update of one piece of state leaves every other piece the same. -/

section
variable {p : Part} {s t : State}

theorem Part.same_refl (p : Part) (s : State) : p.same s s := by
  cases p
  case buf | f => exact fun _ => rfl
  all_goals rfl

theorem Part.same_respond (h : p ≠ .rsp) (v : Word) : p.same s (respond v t) ↔ p.same s t := by
  cases p
  case rsp => exact absurd rfl h
  all_goals rfl

theorem Part.same_setPlen (h : p ≠ .plen) (x : BitVec 16) : p.same s (t.setPlen x) ↔ p.same s t := by
  cases p
  case plen => exact absurd rfl h
  all_goals rfl

theorem Part.same_setPoff (h : p ≠ .poff) (x : BitVec 24) : p.same s (t.setPoff x) ↔ p.same s t := by
  cases p
  case poff => exact absurd rfl h
  all_goals rfl

theorem Part.same_moveTo (h : p ≠ .cur) (q : Nat) : p.same s (t.moveTo q) ↔ p.same s t := by
  cases p
  case cur => exact absurd rfl h
  all_goals rfl

end

/-- A command that commits nothing changes the response alone. -/
theorem keepsAllBut_respond (v : Word) (s : State) : KeepsAllBut [.rsp] s (respond v s) := fun p hp =>
  (Part.same_respond (mt List.mem_singleton.mpr hp) v).mpr (Part.same_refl p s)

/-! ### The words (30_encoding R71, 43_payload R160, R162) -/

/-- OVHD's variant or-ed below its opcode. -/
theorem encodeControl_ovhd (var : BitVec 3) :
    encodeControl (.ovhd var) = 0x30000000#32 ||| var.setWidth 32 := by
  decide +revert

/-- The short operand of format P is 0, so the control word is the opcode alone. -/
theorem encodeControl_paylen (dl ovh : BitVec 16) (cons : BitVec 32) :
    encodeControl (.paylen dl ovh cons) = 0x31000000#32 :=
  (rfl : 0x31#8 ++ 0#24 = 0x31000000#32)

theorem encodeControl_payext (dl ovh : BitVec 16) (cons : BitVec 32) :
    encodeControl (.payext dl ovh cons) = 0x32000000#32 :=
  (rfl : 0x32#8 ++ 0#24 = 0x32000000#32)

/-- Format P's data operand as the sum of its fields in their places. -/
theorem encodeP_eq_ofNat (dl ovh : BitVec 16) (cons : BitVec 32) :
    encodeP dl ovh cons = BitVec.ofNat 128 (cons.toNat * 2 ^ 32 + ovh.toNat * 2 ^ 16 + dl.toNat) := by
  refine BitVec.eq_of_toNat_eq ?_
  rw [encodeP, toNat_append_eq_add, toNat_append_eq_add, toNat_append_eq_add, BitVec.toNat_ofNat, BitVec.toNat_ofNat]
  omega

/-- Format P rejects every data operand with a bit above 63 (30_encoding R72). -/
theorem formatP_rejects_high {op : Nat} (h : op ∈ [0x31, 0x32]) (c : ControlWord) (v : Word)
    (hop : c.toNat / 2 ^ 24 = op) (hv : 2 ^ 64 ≤ v.toNat) : ∃ e, decode c v = .error e :=
  decode_rejects.mpr (.inr (.inr (.inl ⟨hop ▸ h, by omega⟩)))

/-! ### PAYLEN and PAYEXT -/

/-- The state that a successful PAYLEN answers for the length `n`. -/
def afterPaylen (n : Nat) (s : State) : State := respond (wordOf n) (s.setPlen (BitVec.ofNat 16 n))

/-- The state that a successful PAYEXT answers for the length `n`. -/
def afterPayext (n : Nat) (s : State) : State :=
  respond (wordOf n) (((s.setPoff s.cur).setPlen (BitVec.ofNat 16 n)).moveTo (s.cur.toNat + 8 * n))

section
variable (n : Nat) (s : State)

theorem afterPaylen_keeps : KeepsAllBut [.plen, .rsp] s (afterPaylen n s) := by
  intro p hp
  simp only [List.mem_cons, List.not_mem_nil, or_false, not_or] at hp
  obtain ⟨hplen, hrsp⟩ := hp
  rw [afterPaylen, Part.same_respond hrsp, Part.same_setPlen hplen]
  exact Part.same_refl p s

theorem afterPayext_keeps : KeepsAllBut [.poff, .plen, .cur, .rsp] s (afterPayext n s) := by
  intro p hp
  simp only [List.mem_cons, List.not_mem_nil, or_false, not_or] at hp
  obtain ⟨hpoff, hplen, hcur, hrsp⟩ := hp
  rw [afterPayext, Part.same_respond hrsp, Part.same_moveTo hcur, Part.same_setPlen hplen, Part.same_setPoff hpoff]
  exact Part.same_refl p s

end

section
variable {dl ovh : BitVec 16} {cons : BitVec 32} {s t : State} {n : Nat}

/-- A length is at most `dl`, so it fits PLEN (43_payload R162). -/
theorem payloadInt_lt (h : payloadInt dl ovh cons = n) : n < 2 ^ 16 := by
  have := dl.isLt
  unfold payloadInt at h
  omega

theorem afterPaylen_plen_toNat (h : n < 2 ^ 16) : (afterPaylen n s).plen.toNat = n := Nat.mod_eq_of_lt h

theorem afterPayext_plen_toNat (h : n < 2 ^ 16) : (afterPayext n s).plen.toNat = n := Nat.mod_eq_of_lt h

theorem afterPaylen_responds (h : n < 2 ^ 16) : Responds (afterPaylen n s) (zext (afterPaylen n s).plen) := by
  rw [zext_eq_wordOf, afterPaylen_plen_toNat h]
  rfl

theorem afterPayext_responds (h : n < 2 ^ 16) : Responds (afterPayext n s) (zext (afterPayext n s).plen) :=
  afterPaylen_responds (s := s) h

/-- The slice ends at most at `8*LEN`, so the cursor never wraps. -/
theorem afterPayext_cur_toNat (h : s.cur.toNat + 8 * n ≤ s.validBits) :
    (afterPayext n s).cur.toNat = s.cur.toNat + 8 * n := Nat.mod_eq_of_lt (State.lt_of_le_validBits h)

theorem errorOf_paylen_eq_corrupt :
    errorOf (.paylen dl ovh cons) s = some .corruptPacket ↔ payloadInt dl ovh cons < 0 := by
  simp [errorOf]

/-- The other test of PAYEXT reports another error. -/
theorem errorOf_payext_eq_corrupt :
    errorOf (.payext dl ovh cons) s = some .corruptPacket ↔ payloadInt dl ovh cons < 0 := by
  simp [errorOf, truncatedBelow]

theorem errorOf_payext_truncated (h : payloadInt dl ovh cons = n) (ht : s.validBits < s.cur.toNat + 8 * n) :
    errorOf (.payext dl ovh cons) s = some .truncatedInput := by
  rw [errorOf, h, if_neg (Int.natCast_nonneg n).not_gt, Int.toNat_natCast]
  exact if_pos ht

/-- What a successful PAYLEN needs and answers. -/
theorem succeeds_paylen_iff :
    Succeeds (.paylen dl ovh cons) s t ↔ ∃ n : Nat, payloadInt dl ovh cons = n ∧ t = afterPaylen n s := by
  rw [succeeds_iff, errorOf, test_eq_none, not_lt]
  constructor
  · rintro ⟨⟨h, -⟩, rfl⟩
    exact ⟨_, (Int.toNat_of_nonneg h).symm, rfl⟩
  · rintro ⟨n, h, rfl⟩
    exact ⟨⟨by omega, rfl⟩, by rw [commitOf, h]; rfl⟩

/-- What a successful PAYEXT needs and answers. -/
theorem succeeds_payext_iff : Succeeds (.payext dl ovh cons) s t ↔
    ∃ n : Nat, payloadInt dl ovh cons = n ∧ s.cur.toNat + 8 * n ≤ s.validBits ∧ t = afterPayext n s := by
  rw [succeeds_iff, errorOf, test_eq_none, truncatedBelow_eq_none, not_lt]
  constructor
  · rintro ⟨⟨h, hin⟩, rfl⟩
    exact ⟨_, (Int.toNat_of_nonneg h).symm, hin, rfl⟩
  · rintro ⟨n, h, hin, rfl⟩
    exact ⟨⟨by omega, by rwa [h]⟩, by rw [commitOf, h]; rfl⟩

end

/-- A command that reports the same error and commits the same on another buffer answers the same on it. -/
theorem exec_setBuf {i : Instr} {s t : State} {m : List Host.Cell} (he : errorOf i (s.setBuf m) = errorOf i s)
    (hc : commitOf i (s.setBuf m) = ((commitOf i s).1.setBuf m, (commitOf i s).2)) (h : exec i s = .next t) :
    exec i (s.setBuf m) = .next (t.setBuf m) := by
  rw [exec_eq_settle, he, hc]
  rcases exec_cases h with ⟨e, hx, rfl⟩ | ⟨hx, rfl⟩ <;> rw [hx] <;> rfl

end Sys2Proof.Machine
end

section
/-! The obligations of 43_payload: OVHD, PAYLEN, PAYEXT, and the laws between the last two. -/

namespace Sys2Proof.Machine

/-- Settles O44: the words, the variants without a constant, and the table. -/
theorem ovhdReturnsConstant : Obligations.OvhdReturnsConstant := by
  refine ⟨rejectsOperandFrom_of_illegal fun a _ ha => .inr (.inr (.inr (.inr (.inl ⟨rfl, by omega⟩)))), fun var s =>
    ⟨fun h v => decode_eq_ok_iff.mpr ⟨decide_eq_true h, encodeControl_ovhd var, nofun⟩,
      fun h => aborts_iff.mpr (if_neg (not_lt.mpr h)), fun h =>
      ⟨_, exec_of_errorOf_none (if_pos h), ?_, keepsAllBut_respond _ s⟩⟩⟩
  have htable : (overhead var).getD 0 = wordOf ([0, 3, 7, 8, 20, 18].getD var.toNat 0) := by decide +revert
  rw [← htable]
  rfl

/-- Settles O45: the words, and the length, which is a natural number when the difference is not negative. -/
theorem paylenComputesLength : Obligations.PaylenComputesLength := by
  refine ⟨rejectsOperand_of_zeroOperand (by decide), formatP_rejects_high (by decide), fun dl ovh cons s =>
    ⟨decode_eq_ok_iff.mpr ⟨rfl, encodeControl_paylen dl ovh cons, fun _ => encodeP_eq_ofNat dl ovh cons⟩,
      fun h => aborts_iff.mpr (errorOf_paylen_eq_corrupt.mpr h), fun h => ?_⟩⟩
  obtain ⟨n, hn⟩ := Int.eq_ofNat_of_zero_le h
  have hlt := payloadInt_lt hn
  exact ⟨afterPaylen n s, (succeeds_paylen_iff.mpr ⟨n, hn, rfl⟩).1,
    (congrArg Int.ofNat (afterPaylen_plen_toNat hlt)).trans hn.symm, afterPaylen_responds hlt, afterPaylen_keeps n s⟩

/-- Settles O46: the words, the two tests in order, and the slice between the old cursor and the new. -/
theorem payextMarksSlice : Obligations.PayextMarksSlice := by
  refine ⟨rejectsOperand_of_zeroOperand (by decide), formatP_rejects_high (by decide), fun dl ovh cons s =>
    ⟨decode_eq_ok_iff.mpr ⟨rfl, encodeControl_payext dl ovh cons, fun _ => encodeP_eq_ofNat dl ovh cons⟩,
      fun h => aborts_iff.mpr (errorOf_payext_eq_corrupt.mpr h), fun h ht => ?_, fun h hin => ?_⟩⟩
  · obtain ⟨n, hn⟩ := Int.eq_ofNat_of_zero_le h
    have hpast : 8 * s.len.toNat < s.cur.toNat + 8 * n := by omega
    exact aborts_iff.mpr (errorOf_payext_truncated hn hpast)
  · obtain ⟨n, hn⟩ := Int.eq_ofNat_of_zero_le h
    have hinside : s.cur.toNat + 8 * n ≤ 8 * s.len.toNat := by omega
    have hlt := payloadInt_lt hn
    refine ⟨afterPayext n s, (succeeds_payext_iff.mpr ⟨n, hn, hinside, rfl⟩).1, rfl,
      (congrArg Int.ofNat (afterPayext_plen_toNat hlt)).trans hn.symm, ?_, afterPayext_responds hlt, afterPayext_keeps n s⟩
    rw [afterPayext_cur_toNat hinside]
    omega

/-- The length falls by as much as `cons` rises (43_payload R165 b). -/
theorem plen_of_cons_add {dl ovh : BitVec 16} {cons cons' : BitVec 32} {d : Nat} {s t u : State}
    (hd : cons'.toNat = cons.toNat + d) (ht : Succeeds (.paylen dl ovh cons) s t)
    (hu : Succeeds (.paylen dl ovh cons') s u) : t.plen.toNat = u.plen.toNat + d := by
  obtain ⟨n, hn, rfl⟩ := succeeds_paylen_iff.mp ht
  obtain ⟨n', hn', rfl⟩ := succeeds_paylen_iff.mp hu
  rw [afterPaylen_plen_toNat (payloadInt_lt hn), afterPaylen_plen_toNat (payloadInt_lt hn')]
  unfold payloadInt at hn hn'
  omega

/-- A slice starts at the old cursor, ends at the new one, and lies inside the valid bytes (43_payload R165 c). -/
theorem payext_slice_inside {dl ovh : BitVec 16} {cons : BitVec 32} {s t : State}
    (h : Succeeds (.payext dl ovh cons) s t) :
    t.cur.toNat = t.poff.toNat + 8 * t.plen.toNat ∧ t.cur.toNat ≤ 8 * t.len.toNat := by
  obtain ⟨n, hn, hin, rfl⟩ := succeeds_payext_iff.mp h
  rw [afterPayext_cur_toNat hin, afterPayext_plen_toNat (payloadInt_lt hn)]
  exact ⟨rfl, hin⟩

/-- Settles O47: both commands take the same length from their operands, and neither looks at BUF. -/
theorem payloadLaws : Obligations.PayloadLaws := by
  refine fun dl ovh cons s => ⟨?_, fun t u ht hu => ?_, fun _ _ _ _ => plen_of_cons_add, fun _ => payext_slice_inside,
    fun _ _ => exec_setBuf rfl rfl, fun _ _ => exec_setBuf rfl rfl⟩
  · rw [aborts_iff, aborts_iff, errorOf_paylen_eq_corrupt, errorOf_payext_eq_corrupt]
  · obtain ⟨n, hn, rfl⟩ := succeeds_paylen_iff.mp ht
    obtain ⟨n', hn', -, rfl⟩ := succeeds_payext_iff.mp hu
    obtain rfl : n = n' := Int.natCast_inj.mp (hn.symm.trans hn')
    exact ⟨rfl, rfl⟩

end Sys2Proof.Machine
end

section
/-! Host access (44_host_access R170 to R180): the control words of the selector formats, the special registers, and what each
command leaves unchanged. -/

namespace Sys2Proof.Machine

/-! ### The words (30_encoding R71, R72) -/

/-- Format S has its selector in the low four bits, so a legal control word is the opcode with the selector or-ed below it. -/
theorem or_selector_eq_append (op : BitVec 8) (k : BitVec 4) :
    op.setWidth 32 <<< 24 ||| k.setWidth 32 = op ++ (0#20 ++ k) := by
  have hpad : k.setWidth 24 = 0#20 ++ k := by decide +revert
  rw [or_setWidth_eq_append op k (by decide), hpad]

theorem encodeControl_getf (i : BitVec 4) : encodeControl (.getf i) = 0x44000000#32 ||| i.setWidth 32 :=
  (or_selector_eq_append 0x44 i).symm

theorem encodeControl_setf (i : BitVec 4) (v : Word) :
    encodeControl (.setf i v) = 0x45000000#32 ||| i.setWidth 32 := (or_selector_eq_append 0x45 i).symm

theorem encodeControl_gets (sel : BitVec 4) : encodeControl (.gets sel) = 0x46000000#32 ||| sel.setWidth 32 :=
  (or_selector_eq_append 0x46 sel).symm

/-- The opcodes of format S reject every short operand above four bits. -/
theorem rejectsOperandFrom_of_selector {op : Nat} (h : op ∈ [0x44, 0x45, 0x46]) : RejectsOperandFrom op 16 :=
  rejectsOperandFrom_of_illegal fun _ _ ha => .inr (.inr (.inr (.inr (.inr (.inl ⟨h, by omega⟩)))))

/-- GETS rejects the selectors 9 to 15 too (30_encoding R77 e). -/
theorem rejectsOperandFrom_gets : RejectsOperandFrom 0x46 9 := by
  refine rejectsOperandFrom_of_illegal fun a v ha => ?_
  by_cases h : a < 16
  · exact .inr (.inr (.inr (.inr (.inr (.inr ⟨rfl, by omega⟩)))))
  · exact .inr (.inr (.inr (.inr (.inr (.inl ⟨by decide, by omega⟩)))))

/-! ### The values that BUFRD and GETS respond -/

/-- The special registers as numbers, in the order of their selectors (10_state R29, 30_encoding R80). -/
def specialNats (s : State) : List Nat :=
  [s.erracc.toNat, s.cur.toNat, s.len.toNat, s.bcnt.toNat, s.plen.toNat, s.poff.toNat, s.rval.toNat, s.fv.toNat,
    0x42464301]

/-- GETS looks its selector up in that list. -/
theorem special_eq_getElem? (s : State) (sel : BitVec 4) : special s sel = (specialNats s)[sel.toNat]?.map wordOf := by
  obtain ⟨k, rfl⟩ : ∃ k : Fin 16, sel = BitVec.ofNat 4 k := ⟨⟨sel.toNat, sel.isLt⟩, by simp⟩
  fin_cases k <;> simp [special, specialNats, zext_eq_wordOf, Config.idValue, wordOf]

theorem special_getD (s : State) (sel : BitVec 4) :
    (special s sel).getD 0 = wordOf ((specialNats s).getD sel.toNat 0) := by
  rw [special_eq_getElem?, List.getD_eq_getElem?_getD]
  exact Option.getD_map wordOf 0 _

theorem responds_respond {v w : Word} (h : v = w) (s : State) : Responds (respond v s) w := h ▸ rfl

/-! ### Frames -/

section
variable (v : Word) (s : State)

/-- A growth, then any BUF, LEN and response: what BUFWR and SETLEN leave unchanged. -/
theorem grow_keeps (n : Nat) (m : List Host.Cell) (len : BitVec 21) (r : Option Response) :
    KeepsAllBut [.buf, .len, .rsp] s ((((s.grow n).setBuf m).setLen len).setRsp r) := by
  intro p hp
  cases p
  case buf | len | rsp => exact absurd (by decide) hp
  all_goals simp [Part.same]

theorem storeByte_keeps (idx : Nat) (b : Byte) : KeepsAllBut [.buf, .len, .rsp] s (respond v (s.storeByte idx b)) :=
  grow_keeps s (idx + 1) _ (s.grow (idx + 1)).len _

theorem resize_keeps (n : Nat) : KeepsAllBut [.buf, .len, .rsp] s (respond v (s.resize n)) :=
  grow_keeps s n (s.grow n).buf _ _

theorem moveTo_keeps (q : Nat) : KeepsAllBut [.cur, .rsp] s (respond v (s.moveTo q)) := by
  intro p hp
  cases p
  case cur | rsp => exact absurd (by decide) hp
  all_goals simp [Part.same]

theorem setReg_keeps (f : Vector Word 16) (fv : BitVec 16) :
    KeepsAllBut [.f, .fv, .rsp] s (respond v ((s.setF f).setFv fv)) := by
  intro p hp
  cases p
  case f | fv | rsp => exact absurd (by decide) hp
  all_goals simp [Part.same]

/-- CLRE and every abort write ERRACC and the response. -/
theorem setErracc_keeps (x : BitVec 5) (r : Option Response) :
    KeepsAllBut [.erracc, .rsp] s ((s.setErracc x).setRsp r) := by
  intro p hp
  cases p
  case erracc | rsp => exact absurd (by decide) hp
  all_goals simp [Part.same]

end

/-- The value of a result register comes from F and FV alone. -/
theorem State.result_eq_of_same {s t : State} (hf : Part.f.same s t) (hfv : Part.fv.same s t) (j : BitVec 4) :
    t.result j = s.result j := by
  have hreg : regGet t.f j = regGet s.f j := hf j
  have hvalid : t.fv = s.fv := hfv
  rw [State.result, State.result, hreg, hvalid]

/-- SETF leaves the value of every other register. -/
theorem result_setReg_of_ne {j k : BitVec 4} (h : j ≠ k) (v : Word) (s : State) :
    ((s.setF (regSet s.f k v)).setFv (fvSet s.fv k)).result j = s.result j := by
  rw [State.result, State.setFv_fv, State.setFv_f, State.setF_f, fvValid_fvSet, decide_eq_false h, Bool.false_or,
    regGet_regSet, if_neg h]
  rfl

/-! ### What a host-access command can change (44_host_access R180) -/

/-- The pieces of state that a successful host-access command may change. -/
def hostAccessWrites : Instr → List Part
  | .bufwr _ _ | .setlen _ => [.buf, .len, .rsp]
  | .seek _ => [.cur, .rsp]
  | .setf _ _ => [.f, .fv, .rsp]
  | .clre => [.erracc, .rsp]
  | _ => [.rsp]

theorem commitOf_keeps_of_hostAccess {i : Instr} (h : isHostAccess i = true) (s : State) :
    KeepsAllBut (hostAccessWrites i) s (respond (commitOf i s).2 (commitOf i s).1) := by
  cases i
  case nop | bufrd | getf | gets => exact keepsAllBut_respond _ s
  case bufwr => exact storeByte_keeps _ s _ _
  case setlen => exact resize_keeps _ s _
  case seek => exact moveTo_keeps _ s _
  case setf => exact setReg_keeps _ s _ _
  case clre => exact setErracc_keeps s _ _
  all_goals cases h

section
variable {i : Instr} {s t : State} (hi : isHostAccess i = true) (hx : exec i s = .next t)
include hi hx

/-- An abort changes ERRACC and the response, and a commit what the command writes. -/
theorem same_of_not_mem_hostAccessWrites {p : Part} (hp : p ∉ [.erracc, .rsp]) (hw : p ∉ hostAccessWrites i) :
    p.same s t := by
  rcases exec_cases hx with ⟨e, -, rfl⟩ | ⟨-, rfl⟩
  · exact setErracc_keeps s _ _ p hp
  · exact commitOf_keeps_of_hostAccess hi s p hw

theorem seek_of_cur_changed (h : t.cur ≠ s.cur) : ∃ pos, i = .seek pos := by
  cases i
  case seek pos => exact ⟨pos, rfl⟩
  all_goals exact absurd (same_of_not_mem_hostAccessWrites hi hx (p := .cur) (by decide) nofun) h

theorem setlen_or_bufwr_of_len_changed (h : t.len ≠ s.len) : (∃ n, i = .setlen n) ∨ ∃ idx v, i = .bufwr idx v := by
  cases i
  case setlen n => exact .inl ⟨n, rfl⟩
  case bufwr idx v => exact .inr ⟨idx, v, rfl⟩
  all_goals exact absurd (same_of_not_mem_hostAccessWrites hi hx (p := .len) (by decide) nofun) h

theorem setf_or_keeps_registers : (∃ k v, i = .setf k v) ∨ (Part.f.same s t ∧ Part.fv.same s t) := by
  cases i
  case setf k v => exact .inl ⟨k, v, rfl⟩
  all_goals exact .inr ⟨same_of_not_mem_hostAccessWrites hi hx (by decide) nofun,
    same_of_not_mem_hostAccessWrites hi hx (by decide) nofun⟩

/-- No host-access command writes BCNT, PLEN, POFF or RVAL. -/
theorem same_of_hostAccess {p : Part} (hp : p ∈ [.bcnt, .plen, .poff, .rval]) : p.same s t := by
  have hkept : p ∉ [.erracc, .rsp] ∧ p ∉ hostAccessWrites i := by
    cases p
    case bcnt | plen | poff | rval => exact ⟨by decide, by cases i <;> nofun⟩
    all_goals exact absurd hp (by decide)
  exact same_of_not_mem_hostAccessWrites hi hx hkept.1 hkept.2

theorem fvValid_of_hostAccess {j : BitVec 4} (h : fvValid s.fv j = true) : fvValid t.fv j = true := by
  rcases setf_or_keeps_registers hi hx with ⟨k, v, rfl⟩ | ⟨-, hfv⟩
  · obtain rfl := Host.Outcome.next.inj hx
    exact (fvValid_fvSet s.fv k j).trans (by simp [h])
  · exact (congrArg (fvValid · j) hfv).trans h

theorem setf_of_result_changed {j : BitVec 4} (h : t.result j ≠ s.result j) : ∃ v, i = .setf j v := by
  rcases setf_or_keeps_registers hi hx with ⟨k, v, rfl⟩ | ⟨hf, hfv⟩
  · obtain rfl := Host.Outcome.next.inj hx
    suffices hk : j = k from ⟨v, hk ▸ rfl⟩
    by_contra hne
    exact h (result_setReg_of_ne hne v s)
  · exact absurd (State.result_eq_of_same hf hfv j) h

end

end Sys2Proof.Machine
end

section
/-! The obligations of 44_host_access: NOP, BUFWR, BUFRD, SETLEN, SEEK, GETF, SETF, GETS, CLRE, and what host access cannot do. -/

namespace Sys2Proof.Machine

/-- Settles O48: the all-zero word, and a commit that is the state itself. -/
theorem nopDoesNothing : Obligations.NopDoesNothing :=
  ⟨fun _ => decode_eq_ok_iff.mpr ⟨rfl, rfl, nofun⟩, rejectsOperand_of_zeroOperand (by decide), fun s =>
    ⟨_, exec_of_errorOf_none rfl, rfl, keepsAllBut_respond 0 s⟩⟩

/-- Settles O49: the bytes and LEN are those of the store, and the low byte of a value below 256 is the value. -/
theorem bufwrStoresByte : Obligations.BufwrStoresByte := by
  refine fun idx v s => ⟨decode_or_operand 0x40 idx v, fun h => aborts_iff.mpr (if_pos h), fun hidx hv =>
    ⟨_, exec_of_errorOf_none (if_neg (by omega)), rfl, ?_, s.storeByte_len idx.toNat (v.extractLsb' 0 8) hidx,
      fun a ha => ?_, storeByte_keeps 0 s _ _⟩⟩
  · have hread := (s.read_storeByte idx.toNat (v.extractLsb' 0 8) idx.toNat).trans (if_pos rfl)
    have hlow : (v.extractLsb' 0 8).toNat = v.toNat := (v.extractLsb'_toNat 0 8).trans (Nat.mod_eq_of_lt hv)
    exact (congrArg BitVec.toNat hread).trans hlow
  · exact (s.read_storeByte idx.toNat (v.extractLsb' 0 8) a).trans (if_neg ha)

/-- Settles O50: the one test, and a commit that is the state itself. -/
theorem bufrdReturnsByte : Obligations.BufrdReturnsByte := fun idx s =>
  ⟨decode_or_operand 0x41 idx, fun h => aborts_iff.mpr (if_pos h), fun h =>
    ⟨_, exec_of_errorOf_none (if_neg (not_le.mpr h)),
      responds_respond (zext_eq_wordOf (Memory.read s.buf idx.toNat)) s, keepsAllBut_respond _ s⟩⟩

/-- Settles O51: LEN and the bytes are those of the resize. -/
theorem setlenSetsLength : Obligations.SetlenSetsLength := fun n s =>
  ⟨decode_or_operand 0x42 n, fun h => aborts_iff.mpr (if_pos h), fun h =>
    ⟨_, exec_of_errorOf_none (if_neg (not_lt.mpr h)), rfl, s.resize_len n.toNat (h.trans_lt (by decide)),
      s.read_resize n.toNat, resize_keeps 0 s _⟩⟩

/-- Settles O52: the one test; a position of 24 bits fits CUR. -/
theorem seekPlacesCursor : Obligations.SeekPlacesCursor := fun pos s =>
  ⟨decode_or_operand 0x43 pos, fun h => aborts_iff.mpr (if_pos h), fun h =>
    ⟨_, exec_of_errorOf_none (if_neg (not_lt.mpr h)), rfl, by simp [commitOf], moveTo_keeps 0 s _⟩⟩

/-- Settles O53: the test is the register's valid bit. -/
theorem getfReturnsResult : Obligations.GetfReturnsResult :=
  ⟨rejectsOperandFrom_of_selector (by decide), fun i s =>
    ⟨fun _ => decode_eq_ok_iff.mpr ⟨rfl, encodeControl_getf i, nofun⟩,
      getf_aborts, fun h => ⟨_, exec_of_errorOf_none (if_pos h), rfl, keepsAllBut_respond _ s⟩⟩⟩

/-- Settles O54: F and FV after one register write, at every register. -/
theorem setfWritesResult : Obligations.SetfWritesResult := by
  refine ⟨rejectsOperandFrom_of_selector (by decide), fun i v s =>
    ⟨decode_eq_ok_iff.mpr ⟨rfl, encodeControl_setf i v, fun _ => rfl⟩, _, exec_of_errorOf_none rfl, rfl,
      regGet_regSet s.f i v, fun k hk => ?_, setReg_keeps 0 s _ _⟩⟩
  obtain ⟨j, rfl⟩ : ∃ j : BitVec 4, j.toNat = k := ⟨BitVec.ofNatLT k hk, rfl⟩
  rw [decide_eq_decide.mpr BitVec.toNat_inj]
  exact fvValid_fvSet s.fv i j

/-- Settles O55: the selectors that name no register, and the list of those that do. -/
theorem getsReturnsSpecial : Obligations.GetsReturnsSpecial :=
  ⟨rejectsOperandFrom_gets, fun sel s =>
    ⟨fun h _ => decode_eq_ok_iff.mpr ⟨decide_eq_true h, encodeControl_gets sel, nofun⟩,
      fun h => aborts_iff.mpr (if_neg (not_lt.mpr h)),
      fun h => ⟨_, exec_of_errorOf_none (if_pos h), responds_respond (special_getD s sel) s, keepsAllBut_respond _ s⟩⟩⟩

/-- Settles O56: a short operand that is not 0 is rejected by the decoder, so CLRE's own commit never runs. -/
theorem clreClearsMask : Obligations.ClreClearsMask := by
  have hrejects : RejectsOperandFrom 0x47 1 := rejectsOperand_of_zeroOperand (by decide)
  refine ⟨fun _ => decode_eq_ok_iff.mpr ⟨rfl, rfl, nofun⟩, hrejects, fun s c v later hs hop ha => ?_, fun s =>
    ⟨_, exec_of_errorOf_none rfl, rfl, rfl, setErracc_keeps s 0 _⟩⟩
  obtain ⟨e, hd⟩ := hrejects c v hop (Nat.one_le_iff_ne_zero.mpr ha)
  exact ⟨_, step_of_decode_error hs hd, rfl, rfl⟩

/-- Settles O57: what each command may change does not include the other pieces; SETF sets one valid bit and one register. -/
theorem hostAccessIsLimited : Obligations.HostAccessIsLimited := fun _ _ _ hi hx =>
  ⟨seek_of_cur_changed hi hx, setlen_or_bufwr_of_len_changed hi hx,
    same_of_hostAccess hi hx (p := .bcnt) (by decide), same_of_hostAccess hi hx (p := .plen) (by decide),
    same_of_hostAccess hi hx (p := .poff) (by decide), same_of_hostAccess hi hx (p := .rval) (by decide),
    fun _ => fvValid_of_hostAccess hi hx, fun _ => setf_of_result_changed hi hx⟩

end Sys2Proof.Machine
end

section
/-! Errors and responses (60_exceptions): which errors a command reports, what a presented command answers, and how ERRACC moves. -/

namespace Sys2Proof.Machine

/-! ### The codes of the errors (60_exceptions R191) -/

theorem ErrorKind.code_bounds (e : ErrorKind) : 1 ≤ e.code.toNat ∧ e.code.toNat ≤ 5 := by
  cases e <;> decide

theorem ErrorKind.code_ne_zero (e : ErrorKind) : e.code ≠ 0 := by
  cases e <;> decide

theorem Response.errCode_le_five (r : Response) : r.errCode.toNat ≤ 5 := by
  obtain ⟨_ | e, v⟩ := r
  · exact Nat.zero_le 5
  · exact e.code_bounds.2

theorem Response.errCode_eq_zero_iff (r : Response) : r.errCode = 0 ↔ r.err = none := by
  obtain ⟨_ | e, v⟩ := r
  · exact iff_of_true rfl rfl
  · exact iff_of_false e.code_ne_zero nofun

theorem ErrorKind.getLsbD_mask (e : ErrorKind) (k : Nat) : e.mask.getLsbD k = decide (k + 1 = e.code.toNat) := by
  obtain ⟨hpos, hle⟩ := e.code_bounds
  rw [Bool.eq_iff_iff, ErrorKind.mask, BitVec.getLsbD_shiftLeft, BitVec.getLsbD_one]
  simp only [Bool.and_eq_true, Bool.not_eq_true', decide_eq_true_eq, decide_eq_false_iff_not]
  omega

/-! ### ERRACC and err_any (60_exceptions R197, R198) -/

theorem State.errAny_eq_true_iff (s : State) : s.errAny = true ↔ s.erracc ≠ 0 := bne_iff_ne

/-- An abort keeps the level: no bit of ERRACC falls. -/
theorem State.errAny_raise {s : State} (h : s.errAny = true) (e : ErrorKind) : (raise e s).errAny = true := by
  rw [State.errAny_eq_true_iff] at h ⊢
  exact fun h0 => h (BitVec.or_eq_zero_iff.mp h0).1

theorem commitOf_erracc {i : Instr} (h : i ≠ .clre) (s : State) : (commitOf i s).1.erracc = s.erracc := by
  cases i
  case clre => exact absurd rfl h
  case wrbits | wrbytes | phenc | bufwr | setlen => simp [commitOf, writeCommit]
  all_goals rfl

theorem commitOf_inputs (i : Instr) (s : State) : (commitOf i s).1.inputs = s.inputs := by
  cases i
  case wrbits | wrbytes | phenc | bufwr | setlen => simp [commitOf, writeCommit]
  all_goals rfl

/-! ### The errors a command reports (60_exceptions R193, R194)

A property of every error that a list of tests can report, test by test. -/

section
variable {P : ErrorKind → Prop} {p : Prop} [Decidable p] {e : ErrorKind} {rest : Option ErrorKind} {n v : Nat} {s : State}

theorem forall_mem_test (he : P e) (hrest : ∀ x ∈ rest, P x) : ∀ x ∈ (if p then some e else rest), P x := by
  split
  · exact fun x hx => Option.mem_some.mp hx ▸ he
  · exact hrest

/-- The same for a test written the other way round. -/
theorem forall_mem_test_not (he : P e) : ∀ x ∈ (if p then none else some e), P x := by
  split
  · nofun
  · exact fun x hx => Option.mem_some.mp hx ▸ he

theorem forall_mem_truncatedBelow (he : P .truncatedInput) : ∀ x ∈ truncatedBelow n s, P x :=
  forall_mem_test he nofun

theorem forall_mem_readError (hn : P .encoding) (ht : P .truncatedInput) : ∀ x ∈ readError n s, P x :=
  forall_mem_test hn (forall_mem_test ht nofun)

theorem forall_mem_writeError (ho : P .operand) (hn : P .encoding) (hr : P .range) :
    ∀ x ∈ writeError n v s, P x :=
  forall_mem_test ho (forall_mem_test hn (forall_mem_test hr nofun))

end

/-- Each test of each command has its x in the matrix. -/
theorem errorOf_canRaise (i : Instr) (s : State) : ∀ e ∈ errorOf i s, canRaise i e = true := by
  cases i
  case nop | clre | tcdecNone | setf => nofun
  case rdbits | rdbytes => exact forall_mem_test rfl (forall_mem_readError rfl rfl)
  case wrbits | wrbytes => exact forall_mem_test rfl (forall_mem_writeError rfl rfl rfl)
  case phenc => exact forall_mem_test rfl (forall_mem_test rfl (forall_mem_test rfl nofun))
  case phdec | tcdecCuc | tcdecCcs | tcdecAsca | tcdecAscb => exact forall_mem_truncatedBelow rfl
  case tcdecCds => exact forall_mem_test rfl (forall_mem_test rfl (forall_mem_truncatedBelow rfl))
  case paylen => exact forall_mem_test rfl nofun
  case payext => exact forall_mem_test rfl (forall_mem_truncatedBelow rfl)
  case bufwr | bufrd | setlen | seek => exact forall_mem_test rfl nofun
  case ovhd | getf | gets => exact forall_mem_test_not rfl

/-- No time-code command has a test of its operands. -/
theorem errorOf_timeCode_ne_operand {i : Instr} (h : isTimeCode i = true) (s : State) : ∀ e ∈ errorOf i s, e ≠ .operand := by
  cases i
  case tcdecNone => nofun
  case tcdecCuc | tcdecCcs | tcdecAsca | tcdecAscb => exact forall_mem_truncatedBelow nofun
  case tcdecCds => exact forall_mem_test nofun (forall_mem_test nofun (forall_mem_truncatedBelow nofun))
  all_goals cases h

/-- Only a time-code command has a test that reads BUF. -/
theorem errorOf_setBuf {i : Instr} (h : isTimeCode i = false) (s : State) (m : List Host.Cell) :
    errorOf i (s.setBuf m) = errorOf i s := by
  cases i
  case tcdecNone | tcdecCuc | tcdecCds | tcdecCcs | tcdecAsca | tcdecAscb => cases h
  all_goals rfl

theorem errorOf_setBuf_operand {i : Instr} {s : State} (h : errorOf i s = some .operand) (m : List Host.Cell) :
    errorOf i (s.setBuf m) = some .operand := by
  cases ht : isTimeCode i with
  | true => exact absurd rfl (errorOf_timeCode_ne_operand ht s _ h)
  | false => exact (errorOf_setBuf ht s m).trans h

/-! ### A presented command (60_exceptions R195, R196) -/

/-- The error a presented pair reports: OperandError when it is illegal (30_encoding R77), else its instruction's. -/
def pairError (c : ControlWord) (v : Word) (s : State) : Option ErrorKind :=
  match decode c v with
  | .ok i => errorOf i s
  | .error _ => some .operand

theorem step_of_decode_ok {s : State} {c : ControlWord} {v : Word} {later : List HostInput} {i : Instr}
    (hs : s.inputs = .command c v :: later) (hd : decode c v = .ok i) : step s = exec i (s.setInputs later) := by
  unfold step
  rw [hs]
  dsimp only
  rw [hd]

theorem pairError_setBuf_operand {c : ControlWord} {v : Word} {s : State} (h : pairError c v s = some .operand)
    (m : List Host.Cell) : pairError c v (s.setBuf m) = some .operand := by
  unfold pairError at h ⊢
  split at h
  · exact errorOf_setBuf_operand h m
  · rfl

section
variable {s t : State} {c : ControlWord} {v : Word} {later : List HostInput} (hs : s.inputs = .command c v :: later)
include hs

/-- Everything a presented command can answer: the abort, or the commit of the instruction it decodes to. -/
theorem step_command_cases :
    (∃ e, pairError c v (s.setInputs later) = some e ∧ step s = .next (raise e (s.setInputs later))) ∨
      ∃ i, decode c v = .ok i ∧ pairError c v (s.setInputs later) = none ∧
        step s = .next (respond (commitOf i (s.setInputs later)).2 (commitOf i (s.setInputs later)).1) := by
  unfold pairError
  cases hd : decode c v with
  | error => exact .inl ⟨.operand, rfl, step_of_decode_error hs hd⟩
  | ok i =>
    rw [step_of_decode_ok hs hd, exec_eq_settle]
    dsimp only
    cases he : errorOf i (s.setInputs later) with
    | some e => exact .inl ⟨e, rfl, rfl⟩
    | none => exact .inr ⟨i, rfl, rfl, rfl⟩

/-- The response carries an error exactly when the pair reports it. -/
theorem step_command_error_iff (h : step s = .next t) {e : ErrorKind} :
    (∃ w, t.rsp = some { err := some e, val := w }) ↔ pairError c v (s.setInputs later) = some e := by
  rcases step_command_cases hs with ⟨e', he, hx⟩ | ⟨i, -, he, hx⟩
  all_goals obtain rfl := Host.Outcome.next.inj (hx.symm.trans h)
  all_goals simp [he]

/-- A step that responds an error is the abort with that error. -/
theorem eq_raise_of_step_command_error {e : ErrorKind} {w : Word} (h : step s = .next t)
    (hr : t.rsp = some { err := some e, val := w }) : t = raise e (s.setInputs later) := by
  rcases step_command_cases hs with ⟨e', -, hx⟩ | ⟨i, -, -, hx⟩
  all_goals obtain rfl := Host.Outcome.next.inj (hx.symm.trans h)
  · cases hr
    rfl
  · cases hr

end

/-- An abort, with the command taken from the inputs, changes ERRACC and the response. -/
theorem raise_setInputs_keeps (e : ErrorKind) (s : State) (later : List HostInput) :
    KeepsAllBut [.erracc, .rsp, .inputs] s (raise e (s.setInputs later)) := by
  intro p hp
  cases p
  case erracc | rsp | inputs => exact absurd (by decide) hp
  case buf | f => exact fun _ => rfl
  all_goals rfl

theorem idle_keeps (s : State) : KeepsAllBut [.rsp] s (idle s) := by
  intro p hp
  cases p
  case rsp => exact absurd (by decide) hp
  case buf | f => exact fun _ => rfl
  all_goals rfl

/-- Without a presented command there is no response. -/
theorem command_of_rsp {s t : State} {r : Response} (h : step s = .next t) (hr : t.rsp = some r) :
    ∃ c v later, s.inputs = .command c v :: later := by
  rcases step_cases h with ⟨-, rfl⟩ | ⟨later, -, rfl⟩ | ⟨c, v, later, hs, -⟩
  · cases hr
  · cases hr
  · exact ⟨c, v, later, hs⟩

/-- A step that responds OperandError responds it on every buffer. -/
theorem operandError_of_setBuf {s t t' : State} {m : List Host.Cell} (h : step s = .next t)
    (h' : step (s.setBuf m) = .next t') :
    (∃ w, t.rsp = some { err := some .operand, val := w }) → ∃ w, t'.rsp = some { err := some .operand, val := w } := by
  rintro ⟨w, hr⟩
  obtain ⟨c, v, later, hs⟩ := command_of_rsp h hr
  have he := (step_command_error_iff hs h).mp ⟨w, hr⟩
  exact (step_command_error_iff (s := s.setBuf m) hs h').mpr (pairError_setBuf_operand he m)

end Sys2Proof.Machine
end

section
/-! The obligations of 60_exceptions: codes, aborts, ERRACC, the one response, the matrix, OperandError, err_any, the idle block. -/

namespace Sys2Proof.Machine

/-- Settles O10: a step that responds an error is the abort. -/
theorem failingCommandChangesOnlyErracc : Obligations.FailingCommandChangesOnlyErracc := by
  intro s t c v val later e hs h hr
  rw [eq_raise_of_step_command_error hs h hr]
  exact raise_setInputs_keeps e s later

/-- Settles O11: an abort sets the bit of its code, and of the commits only CLRE's writes ERRACC. -/
theorem erraccIsSticky : Obligations.ErraccIsSticky := by
  refine fun i s t h => ⟨fun e v hr k => ?_, fun v hr hi => ?_, ?_⟩
  · obtain ⟨rfl, -⟩ := exec_error h hr
    rw [raise_erracc, erraccAfter, BitVec.getLsbD_or, e.getLsbD_mask]
  · obtain ⟨-, rfl⟩ := succeeds_iff.mp ⟨h, v, hr⟩
    exact commitOf_erracc hi s
  · rintro rfl
    obtain rfl := Host.Outcome.next.inj h
    rfl

/-- Settles O12: the two tables by evaluation, and the code of a response from that of its error. -/
theorem errorCodesAndMaskBits : Obligations.ErrorCodesAndMaskBits :=
  ⟨rfl, rfl, fun r => ⟨r.errCode_le_five, r.errCode_eq_zero_iff⟩⟩

/-- Settles O13: the abort and the commit both respond, and both leave the later inputs. -/
theorem everyCommandGetsOneResponse : Obligations.EveryCommandGetsOneResponse := by
  intro s c v later hs
  rcases step_command_cases hs with ⟨e, -, hx⟩ | ⟨i, -, -, hx⟩
  · exact ⟨_, _, hx, rfl, rfl, Response.errCode_le_five _, fun _ => rfl⟩
  · exact ⟨_, _, hx, rfl, commitOf_inputs i _, Response.errCode_le_five _, fun hne => absurd rfl hne⟩

/-- Settles O14: the error of an abort is the one the command's tests report. -/
theorem errorsStayInsideMatrix : Obligations.ErrorsStayInsideMatrix := by
  intro i s t e v h hr
  obtain ⟨rfl, -⟩ := exec_error h hr
  exact errorOf_canRaise i s e (aborts_iff.mp h)

/-- Settles O15: the states are each the other with its buffer replaced. -/
theorem operandErrorIgnoresBufferContent : Obligations.OperandErrorIgnoresBufferContent := fun s _ _ m h h' =>
  ⟨operandError_of_setBuf h h', operandError_of_setBuf (s := s.setBuf m) (m := s.buf) h' h⟩

/-- Settles O16: an idle step and an abort keep the level, and so does every commit but CLRE's. -/
theorem errAnyFallsOnlyOnClearOrReset : Obligations.ErrAnyFallsOnlyOnClearOrReset := by
  refine ⟨State.errAny_eq_true_iff, fun s t h hup hdown => ?_⟩
  rcases step_cases h with ⟨-, rfl⟩ | ⟨later, hs, -⟩ | ⟨c, v, later, hs, -⟩
  · cases hup.symm.trans hdown
  · exact .inl ⟨later, hs⟩
  · rcases step_command_cases hs with ⟨e, -, hx⟩ | ⟨i, hd, -, hx⟩
    all_goals obtain rfl := Host.Outcome.next.inj (hx.symm.trans h)
    · cases (State.errAny_raise (s := s.setInputs later) hup e).symm.trans hdown
    · by_cases hi : i = .clre
      · exact .inr ⟨c, v, later, hs, hi ▸ hd⟩
      · have hkept := commitOf_erracc hi (s.setInputs later)
        cases hup.symm.trans ((congrArg (· != 0) hkept).symm.trans hdown)

/-- Settles O8: the step with no input is the idle step, which writes the response alone. -/
theorem idleBlockKeepsState : Obligations.IdleBlockKeepsState := by
  refine fun s hs => ⟨idle s, ?_, rfl, idle_keeps s⟩
  rw [step, hs]

end Sys2Proof.Machine
end

section
/-! The obligations of 70_reset_and_hazards: the step of a presented command, the reset, and the first command after it. -/

namespace Sys2Proof.Machine

/-- Settles O1: the branch of the step for a presented command that decodes. -/
theorem stepRunsDecodedCommand : Obligations.StepRunsDecodedCommand := fun _ _ _ _ _ => step_of_decode_ok

/-- Settles O7: the reset branch of the step does not look at the state. -/
theorem resetInputGivesResetState : Obligations.ResetInputGivesResetState := by
  intro s later hs
  rw [step, hs]
  rfl

/-! ### The first command after reset (70_reset R221) -/

theorem errorOf_tcdecCds_truncated {s : State} (h : s.validBits < s.cur.toNat + 8) :
    errorOf .tcdecCds s = some .truncatedInput := if_pos h

theorem bufrd_aborts {s : State} {idx : BitVec 24} (h : s.len.toNat ≤ idx.toNat) : Aborts (.bufrd idx) s .operand :=
  aborts_iff.mpr (if_pos h)

/-- At LEN 0 and CUR 0 no bit can be read. -/
theorem reset_validBits_lt {bits : Nat} (h : 0 < bits) : State.reset.validBits < State.reset.cur.toNat + bits :=
  Nat.lt_add_left 0 h

theorem reset_truncatedBelow {bits : Nat} (h : 0 < bits) : truncatedBelow bits State.reset = some .truncatedInput :=
  if_pos (reset_validBits_lt h)

/-- Every time code but TCDEC.NONE has at least its p-field, or the fixed part of an ASCII code, to read. -/
theorem reset_timeCode_aborts {i : Instr} (h : isTimeCode i = true) (hn : i ≠ .tcdecNone) :
    Aborts i State.reset .truncatedInput := by
  refine aborts_iff.mpr ?_
  cases i
  case tcdecNone => exact absurd rfl hn
  case tcdecCds => exact errorOf_tcdecCds_truncated (reset_validBits_lt (by decide))
  case tcdecCuc => exact reset_truncatedBelow (by simp only [cucBytes]; omega)
  case tcdecCcs => exact reset_truncatedBelow (by simp only [ccsBytes]; omega)
  case tcdecAsca | tcdecAscb => exact reset_truncatedBelow (by omega)
  all_goals cases h

/-- Every register that GETS reads is 0 at reset; ID is not one of them. -/
theorem reset_specialNats : specialNats State.reset = List.replicate 8 0 ++ [0x42464301] := rfl

/-- A selector that names a special register is answered with its number. -/
theorem gets_responds {sel : BitVec 4} (h : sel.toNat < 9) (s : State) : ∃ t, exec (.gets sel) s = .next t ∧
    Responds t (wordOf ((specialNats s).getD sel.toNat 0)) :=
  ⟨_, exec_of_errorOf_none (if_pos h), responds_respond (special_getD s sel) s⟩

/-- Settles O9: at LEN 0 and CUR 0 every read truncates, at FV 0 no register is valid, and GETS reads zeros and ID. -/
theorem firstCommandAfterReset : Obligations.FirstCommandAfterReset := by
  have hinvalid (i : BitVec 4) : fvValid State.reset.fv i = false := BitVec.getLsbD_zero
  refine ⟨fun n hpos hle => aborts_iff.mpr ?_, aborts_iff.mpr (reset_truncatedBelow (by decide)),
    reset_timeCode_aborts rfl nofun, reset_timeCode_aborts rfl nofun, reset_timeCode_aborts rfl nofun,
    fun _ _ => reset_timeCode_aborts rfl nofun, fun _ _ => reset_timeCode_aborts rfl nofun,
    fun i => getf_aborts (hinvalid i), aborts_iff.mpr (errorOf_phenc_invalid fun hvalid => ?_),
    bufrd_aborts (Nat.le_refl 0), fun sel h => ?_, gets_responds (by decide) State.reset⟩
  · exact (errorOf_rdbits hle).trans (readError_truncated hpos (reset_validBits_lt hpos))
  · exact Bool.false_ne_true ((hinvalid 0).symm.trans (hvalid 0 (by decide)))
  · obtain ⟨t, ht, hr⟩ := gets_responds (h.trans (by decide)) State.reset
    rw [reset_specialNats, List.getD_append _ _ _ _ (by simpa using h), List.getD_replicate _ h] at hr
    exact ⟨t, ht, hr⟩

end Sys2Proof.Machine
end

section
/-! TCDEC.CUC under BFC-1's layout of the extension byte (42_timecode R133, R135). -/

namespace Sys2Proof.Machine

/-- TCDEC.CUC has one test: the bytes its widths ask for are there (42_timecode R133). -/
theorem errorOf_tcdecCuc (s : State) :
    errorOf .tcdecCuc s = truncatedBelow (8 * (cucCode Config.cucxLayout s).bytes) s := by
  obtain ⟨-, -, hbytes⟩ := cucCode_eq_cucAt (lay := Config.cucxLayout) rfl s
  exact congrArg (fun n => truncatedBelow (8 * n) s) hbytes

/-- Settles O34: the one test, and the CUC time code with the extension byte cut into 1, 2, 3 and 2 bits. -/
theorem tcdecCucDecodes : Obligations.TcdecCucDecodes :=
  ⟨fun _ => decode_eq_ok_iff.mpr ⟨rfl, rfl, nofun⟩, fun s =>
    ⟨fun h => aborts_iff.mpr ((errorOf_tcdecCuc s).trans (if_pos h)), fun h =>
      timeCode_answers rfl ((errorOf_timeCode_eq_none rfl).mpr ⟨.inr h, nofun⟩)⟩⟩

end Sys2Proof.Machine
end
